-- ==== Sys2Proof/Word.lean ====
section
/-! DEFINITION. The word types of the block: what the spec treats as bits. -/

namespace Sys2Proof

/-- A hardware register word, 32 bits, and equally a 32-bit physical address (R6, R9, R54). -/
abbrev Word := BitVec 32

/-- The 6-bit logical pin field of a P-format request (R7, R90). -/
abbrev Pin := BitVec 6

/-- A 16-bit handler identifier; every value is legal and none means "no handler" (R98). -/
abbrev Hid := BitVec 16

/-- A 12-bit byte offset inside one of the two blocks (R10, R88). -/
abbrev Off := BitVec 12

end Sys2Proof
end

