-- ==== Sys2Proof/Syntax.lean ====
section
/-! DEFINITION. The requests of the three ports: the raw words (R87 to R90), the twenty-six operations of
spec/opcode_table.json, and the enumerations the operations use (R93 to R97). -/

namespace Sys2Proof

/-- Direction of a bus transaction (R64, R65). -/
inductive Dir where
  | read
  | write
  deriving DecidableEq, Repr

/-- `PinMode` (R31, R93). -/
inductive PinMode where
  | input
  | output
  deriving DecidableEq, Repr

/-- `PinState` (R31, R94). -/
inductive PinState where
  | low
  | high
  deriving DecidableEq, Repr

/-- `EdgeType`: exactly two members (R95). -/
inductive EdgeType where
  | rising
  | falling
  deriving DecidableEq, Repr

/-- The reading of a pair of pull bits (R30, R96); `both` is no member of the source's `PullConfig`. -/
inductive PullConfig where
  | none
  | pullUp
  | pullDown
  | both
  deriving DecidableEq, Repr

/-- Result codes (R97, R148 to R151). -/
inductive Code where
  | ok
  | invalidMode
  | invalidPin
  | configurationFailure
  deriving DecidableEq, Repr

/-- The synchronous result of an operation that returns one (R20, R97). -/
structure Result where
  code  : Code
  value : Word
  deriving DecidableEq, Repr

/-- A raw request word, tagged by the port it arrives on; the port alone decides the format (R87). -/
inductive Request where
  /-- B-format, 46 bits: one bus transaction (R88). -/
  | bus (w : BitVec 46)
  /-- A-format, 68 bits: one RegisterAccess primitive (R89). -/
  | access (w : BitVec 68)
  /-- P-format, 32 bits: one pin-level or context-control operation (R90). -/
  | pin (w : BitVec 32)
  deriving DecidableEq, Repr

/-- The operations: one constructor per row of spec/opcode_table.json, in the table's order. `arg` stays the raw
4-bit field, because a value outside the enumeration is a legal request that answers an error (R93 to R95, R103). -/
inductive Instr where
  /-- `RD OUT` (R66) -/
  | rdOut
  /-- `WR OUT, v` (R67) -/
  | wrOut (v : Word)
  /-- `WR OUT_SET, m` (R68) -/
  | wrOutSet (m : Word)
  /-- `WR OUT_CLEAR, m` (R69) -/
  | wrOutClear (m : Word)
  /-- `RD ENABLE` (R70) -/
  | rdEnable
  /-- `WR ENABLE, v` (R71) -/
  | wrEnable (v : Word)
  /-- `WR ENABLE_SET, m` (R72) -/
  | wrEnableSet (m : Word)
  /-- `WR ENABLE_CLEAR, m` (R73) -/
  | wrEnableClear (m : Word)
  /-- `RD IN` (R74) -/
  | rdIn
  /-- `RD MUX` at offset `off` of the IO-MUX block (R75) -/
  | rdMux (off : Off)
  /-- `WR MUX` at offset `off` of the IO-MUX block (R76) -/
  | wrMux (off : Off) (v : Word)
  /-- `REG_READ addr` (R108) -/
  | regRead (addr : Word)
  /-- `SET_BITS addr, mask` (R109) -/
  | setBits (addr mask : Word)
  /-- `CLEAR_BITS addr, mask` (R110) -/
  | clearBits (addr mask : Word)
  /-- `GPIO_BIT pin` (R116) -/
  | gpioBit (p : Pin)
  /-- `IOMUX_ADDR pin` (R117) -/
  | iomuxAddr (p : Pin)
  /-- `INIT pin, mode` (R120) -/
  | init (p : Pin) (arg : BitVec 4)
  /-- `WRITE pin, state` (R122) -/
  | write (p : Pin) (arg : BitVec 4)
  /-- `READ pin` (R124) -/
  | read (p : Pin)
  /-- `ENABLE_PULLUP pin` (R128) -/
  | enablePullup (p : Pin)
  /-- `ENABLE_PULLDOWN pin` (R129) -/
  | enablePulldown (p : Pin)
  /-- `CONFIG_INTERRUPTION pin, edge, hid` (R136) -/
  | configInterruption (p : Pin) (arg : BitVec 4) (hid : Hid)
  /-- `EXCLUDE_INTERRUPTION pin` (R139) -/
  | excludeInterruption (p : Pin)
  /-- `IRQ_DISABLE` (R142) -/
  | irqDisable
  /-- `IRQ_ENABLE` (R143) -/
  | irqEnable
  /-- `HRET` (R144) -/
  | hret
  deriving DecidableEq, Repr

/-- The two RegisterAccess primitives that can be cross-paired (R112). -/
inductive Primitive where
  | setBits
  | clearBits
  deriving DecidableEq, Repr

/-- The decoder's verdict on a request word. -/
inductive Decoded where
  /-- The word spells this operation. -/
  | instr (i : Instr)
  /-- A B-format read at an offset of the GPIO block that no row of the table names: no operation and no decode error, but a
  read transaction at `B_G + off` (R88, R103; log entry 22). -/
  | gpioRead (off : Off)
  /-- A B-format write likewise: the write of `data` at `B_G + off` (R88, R103; log entry 22). -/
  | gpioWrite (off : Off) (data : Word)
  /-- The word spells no operation (R102, R103). -/
  | reserved
  deriving DecidableEq, Repr

end Sys2Proof
end

