-- ==== Sys2Proof/Config.lean ====
section
/-! DEFINITION. The parameters of the block (R6 to R16) as one record of plain data, the reference values of R17, and the
free values: constants with no body, of which nothing can be proved. -/

namespace Sys2Proof

/-- `MUXF`: the bit positions of the seven fields of an IO-MUX word (R11). -/
structure MuxLayout where
  funLsb : Nat
  drvLsb : Nat
  ieBit  : Nat
  puBit  : Nat
  pdBit  : Nat
  slpBit : Nat
  oeBit  : Nat
  deriving DecidableEq, Repr

/-- The ten bit positions the seven fields occupy (R11, R28). -/
def MuxLayout.bits (l : MuxLayout) : List Nat :=
  [l.funLsb, l.funLsb + 1, l.funLsb + 2, l.drvLsb, l.drvLsb + 1, l.ieBit, l.puBit, l.pdBit, l.slpBit, l.oeBit]

/-- One handler body: the requests issued by the handler with this identifier when invoked with this pin (R16). -/
structure HandlerBody where
  hid  : Hid
  pin  : Pin
  body : List Request
  deriving DecidableEq, Repr

/-- The parameters of R7 to R14 and R16. The step reads them from the state (log entry 1) and nothing changes them (R43,
R114). Sets, partial functions and predicates are held as lists. -/
structure Config where
  /-- `PIN_MAX` (R7) -/
  pinMax    : Nat
  /-- `VALID_PINS` (R8) -/
  validPins : List Pin
  /-- `B_G` (R9) -/
  bG        : Word
  /-- `B_M` (R9) -/
  bM        : Word
  /-- `IOMUX_OFF`: an explicit lookup table (R10) -/
  iomux     : List (Pin × Off)
  /-- `MUXF` (R11) -/
  muxf      : MuxLayout
  /-- `FUN_GPIO` (R12) -/
  funGpio   : BitVec 3
  /-- the pins on which `HAS_PULL` is false (R13) -/
  noPull    : List Pin
  /-- `MAX_NEST`; `none` is unbounded (R14) -/
  maxNest   : Option Nat
  /-- `HANDLER_BODY`, for the pairs listed (R16) -/
  handlers  : List HandlerBody
  /-- `HANDLER_BODY` of every pair not listed (R16) -/
  otherBody : List Request
  deriving DecidableEq, Repr

/-- The request word of `HRET` (R144): what a handler body ends with (R16). -/
def hretRequest : Request := .pin 0xC0000000

/-- `IOMUX_OFF` of `CFG_REF`, pins 0 to 8 (R17). -/
def Config.refIomux0 : List (Pin × Off) :=
  [(0, 0x44), (1, 0x88), (2, 0x40), (3, 0x84), (4, 0x48), (5, 0x6C), (6, 0x60), (7, 0x64), (8, 0x68)]

/-- `IOMUX_OFF` of `CFG_REF`, pins 9 to 17 (R17). -/
def Config.refIomux1 : List (Pin × Off) :=
  [(9, 0x54), (10, 0x58), (11, 0x5C), (12, 0x34), (13, 0x38), (14, 0x30), (15, 0x3C), (16, 0x4C), (17, 0x50)]

/-- `IOMUX_OFF` of `CFG_REF`, pins 18 to 26 (R17). -/
def Config.refIomux2 : List (Pin × Off) :=
  [(18, 0x70), (19, 0x74), (20, 0x78), (21, 0x7C), (22, 0x80), (23, 0x8C), (24, 0x90), (25, 0x24), (26, 0x28)]

/-- `IOMUX_OFF` of `CFG_REF`, pins 27 and 32 to 39 (R17). -/
def Config.refIomux3 : List (Pin × Off) :=
  [(27, 0x2C), (32, 0x1C), (33, 0x20), (34, 0x14), (35, 0x18), (36, 0x04), (37, 0x08), (38, 0x0C), (39, 0x10)]

/-- `CFG_REF` (R17), general knowledge by the spec's own word; its handler bodies are the model's (log entry 3). -/
def Config.ref : Config where
  pinMax    := 39
  validPins := (refIomux0 ++ refIomux1 ++ refIomux2 ++ refIomux3).map Prod.fst
  bG        := 0x3FF44000
  bM        := 0x3FF49000
  iomux     := refIomux0 ++ refIomux1 ++ refIomux2 ++ refIomux3
  muxf      := { funLsb := 12, drvLsb := 10, ieBit := 9, puBit := 8, pdBit := 7, slpBit := 1, oeBit := 0 }
  funGpio   := 2
  noPull    := [34, 35, 36, 37, 38, 39]
  maxNest   := some 1
  handlers  := []
  otherBody := [hretRequest]

/-- FREE VALUE: the `n`-th word drawn for the 22 unnamed bits of an IO-MUX word when the state lists no draw (R28, R75). -/
opaque Config.freeWord : Nat → Word

/-- FREE VALUE: the `n`-th answer of `IntCtl` when the state lists no answer (R15). -/
opaque Config.freeAnswer : Nat → Bool

/-- FREE VALUE: the `n`-th choice among several enabled dispatches when the state lists no event (R167). -/
opaque Config.freePick : Nat → Nat

end Sys2Proof
end

