-- ==== Sys2Proof/WellFormed.lean ====
section
/-! DEFINITION. What is well formed: a configuration (the start-up validation of R181, whose constraints are R7 to R12, R14
and R16) and a request word (R102, R103). An `Instr` needs no check of its own: every operand field is a bit vector of
exactly its encoded width, so every term of `Instr` has an encoding. -/

namespace Sys2Proof

/-- `27 <= PIN_MAX <= 63` (R7). -/
def Config.pinMaxOk (c : Config) : Bool := 27 ≤ c.pinMax && c.pinMax ≤ 63

/-- `{21, 27} ⊆ VALID_PINS ⊆ {0 .. PIN_MAX}` (R8). -/
def Config.validPinsOk (c : Config) : Bool :=
  c.validPins.contains 21 && c.validPins.contains 27 && c.validPins.all (fun p => p.toNat ≤ c.pinMax)

/-- Both bases are multiples of 4 (R9). -/
def Config.basesAligned (c : Config) : Bool := c.bG.toNat % 4 == 0 && c.bM.toNat % 4 == 0

/-- Neither block wraps past `2^32` and the two do not overlap (R9). -/
def Config.basesApart (c : Config) : Bool :=
  c.bG.toNat + 0x40 ≤ 2 ^ 32 && c.bM.toNat + 0x1000 ≤ 2 ^ 32 &&
    (c.bG.toNat + 0x40 ≤ c.bM.toNat || c.bM.toNat + 0x1000 ≤ c.bG.toNat)

/-- `IOMUX_OFF` is defined on pins 21 and 27, and only on members of `VALID_PINS` (R10). -/
def Config.iomuxDomainOk (c : Config) : Bool :=
  (c.iomux.map Prod.fst).contains 21 && (c.iomux.map Prod.fst).contains 27 &&
    c.iomux.all (fun e => c.validPins.contains e.1)

/-- Every IO-MUX offset is a multiple of 4 (R10); that it is below `0x1000` is its type. -/
def Config.iomuxAligned (c : Config) : Bool := c.iomux.all (fun e => e.2.toNat % 4 == 0)

/-- `IOMUX_OFF` is a function and no two pins share an offset (R10). -/
def Config.iomuxInjective (c : Config) : Bool :=
  decide (c.iomux.map Prod.fst).Nodup && decide (c.iomux.map Prod.snd).Nodup

/-- Every field lies inside bits 31..0 and no two fields overlap (R11). -/
def Config.muxfOk (c : Config) : Bool := c.muxf.bits.all (fun b => b < 32) && decide c.muxf.bits.Nodup

/-- `MAX_NEST >= 1`, or unbounded (R14). -/
def Config.maxNestOk (c : Config) : Bool := c.maxNest != some 0

/-- Every handler body ends with `HRET` (R16). -/
def Config.bodiesOk (c : Config) : Bool :=
  c.handlers.all (fun h => h.body.getLast? == some hretRequest) && c.otherBody.getLast? == some hretRequest

/-- The start-up validation of R181: a configuration that fails it is no configuration of this block. -/
def Config.wellFormed (c : Config) : Bool :=
  c.pinMaxOk && c.validPinsOk && c.basesAligned && c.basesApart && c.iomuxDomainOk && c.iomuxAligned &&
    c.iomuxInjective && c.muxfOk && c.maxNestOk && c.bodiesOk

/-- An A-format word spells an operation: its `aop` is not reserved, and `REG_READ` has mask 0 (R92, R102, R103). -/
def accessWellFormed (w : BitVec 68) : Bool :=
  let aop := w.extractLsb' 64 4
  1 ≤ aop.toNat && aop.toNat ≤ 3 && (aop != 1 || w.extractLsb' 0 32 == 0)

/-- A P-format word spells an operation: its `pop` is not reserved and its must-be-zero fields are zero (R91, R102,
R103). -/
def pinWellFormed (w : BitVec 32) : Bool :=
  let pop := (w.extractLsb' 28 4).toNat
  1 ≤ pop && pop ≤ 0xC && w.extractLsb' 16 2 == 0 &&
    (w.extractLsb' 18 4 == 0 || pop == 3 || pop == 4 || pop == 8) &&
    (w.extractLsb' 0 16 == 0 || pop == 8) &&
    (w.extractLsb' 22 6 == 0 || pop < 0xA)

/-- A request word is not reserved (R102, R103); no B-format word is (R103). -/
def Request.wellFormed : Request → Bool
  | .bus _ => true
  | .access w => accessWellFormed w
  | .pin w => pinWellFormed w

end Sys2Proof
end

