-- ==== Sys2Proof/Decode.lean ====
section
/-! DEFINITION. The decoder of the three request formats (R87 to R92, R102, R103), total on every word, the encoder written
from the same tables, and the mask and match of each row of spec/opcode_table.json. -/

namespace Sys2Proof

/-! ## Decoding -/

/-- A read of the GPIO block: the three offsets the table names; any other decodes to its transaction, which no row names (R103). -/
def decodeGpioRead (off : Off) : Decoded :=
  if off = 0x004 then .instr .rdOut
  else if off = 0x020 then .instr .rdEnable
  else if off = 0x03C then .instr .rdIn
  else .gpioRead off

/-- A write of the GPIO block: the six offsets the table names; any other decodes to its transaction, which no row names (R103). -/
def decodeGpioWrite (off : Off) (data : Word) : Decoded :=
  if off = 0x004 then .instr (.wrOut data)
  else if off = 0x008 then .instr (.wrOutSet data)
  else if off = 0x00C then .instr (.wrOutClear data)
  else if off = 0x020 then .instr (.wrEnable data)
  else if off = 0x024 then .instr (.wrEnableSet data)
  else if off = 0x028 then .instr (.wrEnableClear data)
  else .gpioWrite off data

/-- B-format: `we` at 45, `blk` at 44, `off` at 43:32, `data` at 31:0, ignored on a read (R88). -/
def decodeBus (w : BitVec 46) : Decoded :=
  let off := w.extractLsb' 32 12
  let data := w.extractLsb' 0 32
  match w.getLsbD 45, w.getLsbD 44 with
  | false, false => decodeGpioRead off
  | true,  false => decodeGpioWrite off data
  | false, true  => .instr (.rdMux off)
  | true,  true  => .instr (.wrMux off data)

/-- A-format: `aop` at 67:64, `addr` at 63:32, `mask` at 31:0, which must be 0 for `REG_READ` (R89, R92, R103). -/
def decodeAccess (w : BitVec 68) : Decoded :=
  let addr := w.extractLsb' 32 32
  let mask := w.extractLsb' 0 32
  match (w.extractLsb' 64 4).toNat with
  | 1 => if mask = 0 then .instr (.regRead addr) else .reserved
  | 2 => .instr (.setBits addr mask)
  | 3 => .instr (.clearBits addr mask)
  | _ => .reserved

/-- P-format: `pop` at 31:28, `pin` at 27:22, `arg` at 21:18, `rsv` at 17:16, `hid` at 15:0, each must-be-zero field
checked (R90, R91, R103). -/
def decodePin (w : BitVec 32) : Decoded :=
  let p := w.extractLsb' 22 6
  let arg := w.extractLsb' 18 4
  let hid := w.extractLsb' 0 16
  -- the operation, if every field it does not use is zero
  let only (unused : Bool) (i : Instr) : Decoded := if unused then .instr i else .reserved
  if w.extractLsb' 16 2 ≠ 0 then .reserved
  else match (w.extractLsb' 28 4).toNat with
    | 0x1 => only (arg == 0 && hid == 0) (.gpioBit p)
    | 0x2 => only (arg == 0 && hid == 0) (.iomuxAddr p)
    | 0x3 => only (hid == 0) (.init p arg)
    | 0x4 => only (hid == 0) (.write p arg)
    | 0x5 => only (arg == 0 && hid == 0) (.read p)
    | 0x6 => only (arg == 0 && hid == 0) (.enablePullup p)
    | 0x7 => only (arg == 0 && hid == 0) (.enablePulldown p)
    | 0x8 => .instr (.configInterruption p arg hid)
    | 0x9 => only (arg == 0 && hid == 0) (.excludeInterruption p)
    | 0xA => only (p == 0 && arg == 0 && hid == 0) .irqDisable
    | 0xB => only (p == 0 && arg == 0 && hid == 0) .irqEnable
    | 0xC => only (p == 0 && arg == 0 && hid == 0) .hret
    | _ => .reserved

/-- The decoder: total on every word of every port. -/
def decode : Request → Decoded
  | .bus w => decodeBus w
  | .access w => decodeAccess w
  | .pin w => decodePin w

/-! ## Encoding -/

/-- A B-format word: `we << 45 | blk << 44 | off << 32 | data` (R88). -/
def packBus (we blk : BitVec 1) (off : Off) (data : Word) : BitVec 46 :=
  we.setWidth 46 <<< 45 ||| blk.setWidth 46 <<< 44 ||| off.setWidth 46 <<< 32 ||| data.setWidth 46

/-- An A-format word: `aop << 64 | addr << 32 | mask` (R89). -/
def packAccess (aop : BitVec 4) (addr mask : Word) : BitVec 68 :=
  aop.setWidth 68 <<< 64 ||| addr.setWidth 68 <<< 32 ||| mask.setWidth 68

/-- A P-format word: `pop << 28 | pin << 22 | arg << 18 | hid`, `rsv` zero (R90). -/
def packPin (pop : BitVec 4) (p : Pin) (arg : BitVec 4) (hid : Hid) : BitVec 32 :=
  pop.setWidth 32 <<< 28 ||| p.setWidth 32 <<< 22 ||| arg.setWidth 32 <<< 18 ||| hid.setWidth 32

/-- The request word of an operation; the ignored `data` of a read is written as 0. -/
def encode : Instr → Request
  | .rdOut => .bus (packBus 0 0 0x004 0)
  | .wrOut v => .bus (packBus 1 0 0x004 v)
  | .wrOutSet m => .bus (packBus 1 0 0x008 m)
  | .wrOutClear m => .bus (packBus 1 0 0x00C m)
  | .rdEnable => .bus (packBus 0 0 0x020 0)
  | .wrEnable v => .bus (packBus 1 0 0x020 v)
  | .wrEnableSet m => .bus (packBus 1 0 0x024 m)
  | .wrEnableClear m => .bus (packBus 1 0 0x028 m)
  | .rdIn => .bus (packBus 0 0 0x03C 0)
  | .rdMux off => .bus (packBus 0 1 off 0)
  | .wrMux off v => .bus (packBus 1 1 off v)
  | .regRead addr => .access (packAccess 1 addr 0)
  | .setBits addr mask => .access (packAccess 2 addr mask)
  | .clearBits addr mask => .access (packAccess 3 addr mask)
  | .gpioBit p => .pin (packPin 0x1 p 0 0)
  | .iomuxAddr p => .pin (packPin 0x2 p 0 0)
  | .init p arg => .pin (packPin 0x3 p arg 0)
  | .write p arg => .pin (packPin 0x4 p arg 0)
  | .read p => .pin (packPin 0x5 p 0 0)
  | .enablePullup p => .pin (packPin 0x6 p 0 0)
  | .enablePulldown p => .pin (packPin 0x7 p 0 0)
  | .configInterruption p arg hid => .pin (packPin 0x8 p arg hid)
  | .excludeInterruption p => .pin (packPin 0x9 p 0 0)
  | .irqDisable => .pin (packPin 0xA 0 0 0)
  | .irqEnable => .pin (packPin 0xB 0 0 0)
  | .hret => .pin (packPin 0xC 0 0 0)

/-! ## The opcode table -/

/-- The number a request word is (bit 0 least significant, as the table numbers bits). -/
def Request.toNat : Request → Nat
  | .bus w => w.toNat
  | .access w => w.toNat
  | .pin w => w.toNat

/-- The width of a request's format in bits (R88 to R90). -/
def Request.width : Request → Nat
  | .bus _ => 46
  | .access _ => 68
  | .pin _ => 32

/-- A row of spec/opcode_table.json: the format's width, the mask and the match. -/
structure OpRow where
  width : Nat
  mask  : Nat
  value : Nat
  deriving DecidableEq, Repr

/-- The row of an operation in spec/opcode_table.json. -/
def tableRow : Instr → OpRow
  | .rdOut => ⟨46, 0x3FFF00000000, 0x000400000000⟩
  | .wrOut _ => ⟨46, 0x3FFF00000000, 0x200400000000⟩
  | .wrOutSet _ => ⟨46, 0x3FFF00000000, 0x200800000000⟩
  | .wrOutClear _ => ⟨46, 0x3FFF00000000, 0x200C00000000⟩
  | .rdEnable => ⟨46, 0x3FFF00000000, 0x002000000000⟩
  | .wrEnable _ => ⟨46, 0x3FFF00000000, 0x202000000000⟩
  | .wrEnableSet _ => ⟨46, 0x3FFF00000000, 0x202400000000⟩
  | .wrEnableClear _ => ⟨46, 0x3FFF00000000, 0x202800000000⟩
  | .rdIn => ⟨46, 0x3FFF00000000, 0x003C00000000⟩
  | .rdMux _ => ⟨46, 0x300000000000, 0x100000000000⟩
  | .wrMux _ _ => ⟨46, 0x300000000000, 0x300000000000⟩
  | .regRead _ => ⟨68, 0xF00000000FFFFFFFF, 0x10000000000000000⟩
  | .setBits _ _ => ⟨68, 0xF0000000000000000, 0x20000000000000000⟩
  | .clearBits _ _ => ⟨68, 0xF0000000000000000, 0x30000000000000000⟩
  | .gpioBit _ => ⟨32, 0xF03FFFFF, 0x10000000⟩
  | .iomuxAddr _ => ⟨32, 0xF03FFFFF, 0x20000000⟩
  | .init _ _ => ⟨32, 0xF003FFFF, 0x30000000⟩
  | .write _ _ => ⟨32, 0xF003FFFF, 0x40000000⟩
  | .read _ => ⟨32, 0xF03FFFFF, 0x50000000⟩
  | .enablePullup _ => ⟨32, 0xF03FFFFF, 0x60000000⟩
  | .enablePulldown _ => ⟨32, 0xF03FFFFF, 0x70000000⟩
  | .configInterruption _ _ _ => ⟨32, 0xF0030000, 0x80000000⟩
  | .excludeInterruption _ => ⟨32, 0xF03FFFFF, 0x90000000⟩
  | .irqDisable => ⟨32, 0xFFFFFFFF, 0xA0000000⟩
  | .irqEnable => ⟨32, 0xFFFFFFFF, 0xB0000000⟩
  | .hret => ⟨32, 0xFFFFFFFF, 0xC0000000⟩

/-- The request a table word is: the table's width, in whole bytes or exactly, says which port it is for (R87). A word
with a bit set above the format's width is no word of it. -/
def requestOfWord (nbits w : Nat) : Option Request :=
  if nbits = 48 ∨ nbits = 46 then (if w < 2 ^ 46 then some (.bus (BitVec.ofNat 46 w)) else none)
  else if nbits = 72 ∨ nbits = 68 then (if w < 2 ^ 68 then some (.access (BitVec.ofNat 68 w)) else none)
  else if nbits = 32 then (if w < 2 ^ 32 then some (.pin (BitVec.ofNat 32 w)) else none)
  else none

/-- The instruction the decoder reads from an instruction whose bits are `w`; `none` where it refuses. -/
def decodeTableWord (nbits w : Nat) : Option Instr :=
  match requestOfWord nbits w with
  | none => none
  | some r =>
    match decode r with
    | .instr i => some i
    | _ => none

end Sys2Proof
end

