-- ==== Sys2Proof/Machine/State.lean ====
section
/-! DEFINITION. The state of the block (R22), as plain data; the reasons a step can stop; the state after reset (R44 to R52,
R179). -/

namespace Sys2Proof.Machine

/-! ## Registers -/

/-- One IO-MUX register: its seven fields (R27). The other 22 bits of its word are not state (R28). -/
structure MuxReg where
  /-- `FUN`, function-select -/
  func : BitVec 3
  /-- `DRV`, drive-strength -/
  drv  : BitVec 2
  /-- `IE`, input-enable -/
  ie   : Bool
  /-- `PU`, pull-up-enable -/
  pu   : Bool
  /-- `PD`, pull-down-enable -/
  pd   : Bool
  /-- `SLP`, sleep-select -/
  slp  : Bool
  /-- `OE`, output-enable override -/
  oe   : Bool
  deriving DecidableEq, Repr

/-- The registers and ports of the address map (R55, R56). -/
inductive Reg where
  | out
  | outSet
  | outClear
  | enable
  | enableSet
  | enableClear
  | inp
  | mux (p : Pin)
  deriving DecidableEq, Repr

/-- The four access disciplines (R58 to R62). -/
inductive Discipline where
  | direct
  | setOnly
  | clearOnly
  | readOnly
  deriving DecidableEq, Repr

/-! ## The interrupt registry and the pads -/

/-- The state of a pin's binding (R32, R135). -/
inductive BindState where
  | unbound
  | configuring
  | bound
  deriving DecidableEq, Repr

/-- `BIND[p]` (R32). -/
structure Binding where
  state   : BindState
  edge    : Option EdgeType
  handler : Option Hid
  deriving DecidableEq, Repr

/-- `EXT[p]`: what the world outside does to a pad (R41). -/
inductive Drive where
  | z
  | l
  | h
  deriving DecidableEq, Repr

/-! ## Contexts -/

/-- The request a frame is executing, with the label of the next step of its sequence (R39). -/
structure Progress where
  instr : Instr
  label : Nat
  deriving DecidableEq, Repr

/-- A frame of `CTX`, without its kind: the request in progress, the remaining requests of its program, and the
temporaries `t`, `e` and `v` (R39, R40). -/
structure Frame where
  cur  : Option Progress
  prog : List Request
  t    : Word
  e    : Word
  v    : Word
  deriving DecidableEq, Repr

/-- A frame of kind `Handler(hid, pin)` (R39). -/
structure HandlerFrame where
  hid   : Hid
  pin   : Pin
  frame : Frame
  deriving DecidableEq, Repr

/-- Which frame took a step, for `LOG`: the main frame, or a handler frame by its height above it (R42). -/
inductive Who where
  | main
  | handler (depth : Nat) (hid : Hid) (pin : Pin)
  deriving DecidableEq, Repr

/-- An entry of `LOG` (R42). -/
inductive Event where
  /-- a B-port transaction: frame, direction, address, value -/
  | txn (who : Who) (dir : Dir) (addr : Word) (val : Word)
  /-- `Invoke(hid, pin)` -/
  | invoke (hid : Hid) (pin : Pin)
  /-- `Return(hid, pin)` -/
  | ret (hid : Hid) (pin : Pin)
  /-- an operation's result -/
  | result (who : Who) (r : Result)
  /-- the environment event `PAD_DRIVE` -/
  | padDrive (p : Pin) (d : Drive)
  /-- the environment event `PAD_LEVEL` -/
  | padLevel (p : Pin) (lvl : Bool)
  deriving DecidableEq, Repr

/-! ## Free inputs -/

/-- What happens at a step boundary: a step of the running frame, an environment event or a dispatch (R160, R161, R165,
R167). -/
inductive Choice where
  | run
  | padDrive (p : Pin) (d : Drive)
  | padLevel (p : Pin) (lvl : Bool)
  | dispatch (p : Pin)
  deriving DecidableEq, Repr

/-- The model's own field: the free inputs of the steps still to come (log entries 4, 7 and 8). The lists may be empty or
any; `fresh` counts the free values of `Config` used so far. -/
structure Inputs where
  /-- the choices of the next step boundaries (R167) -/
  sched   : List Choice
  /-- the next answers of `IntCtl` (R15) -/
  answers : List Bool
  /-- the next draws for unnamed IO-MUX bits (R28) -/
  draws   : List Word
  /-- how many free values of `Config` have been used -/
  fresh   : Nat
  deriving DecidableEq, Repr

/-! ## The state -/

/-- The complete state of the block (R22), with the model's own `cfg` (log entry 1) and `inputs` (log entry 4). -/
structure State where
  /-- the parameters, constant (R43; log entry 1) -/
  cfg      : Config
  /-- `OUT` (R23) -/
  out      : Word
  /-- `ENABLE` (R24) -/
  enable   : Word
  /-- `IN` (R25) -/
  inp      : Word
  /-- `MUX[p]` (R27); the entry of a pin with no IO-MUX register is unused (log entry 16) -/
  mux      : Vector MuxReg 64
  /-- `BIND[p]`, pins 0 to 31 (R32) -/
  bind     : Vector Binding 32
  /-- `PEND[p]`, pins 0 to 31 (R35) -/
  pend     : Vector Bool 32
  /-- `SVC` (R36) -/
  svc      : Bool
  /-- `IRQ_EN` (R37) -/
  irqEn    : Bool
  /-- the main frame of `CTX` (R39) -/
  main     : Frame
  /-- the handler frames of `CTX`, topmost first (R39) -/
  handlers : List HandlerFrame
  /-- `EXT[p]`, pins 0 to 31 (R41) -/
  ext      : Vector Drive 32
  /-- `LOG`, oldest first (R42) -/
  log      : List Event
  /-- free inputs (log entries 4, 7 and 8) -/
  inputs   : Inputs
  deriving DecidableEq, Repr

/-! ## Reasons to stop -/

/-- A behaviour the spec gives no value: the run ends here (R155). -/
inductive Fault where
  /-- `Fault.BadAccess(addr, dir)` (R77): raised by the step that makes the transaction, of a B-port word or an A-port
  operation. Safe: the machine stops where the source does not say what happens. -/
  | badAccess (addr : Word) (dir : Dir)
  /-- `Fault.UncheckedPin(pin)` (R131): raised by the pull operations on a pin with no IO-MUX register. Safe. -/
  | uncheckedPin (p : Pin)
  /-- A handler frame's requests have run out with no `HRET`, which R144 calls ill-formed: raised by the step of the
  running frame (log entry 15). Safe. -/
  | handlerWithoutReturn
  /-- The running frame's label is beyond its request's sequence, which no run reaches: raised by every operation
  (log entry 14). Safe. -/
  | noSuchLabel
  deriving DecidableEq, Repr

/-- A request that spells no operation (R156). -/
inductive Refusal where
  /-- An arm of `exec` with no meaning yet; no arm answers it. Safe. -/
  | notModelled (mnemonic : String)
  /-- `Refuse.ReservedOp(word)` (R102, R103): raised by the step that fetches the word. Safe. -/
  | reservedOp (r : Request)
  /-- `Refuse.Misuse(primitive, addr)` (R112): raised by `SET_BITS` and `CLEAR_BITS` on a register whose discipline the
  primitive is not defined for. Safe. -/
  | misuse (prim : Primitive) (addr : Word)
  /-- `Refuse.NoHandler` (R144): raised by `HRET` in the main context. Safe. -/
  | noHandler
  deriving DecidableEq, Repr

/-! ## Reset -/

/-- An IO-MUX register after reset: R46 leaves every field unspecified; the model's value is 0 (log entry 10). -/
def MuxReg.reset : MuxReg :=
  { func := 0, drv := 0, ie := false, pu := false, pd := false, slp := false, oe := false }

/-- `(Unbound, none, none)` (R47). -/
def Binding.reset : Binding := { state := .unbound, edge := none, handler := none }

/-- A frame with no request in progress; its temporaries are unspecified (R51), the model's value is 0 (log entry 12). -/
def Frame.idle (prog : List Request) : Frame := { cur := none, prog := prog, t := 0, e := 0, v := 0 }

/-- No input listed: every free input is then taken from `Config`. -/
def Inputs.none : Inputs := { sched := [], answers := [], draws := [], fresh := 0 }

/-- The state after reset (R44 to R52, R179). `OUT`, `ENABLE`, `IN`, `MUX` and `EXT` are unspecified there: the values 0 and
`Z` are the model's (log entries 9, 10, 11), as are `cfg` and `inputs` (log entries 2 and 4). -/
def State.reset : State where
  cfg      := Config.ref
  out      := 0
  enable   := 0
  inp      := 0
  mux      := Vector.replicate 64 MuxReg.reset
  bind     := Vector.replicate 32 Binding.reset
  pend     := Vector.replicate 32 false
  svc      := false
  irqEn    := true
  main     := Frame.idle []
  handlers := []
  ext      := Vector.replicate 32 Drive.z
  log      := []
  inputs   := Inputs.none

end Sys2Proof.Machine
end

