-- ==== Sys2Proof/Machine/Operands.lean ====
section
/-! DEFINITION. Operands: argument values, pin validity, masks, the address map and the IO-MUX word layout. Pure functions of
the configuration and of the operands (R58, R114). -/

namespace Sys2Proof.Machine

/-! ## Argument values -/

/-- `PinMode` in `arg`; every other value is "any other mode value" (R93). -/
def pinMode (arg : BitVec 4) : Option PinMode :=
  if arg = 0 then some .input else if arg = 1 then some .output else none

/-- `PinState` in `arg` (R94). -/
def pinState (arg : BitVec 4) : Option PinState :=
  if arg = 0 then some .low else if arg = 1 then some .high else none

/-- `EdgeType` in `arg` (R95). -/
def edgeType (arg : BitVec 4) : Option EdgeType :=
  if arg = 1 then some .rising else if arg = 2 then some .falling else none

/-- The 2-bit code of a result (R97). -/
def codeBits : Code → BitVec 2
  | .ok => 0
  | .invalidMode => 1
  | .invalidPin => 2
  | .configurationFailure => 3

/-- The 34-bit result word: code at 33:32, value at 31:0 (R97). -/
def resultWord (r : Result) : BitVec 34 := codeBits r.code ++ r.value

/-- `Ok` with a value. -/
def okValue (v : Word) : Result := { code := .ok, value := v }

/-- `Ok` with no value, which is 0 (R97). -/
def okResult : Result := okValue 0

/-- An error, whose value is 0 (R97). -/
def errResult (c : Code) : Result := { code := c, value := 0 }

/-! ## Pins (R7 to R13, R115) -/

/-- The highest pin with a registry entry and a pad: `min(PIN_MAX, 31)` (R32, R35, R41). -/
def lastPadPin (c : Config) : Nat := min c.pinMax 31

/-- `gpio_valid(p)` (R115). -/
def gpioValid (c : Config) (p : Pin) : Bool := c.validPins.contains p && p.toNat ≤ 31

/-- `IOMUX_OFF(p)` (R10). -/
def iomuxOff (c : Config) (p : Pin) : Option Off := (c.iomux.find? (fun e => e.1 == p)).map Prod.snd

/-- `mux_valid(p)`: `IOMUX_OFF(p)` is defined (R115). -/
def muxValid (c : Config) (p : Pin) : Bool := (iomuxOff c p).isSome

/-- `HAS_PULL(p)` (R13). -/
def hasPull (c : Config) (p : Pin) : Bool := !c.noPull.contains p

/-- The body of the handler `hid` invoked with pin `p` (R16). -/
def handlerBody (c : Config) (hid : Hid) (p : Pin) : List Request :=
  match c.handlers.find? (fun h => h.hid == hid && h.pin == p) with
  | some h => h.body
  | none => c.otherBody

/-! ## Masks (R12, R18, R99, R101) -/

/-- `1 << b` (R18). -/
def bitMask (b : Nat) : Word := 1#32 <<< b

/-- The single-pin mask `1 << gpio_bit(pin)`, and `gpio_bit(p) = p` (R101, R116). -/
def pinMask (p : Pin) : Word := bitMask p.toNat

/-- Bit `b` of a word set to `lvl`, the others kept. -/
def putBit (w : Word) (b : Nat) (lvl : Bool) : Word := if lvl then w ||| bitMask b else w &&& ~~~ bitMask b

/-- `G_MASK = FUN_GPIO << FUN_LSB` (R12). -/
def gMask (c : Config) : Word := c.funGpio.setWidth 32 <<< c.muxf.funLsb

/-- `NG_MASK = (7 xor FUN_GPIO) << FUN_LSB` (R12). -/
def ngMask (c : Config) : Word := (7#3 ^^^ c.funGpio).setWidth 32 <<< c.muxf.funLsb

/-- `PU_MASK` (R99). -/
def puMask (c : Config) : Word := bitMask c.muxf.puBit

/-- `PD_MASK` (R99). -/
def pdMask (c : Config) : Word := bitMask c.muxf.pdBit

/-! ## The IO-MUX word (R99) -/

/-- One bit of a field placed at its position. -/
def placeBit (b : Nat) (v : Bool) : Word := if v then bitMask b else 0

/-- The mask of the ten named bits (R28, R99). -/
def namedMask (l : MuxLayout) : Word :=
  7#32 <<< l.funLsb ||| 3#32 <<< l.drvLsb ||| bitMask l.ieBit ||| bitMask l.puBit ||| bitMask l.pdBit |||
    bitMask l.slpBit ||| bitMask l.oeBit

/-- `word(MUX[p], u)`: the fields at their positions, every other bit from `u` (R99). -/
def muxWord (l : MuxLayout) (m : MuxReg) (u : Word) : Word :=
  (u &&& ~~~ namedMask l) ||| m.func.setWidth 32 <<< l.funLsb ||| m.drv.setWidth 32 <<< l.drvLsb |||
    placeBit l.ieBit m.ie ||| placeBit l.puBit m.pu ||| placeBit l.pdBit m.pd |||
    placeBit l.slpBit m.slp ||| placeBit l.oeBit m.oe

/-- `fields(v)`: the seven fields read off a word (R99). -/
def muxFields (l : MuxLayout) (v : Word) : MuxReg where
  func := v.extractLsb' l.funLsb 3
  drv  := v.extractLsb' l.drvLsb 2
  ie   := v.getLsbD l.ieBit
  pu   := v.getLsbD l.puBit
  pd   := v.getLsbD l.pdBit
  slp  := v.getLsbD l.slpBit
  oe   := v.getLsbD l.oeBit

/-- The `PullConfig` a register's two pull bits read as (R30, R96). -/
def pullConfig (m : MuxReg) : PullConfig :=
  match m.pu, m.pd with
  | false, false => .none
  | true,  false => .pullUp
  | false, true  => .pullDown
  | true,  true  => .both

/-! ## The address map (R54 to R58) -/

/-- The GPIO register at a byte offset from `B_G` (R55). -/
def gpioReg (d : Word) : Option Reg :=
  if d = 0x04 then some .out
  else if d = 0x08 then some .outSet
  else if d = 0x0C then some .outClear
  else if d = 0x20 then some .enable
  else if d = 0x24 then some .enableSet
  else if d = 0x28 then some .enableClear
  else if d = 0x3C then some .inp
  else none

/-- The address of a GPIO register: `B_G` plus its offset (R55, R88). -/
def gpioAddr (c : Config) (off : Word) : Word := c.bG + off

/-- The address of an IO-MUX offset: `B_M + zext_32(off)` (R88, R101). -/
def iomuxAddrOf (c : Config) (off : Off) : Word := c.bM + off.setWidth 32

/-- The address of `MUX[p]` (R56), for a pin with an IO-MUX entry. -/
def muxAddr (c : Config) (p : Pin) : Word := iomuxAddrOf c ((iomuxOff c p).getD 0)

/-- `pin_of(addr)`: the pin whose IO-MUX register stands at the address (R56). -/
def pinOf (c : Config) (a : Word) : Option Pin :=
  (c.iomux.find? (fun e => iomuxAddrOf c e.2 == a)).map Prod.fst

/-- The register or port at an address; `none` is unmapped (R55 to R57). -/
def regAt (c : Config) (a : Word) : Option Reg :=
  match gpioReg (a - c.bG) with
  | some r => some r
  | none => (pinOf c a).map Reg.mux

/-- The discipline of a register (R55, R56). -/
def discipline : Reg → Discipline
  | .out => .direct
  | .outSet => .setOnly
  | .outClear => .clearOnly
  | .enable => .direct
  | .enableSet => .setOnly
  | .enableClear => .clearOnly
  | .inp => .readOnly
  | .mux _ => .direct

/-- `disc(addr)`; `none` is unmapped (R107). -/
def disc (c : Config) (a : Word) : Option Discipline := (regAt c a).map discipline

end Sys2Proof.Machine
end

