-- ==== Sys2Proof/Machine/Flags.lean ====
section
/-! DEFINITION. The interrupt registry and the flags: `BIND`, `PEND`, `SVC` and `IRQ_EN` (R32 to R37), edge matching (R159) and
the latching of an edge (R161, R164). -/

namespace Sys2Proof.Machine

/-- `BIND[p]`; a pin above 31 has no entry and reads as unbound (R32). -/
def State.bindAt (s : State) (p : Pin) : Binding := s.bind[p.toNat]?.getD Binding.reset

/-- `BIND[p] <- b`; a pin above 31 has no entry to write (R32). -/
def State.setBind (s : State) (p : Pin) (b : Binding) : State := { s with bind := s.bind.setIfInBounds p.toNat b }

/-- `BIND[p].state <- x` (R135). -/
def State.setBindState (s : State) (p : Pin) (x : BindState) : State :=
  s.setBind p { s.bindAt p with state := x }

/-- `PEND[p]`; a pin above 31 has no bit (R35). -/
def State.pendAt (s : State) (p : Pin) : Bool := s.pend[p.toNat]?.getD false

/-- `PEND[p] <- b` (R35). -/
def State.setPend (s : State) (p : Pin) (b : Bool) : State := { s with pend := s.pend.setIfInBounds p.toNat b }

/-- `SVC <- 1`; nothing clears it (R36). -/
def State.installService (s : State) : State := { s with svc := true }

/-- `IRQ_EN <- b` (R37). -/
def State.setIrqEn (s : State) (b : Bool) : State := { s with irqEn := b }

/-- `match(edge, old, new)` (R159). -/
def edgeMatches : EdgeType → Bool → Bool → Bool
  | .rising, old, new => !old && new
  | .falling, old, new => old && !new

/-- Whether the change of pin `p` from `old` to `new` is latched: the pin is bound and the edge is its own (R161). -/
def edgeDetected (b : Binding) (old new : Bool) : Bool :=
  decide (b.state = .bound) && (match b.edge with | some e => edgeMatches e old new | none => false)

/-- A detected edge sets `PEND[p]`, which stays set if it was (R161, R164). -/
def latchEdge (p : Pin) (old new : Bool) (s : State) : State :=
  if edgeDetected (s.bindAt p) old new then s.setPend p true else s

end Sys2Proof.Machine
end

