-- ==== Sys2Proof/Machine/Ops.lean ====
section
/-! DEFINITION. The named operations over the state that the meanings are built from: frames, `LOG`, free inputs, the two bus
transactions, the steps of a sequence, taking an interrupt and returning from it, and placing a request. -/

namespace Sys2Proof.Machine

/-! ## Frames (R39, R40) -/

/-- The top frame of `CTX`: the running one. -/
def State.top (s : State) : Frame :=
  match s.handlers with
  | [] => s.main
  | h :: _ => h.frame

/-- The same stack with another top frame. -/
def State.setTop (s : State) (f : Frame) : State :=
  { s with
    main := (match s.handlers with | [] => f | _ :: _ => s.main)
    handlers := (match s.handlers with | [] => [] | h :: hs => { h with frame := f } :: hs) }

/-- The name of the running frame in `LOG` (R42). -/
def State.who (s : State) : Who :=
  match s.handlers with
  | [] => .main
  | h :: hs => .handler (hs.length + 1) h.hid h.pin

/-- The label of the next step of `i` in the running frame: 0, its first step, unless `i` is in progress (R39). -/
def State.labelOf (s : State) (i : Instr) : Nat :=
  match s.top.cur with
  | some pr => if pr.instr = i then pr.label else 0
  | none => 0

/-- The running frame goes on to step `k` of `i`. -/
def State.goOn (s : State) (i : Instr) (k : Nat) : State :=
  s.setTop { s.top with cur := some { instr := i, label := k } }

/-- The running frame's request is finished. -/
def State.finish (s : State) : State := s.setTop { s.top with cur := none }

/-- `t <- w` in the running frame (R40). -/
def State.setT (s : State) (w : Word) : State := s.setTop { s.top with t := w }

/-- `e <- w` in the running frame (R40). -/
def State.setE (s : State) (w : Word) : State := s.setTop { s.top with e := w }

/-- `v <- w` in the running frame (R40). -/
def State.setV (s : State) (w : Word) : State := s.setTop { s.top with v := w }

/-! ## LOG, registers and pads -/

/-- Append an event to `LOG` (R42). -/
def State.logEvent (s : State) (ev : Event) : State := { s with log := s.log ++ [ev] }

/-- `MUX[p]` (R27). -/
def State.muxAt (s : State) (p : Pin) : MuxReg := s.mux[p.toNat]?.getD MuxReg.reset

/-- `MUX[p] <- m` (R27). -/
def State.setMux (s : State) (p : Pin) (m : MuxReg) : State := { s with mux := s.mux.setIfInBounds p.toNat m }

/-- `EXT[p]`; a pin above 31 has no entry (R41). -/
def State.extAt (s : State) (p : Pin) : Drive := s.ext[p.toNat]?.getD .z

/-- `EXT[p] <- d` (R160). -/
def State.setExt (s : State) (p : Pin) (d : Drive) : State := { s with ext := s.ext.setIfInBounds p.toNat d }

/-! ## Free inputs -/

/-- `draw(32-bit words)` (R19, R75): the next draw listed, else the next free value. -/
def takeDraw (s : State) : Word × State :=
  match s.inputs.draws with
  | u :: us => (u, { s with inputs := { s.inputs with draws := us } })
  | [] => (Config.freeWord s.inputs.fresh, { s with inputs := { s.inputs with fresh := s.inputs.fresh + 1 } })

/-- The next answer of `IntCtl` (R15): the next answer listed, else the next free value. -/
def askIntCtl (s : State) : Bool × State :=
  match s.inputs.answers with
  | b :: bs => (b, { s with inputs := { s.inputs with answers := bs } })
  | [] => (Config.freeAnswer s.inputs.fresh, { s with inputs := { s.inputs with fresh := s.inputs.fresh + 1 } })

/-! ## Bus transactions (R64, R65) -/

/-- The read rule of a register: none for a write-only port (R66, R70, R74, R75, R77). -/
def readReg (r : Reg) (s : State) : Option (Word × State) :=
  match r with
  | .out => some (s.out, s)
  | .enable => some (s.enable, s)
  | .inp => some (s.inp, s)
  | .mux p => some (muxWord s.cfg.muxf (s.muxAt p) (takeDraw s).1, (takeDraw s).2)
  | .outSet | .outClear | .enableSet | .enableClear => none

/-- The write rule of a register or port: none for `IN` (R67 to R69, R71 to R73, R76, R77). -/
def writeReg (r : Reg) (w : Word) (s : State) : Option State :=
  match r with
  | .out => some { s with out := w }
  | .outSet => some { s with out := s.out ||| w }
  | .outClear => some { s with out := s.out &&& ~~~ w }
  | .enable => some { s with enable := w }
  | .enableSet => some { s with enable := s.enable ||| w }
  | .enableClear => some { s with enable := s.enable &&& ~~~ w }
  | .mux p => some (s.setMux p (muxFields s.cfg.muxf w))
  | .inp => none

/-- `MemRead(a, 4)`: the value and the state with the transaction logged, or `Fault.BadAccess` (R64, R77). -/
def memRead (a : Word) (s : State) : Except Fault (Word × State) :=
  match (regAt s.cfg a).bind (fun r => readReg r s) with
  | some x => .ok (x.1, x.2.logEvent (.txn s.who .read a x.1))
  | none => .error (.badAccess a .read)

/-- `MemWrite(a, 4, w)`: the state with the transaction logged, or `Fault.BadAccess` (R65, R77). -/
def memWrite (a w : Word) (s : State) : Except Fault State :=
  match (regAt s.cfg a).bind (fun r => writeReg r w s) with
  | some s' => .ok (s'.logEvent (.txn s.who .write a w))
  | none => .error (.badAccess a .write)

/-! ## Steps and sequences (R5, R39, R106) -/

/-- How one atomic step of an operation ends. -/
inductive StepEnd where
  /-- the operation goes on to its next step -/
  | go (s : State)
  /-- the operation is over, with its result if it has one (R20) -/
  | ret (r : Option Result) (s : State)
  /-- a fault (R155) -/
  | fault (f : Fault)
  /-- a refusal (R156) -/
  | refuse (r : Refusal)

/-- One atomic step: at most one bus transaction (R5). -/
abbrev StepFn := State → StepEnd

/-- `MemRead(a, 4)`, its value handed to a temporary. -/
def loadStep (a : Word) (keep : State → Word → State) : StepFn := fun s =>
  match memRead a s with
  | .ok x => .go (keep x.2 x.1)
  | .error f => .fault f

/-- `MemWrite(a, 4, w)`. -/
def storeStep (a w : Word) : StepFn := fun s =>
  match memWrite a w s with
  | .ok s' => .go s'
  | .error f => .fault f

/-- The two steps of a read-modify-write on a direct register: `t <- MemRead(a)`, then `MemWrite(a, f(t))` (R109, R110). -/
def rmw (a : Word) (f : Word → Word) : List StepFn :=
  [loadStep a State.setT, fun s => storeStep a (f s.top.t) s]

/-- `t | mask`, the value `SET_BITS` writes back (R109). -/
def setMask (mask t : Word) : Word := t ||| mask

/-- `t & ~mask`, the value `CLEAR_BITS` writes back (R110). -/
def clearMask (mask t : Word) : Word := t &&& ~~~ mask

/-- A step that goes on ends the operation instead. -/
def endWith (r : Option Result) (f : StepFn) : StepFn := fun s =>
  match f s with
  | .go s' => .ret r s'
  | other => other

/-- The sequence whose last step ends the operation. -/
def lastEnds (r : Option Result) : List StepFn → List StepFn
  | [] => []
  | [f] => [endWith r f]
  | f :: g :: fs => f :: lastEnds r (g :: fs)

/-- The state an ended step leaves to the frame: on to the next label, or finished, its result logged (R39, R42). -/
def settle (i : Instr) (k : Nat) : StepEnd → Host.Outcome State Fault Refusal
  | .go s => .next (s.goOn i (k + 1))
  | .ret none s => .next s.finish
  | .ret (some r) s => .next (s.finish.logEvent (.result s.who r))
  | .fault f => .fault f
  | .refuse r => .refused r

/-- The next step of operation `i` in the running frame, whose sequence is `steps`. -/
def runSteps (i : Instr) (steps : List StepFn) (s : State) : Host.Outcome State Fault Refusal :=
  match steps[s.labelOf i]? with
  | some f => settle i (s.labelOf i) (f s)
  | none => .fault .noSuchLabel

/-! ## Taking an interrupt and returning from it (R165, R166, R144) -/

/-- Whether fewer than `MAX_NEST` handler frames are stacked (R14, R165). -/
def nestingAllowed (s : State) : Bool :=
  match s.cfg.maxNest with
  | some n => s.handlers.length < n
  | none => true

/-- The handler `DISPATCH(p)` would invoke, if it is enabled: pending, bound, `IRQ_EN = 1`, below the limit (R165). -/
def dispatchable (s : State) (p : Pin) : Option Hid :=
  if s.pendAt p && decide ((s.bindAt p).state = .bound) && s.irqEn && nestingAllowed s then (s.bindAt p).handler
  else none

/-- The atomic step of `DISPATCH(p)`: clear the pending bit, log the invocation, push the handler's frame. The preempted
frame stays as it is under the new one, and nothing else changes (R165, R166). -/
def takeInterrupt (p : Pin) (hid : Hid) (s : State) : State :=
  let s' := (s.setPend p false).logEvent (.invoke hid p)
  { s' with handlers := { hid := hid, pin := p, frame := Frame.idle (handlerBody s.cfg hid p) } :: s.handlers }

/-- The return from a handler: pop its frame and log the return; the frame below is as it was preempted. Refused in the
main context (R144). -/
def returnFromHandler (s : State) : Host.Outcome State Fault Refusal :=
  match s.handlers with
  | h :: hs => .next ({ s with handlers := hs }.logEvent (.ret h.hid h.pin))
  | [] => .refused .noHandler

/-! ## Placing a request -/

/-- The state whose running frame has no request in progress and `r` as its next, and whose next step is that frame's. -/
def placeRequest (s : State) (r : Request) : State :=
  let s' := s.setTop { s.top with cur := none, prog := r :: s.top.prog }
  { s' with inputs := { s'.inputs with sched := .run :: s'.inputs.sched } }

end Sys2Proof.Machine
end

