-- ==== Sys2Proof/Machine/Bus.lean ====
section
/-! DEFINITION. The eleven legal bus transactions of the B-port, one meaning each (R66 to R76), and the transactions of a
B-format word that no row of the table names. Each is one atomic step and returns no code (R152); the value a read returns
is the value its transaction logs. -/

namespace Sys2Proof.Machine

/-- A read transaction as a whole request; the value is kept nowhere but in `LOG` (R64). -/
def busRead (i : Instr) (a : Word) (s : State) : Host.Outcome State Fault Refusal :=
  runSteps i (lastEnds none [loadStep a (fun s' _ => s')]) s

/-- A write transaction as a whole request (R65). -/
def busWrite (i : Instr) (a w : Word) (s : State) : Host.Outcome State Fault Refusal :=
  runSteps i (lastEnds none [storeStep a w]) s

/-- `RD OUT` (R66). -/
def execRdOut (s : State) : Host.Outcome State Fault Refusal := busRead .rdOut (gpioAddr s.cfg 0x04) s

/-- `WR OUT` (R67). -/
def execWrOut (v : Word) (s : State) : Host.Outcome State Fault Refusal :=
  busWrite (.wrOut v) (gpioAddr s.cfg 0x04) v s

/-- `WR OUT_SET` (R68). -/
def execWrOutSet (m : Word) (s : State) : Host.Outcome State Fault Refusal :=
  busWrite (.wrOutSet m) (gpioAddr s.cfg 0x08) m s

/-- `WR OUT_CLEAR` (R69). -/
def execWrOutClear (m : Word) (s : State) : Host.Outcome State Fault Refusal :=
  busWrite (.wrOutClear m) (gpioAddr s.cfg 0x0C) m s

/-- `RD ENABLE` (R70). -/
def execRdEnable (s : State) : Host.Outcome State Fault Refusal := busRead .rdEnable (gpioAddr s.cfg 0x20) s

/-- `WR ENABLE` (R71). -/
def execWrEnable (v : Word) (s : State) : Host.Outcome State Fault Refusal :=
  busWrite (.wrEnable v) (gpioAddr s.cfg 0x20) v s

/-- `WR ENABLE_SET` (R72). -/
def execWrEnableSet (m : Word) (s : State) : Host.Outcome State Fault Refusal :=
  busWrite (.wrEnableSet m) (gpioAddr s.cfg 0x24) m s

/-- `WR ENABLE_CLEAR` (R73). -/
def execWrEnableClear (m : Word) (s : State) : Host.Outcome State Fault Refusal :=
  busWrite (.wrEnableClear m) (gpioAddr s.cfg 0x28) m s

/-- `RD IN` (R74): returns the sampled levels and samples nothing. -/
def execRdIn (s : State) : Host.Outcome State Fault Refusal := busRead .rdIn (gpioAddr s.cfg 0x3C) s

/-- `RD MUX` (R75): an offset that is no pin's faults. -/
def execRdMux (off : Off) (s : State) : Host.Outcome State Fault Refusal :=
  busRead (.rdMux off) (iomuxAddrOf s.cfg off) s

/-- `WR MUX` (R76): an offset that is no pin's faults. -/
def execWrMux (off : Off) (v : Word) (s : State) : Host.Outcome State Fault Refusal :=
  busWrite (.wrMux off v) (iomuxAddrOf s.cfg off) v s

/-! ## Transactions that no row names (R88, R103; log entry 22) -/

/-- A read transaction at any address, the whole of its request: what stands there answers, or the step faults (R64, R77). -/
def readOnce (a : Word) (s : State) : Host.Outcome State Fault Refusal :=
  match memRead a s with
  | .ok x => .next x.2
  | .error f => .fault f

/-- A write transaction at any address, the whole of its request (R65, R77). -/
def writeOnce (a w : Word) (s : State) : Host.Outcome State Fault Refusal :=
  match memWrite a w s with
  | .ok s' => .next s'
  | .error f => .fault f

end Sys2Proof.Machine
end

