-- ==== Sys2Proof/Machine/Gpio.lean ====
section
/-! DEFINITION. GpioController: `INIT`, `WRITE`, `READ` (R119 to R126). -/

namespace Sys2Proof.Machine

/-! ## INIT (R120) -/

/-- Step `i0`: the pin check, then the mode check; an error ends the operation with no transaction (R119, R120). -/
def initCheck (p : Pin) (arg : BitVec 4) : StepFn := fun s =>
  if gpioValid s.cfg p && muxValid s.cfg p then
    (match pinMode arg with
      | some _ => .go s
      | none => .ret (some (errResult .invalidMode)) s)
  else .ret (some (errResult .invalidPin)) s

/-- Step `i1`: the pin's mask to `ENABLE_SET` for `Output`, to `ENABLE_CLEAR` otherwise (R120). -/
def enableStep (c : Config) (p : Pin) (mode : Option PinMode) : StepFn :=
  storeStep (gpioAddr c (if mode = some .output then 0x24 else 0x28)) (pinMask p)

/-- Steps `i2` to `i5`: set the GPIO bits of the function-select field, then clear the others (R120). -/
def routeSteps (c : Config) (p : Pin) : List StepFn :=
  rmw (muxAddr c p) (setMask (gMask c)) ++ rmw (muxAddr c p) (clearMask (ngMask c))

/-- Steps `i0` to `i5` (R120). -/
def initSteps (c : Config) (p : Pin) (arg : BitVec 4) : List StepFn :=
  initCheck p arg :: lastEnds (some okResult) (enableStep c p (pinMode arg) :: routeSteps c p)

/-- `INIT` (R120). -/
def execInit (p : Pin) (arg : BitVec 4) (s : State) : Host.Outcome State Fault Refusal :=
  runSteps (.init p arg) (initSteps s.cfg p arg) s

/-! ## WRITE (R122) -/

/-- Step `w0`: the pin check, then the state check (R119, R122). -/
def writeCheck (p : Pin) (arg : BitVec 4) : StepFn := fun s =>
  if gpioValid s.cfg p then
    (match pinState arg with
      | some _ => .go s
      | none => .ret (some (errResult .invalidMode)) s)
  else .ret (some (errResult .invalidPin)) s

/-- Steps `w0` and `w1`: the pin's mask to `OUT_SET` for `High`, to `OUT_CLEAR` otherwise (R122). -/
def writeSteps (c : Config) (p : Pin) (arg : BitVec 4) : List StepFn :=
  [writeCheck p arg,
   endWith (some okResult)
    (storeStep (gpioAddr c (if pinState arg = some .high then 0x08 else 0x0C)) (pinMask p))]

/-- `WRITE` (R122). -/
def execWrite (p : Pin) (arg : BitVec 4) (s : State) : Host.Outcome State Fault Refusal :=
  runSteps (.write p arg) (writeSteps s.cfg p arg) s

/-! ## READ (R124) -/

/-- Step `r0`: the pin check (R124). -/
def readCheck (p : Pin) : StepFn := fun s =>
  if gpioValid s.cfg p then .go s else .ret (some (errResult .invalidPin)) s

/-- The `PinState` code of bit `p` of a word: 1 `High`, 0 `Low` (R94, R124). -/
def levelCode (w : Word) (p : Pin) : Word := if w.getLsbD p.toNat then 1 else 0

/-- Step `r2`: `v <- OUT` if bit `p` of the temporary `e` is 1, else `v <- IN`; `return (Ok, v[p])` (R124). -/
def readLevel (p : Pin) : StepFn := fun s =>
  match memRead (gpioAddr s.cfg (if s.top.e.getLsbD p.toNat then 0x04 else 0x3C)) s with
  | .ok x => .ret (some (okValue (levelCode x.1 p))) (x.2.setV x.1)
  | .error f => .fault f

/-- Steps `r0` to `r2` (R124). -/
def readSteps (c : Config) (p : Pin) : List StepFn :=
  [readCheck p, loadStep (gpioAddr c 0x20) State.setE, readLevel p]

/-- `READ` (R124). -/
def execRead (p : Pin) (s : State) : Host.Outcome State Fault Refusal :=
  runSteps (.read p) (readSteps s.cfg p) s

end Sys2Proof.Machine
end

