-- ==== Sys2Proof/Machine/IoMux.lean ====
section
/-! DEFINITION. IoMuxController: `ENABLE_PULLUP` and `ENABLE_PULLDOWN` (R127 to R133). -/

namespace Sys2Proof.Machine

/-- Steps `u0` and `d0`: a pin with no IO-MUX register faults (R128, R131). -/
def pullCheck (p : Pin) : StepFn := fun s =>
  if muxValid s.cfg p then .go s else .fault (.uncheckedPin p)

/-- Steps `u1` to `u4` and `d1` to `d4`: set the target bit, then clear the opposing bit, two read-modify-writes on the
same register (R127 to R129). -/
def pullSteps (c : Config) (p : Pin) (target opposing : Word) : List StepFn :=
  rmw (muxAddr c p) (setMask target) ++ rmw (muxAddr c p) (clearMask opposing)

/-- `ENABLE_PULLUP` (R128): no result. -/
def execEnablePullup (p : Pin) (s : State) : Host.Outcome State Fault Refusal :=
  runSteps (.enablePullup p)
    (pullCheck p :: lastEnds none (pullSteps s.cfg p (puMask s.cfg) (pdMask s.cfg))) s

/-- `ENABLE_PULLDOWN` (R129): no result. -/
def execEnablePulldown (p : Pin) (s : State) : Host.Outcome State Fault Refusal :=
  runSteps (.enablePulldown p)
    (pullCheck p :: lastEnds none (pullSteps s.cfg p (pdMask s.cfg) (puMask s.cfg))) s

end Sys2Proof.Machine
end

