-- ==== Sys2Proof/Machine/Interrupt.lean ====
section
/-! DEFINITION. InterruptBinding: `CONFIG_INTERRUPTION`, `EXCLUDE_INTERRUPTION`, `IRQ_DISABLE`, `IRQ_ENABLE`, `HRET` (R135 to
R146). -/

namespace Sys2Proof.Machine

/-! ## CONFIG_INTERRUPTION (R136) -/

/-- The failure of a configuration after `c0`: the pin is `Unbound` again and nothing else is undone (R137). -/
def configFails (p : Pin) (s : State) : StepEnd :=
  .ret (some (errResult .configurationFailure)) (s.setBindState p .unbound)

/-- Step `c0`: the pin check, the binding-state check, `BIND[pin].state <- Configuring` (R136, R138). -/
def configCheck (p : Pin) : StepFn := fun s =>
  if gpioValid s.cfg p && muxValid s.cfg p && decide ((s.bindAt p).state = .unbound) then
    .go (s.setBindState p .configuring)
  else .ret (some (errResult .configurationFailure)) s

/-- Step `c10`: programming the edge type (R136). -/
def configEdge (p : Pin) (arg : BitVec 4) : StepFn := fun s =>
  match edgeType arg with
  | some e => .go (s.setBind p { s.bindAt p with edge := some e })
  | none => configFails p s

/-- Step `c11`: ensuring the service; `install_ok` is asked only if it is not installed (R136, R145). -/
def configService (p : Pin) : StepFn := fun s =>
  if s.svc then .go s
  else if (askIntCtl s).1 then .go (askIntCtl s).2.installService
  else configFails p (askIntCtl s).2

/-- `BIND[pin].handler <- hid`, `PEND[pin] <- 0`, `BIND[pin].state <- Bound` (R136 step `c12`). -/
def attachHandler (p : Pin) (hid : Hid) (s : State) : State :=
  (s.setBind p { s.bindAt p with state := .bound, handler := some hid }).setPend p false

/-- Step `c12`: attaching the handler, if `attach_ok` (R136). -/
def configAttach (p : Pin) (hid : Hid) : StepFn := fun s =>
  if (askIntCtl s).1 then .ret (some okResult) (attachHandler p hid (askIntCtl s).2)
  else configFails p (askIntCtl s).2

/-- Steps `c0` to `c12`: `c1` to `c5` are `i1` to `i5` of `INIT pin, Input`, and `c6` to `c9` are `u1` to `u4` of
`ENABLE_PULLUP pin` (R136). -/
def configSteps (c : Config) (p : Pin) (arg : BitVec 4) (hid : Hid) : List StepFn :=
  configCheck p :: enableStep c p (some .input) :: (routeSteps c p ++ pullSteps c p (puMask c) (pdMask c) ++
    [configEdge p arg, configService p, configAttach p hid])

/-- `CONFIG_INTERRUPTION` (R136). -/
def execConfigInterruption (p : Pin) (arg : BitVec 4) (hid : Hid) (s : State) : Host.Outcome State Fault Refusal :=
  runSteps (.configInterruption p arg hid) (configSteps s.cfg p arg hid) s

/-! ## EXCLUDE_INTERRUPTION (R139) -/

/-- Detach a bound pin's handler and discard its pending edge; a pin not bound is left as it is (R139, R140). -/
def detachHandler (p : Pin) (s : State) : State :=
  if (s.bindAt p).state = .bound then
    (s.setBind p { s.bindAt p with state := .unbound, handler := none }).setPend p false
  else s

/-- Step `x0` (R139). -/
def excludeStep (p : Pin) : StepFn := fun s =>
  if gpioValid s.cfg p then .ret (some okResult) (detachHandler p s) else .ret (some (errResult .invalidPin)) s

/-- `EXCLUDE_INTERRUPTION` (R139). -/
def execExcludeInterruption (p : Pin) (s : State) : Host.Outcome State Fault Refusal :=
  runSteps (.excludeInterruption p) [excludeStep p] s

/-! ## Context control -/

/-- `IRQ_DISABLE`: `IRQ_EN <- 0` (R142). -/
def execIrqDisable (s : State) : Host.Outcome State Fault Refusal :=
  runSteps .irqDisable [fun s' => .ret none (s'.setIrqEn false)] s

/-- `IRQ_ENABLE`: `IRQ_EN <- 1` (R143). -/
def execIrqEnable (s : State) : Host.Outcome State Fault Refusal :=
  runSteps .irqEnable [fun s' => .ret none (s'.setIrqEn true)] s

/-- `HRET`: return from the running handler (R144). -/
def execHret (s : State) : Host.Outcome State Fault Refusal := returnFromHandler s

end Sys2Proof.Machine
end

