-- ==== Sys2Proof/Machine/PinRegistry.lean ====
section
/-! DEFINITION. The PinRegistry lookups `GPIO_BIT` and `IOMUX_ADDR`: one step, no transaction, no state changed but `LOG`
(R114 to R118). -/

namespace Sys2Proof.Machine

/-- The answer of `gpio_bit(pin)`: the pin number itself (R116, R118). -/
def gpioBitResult (c : Config) (p : Pin) : Result :=
  if gpioValid c p then okValue (p.setWidth 32) else errResult .invalidPin

/-- The answer of `iomux_addr(pin)` (R117). -/
def iomuxAddrResult (c : Config) (p : Pin) : Result :=
  if muxValid c p then okValue (muxAddr c p) else errResult .invalidPin

/-- `GPIO_BIT`, step `g0` (R116). -/
def execGpioBit (p : Pin) (s : State) : Host.Outcome State Fault Refusal :=
  runSteps (.gpioBit p) [fun s' => .ret (some (gpioBitResult s'.cfg p)) s'] s

/-- `IOMUX_ADDR`, step `m0` (R117). -/
def execIomuxAddr (p : Pin) (s : State) : Host.Outcome State Fault Refusal :=
  runSteps (.iomuxAddr p) [fun s' => .ret (some (iomuxAddrResult s'.cfg p)) s'] s

end Sys2Proof.Machine
end

