-- ==== Sys2Proof/Machine/RegisterAccess.lean ====
section
/-! DEFINITION. The RegisterAccess primitives of the A-port: `REG_READ`, `SET_BITS`, `CLEAR_BITS` (R107 to R112). -/

namespace Sys2Proof.Machine

/-- Step `a0`: `return (Ok, MemRead(addr, 4))` (R108). -/
def regReadStep (addr : Word) : StepFn := fun s =>
  match memRead addr s with
  | .ok x => .ret (some (okValue x.1)) x.2
  | .error f => .fault f

/-- `REG_READ` (R108): always `Ok`, or a fault on a write-only port or an unmapped address. -/
def execRegRead (addr : Word) (s : State) : Host.Outcome State Fault Refusal :=
  runSteps (.regRead addr) [regReadStep addr] s

/-- The sequence of `SET_BITS` by the discipline of its address (R109, R112). -/
def setBitsSteps (c : Config) (addr mask : Word) : List StepFn :=
  match disc c addr with
  | some .setOnly => lastEnds none [storeStep addr mask]
  | some .direct => lastEnds none (rmw addr (setMask mask))
  | some .clearOnly | some .readOnly => [fun _ => .refuse (.misuse .setBits addr)]
  | none => [fun _ => .fault (.badAccess addr .write)]

/-- The sequence of `CLEAR_BITS` by the discipline of its address (R110, R112). -/
def clearBitsSteps (c : Config) (addr mask : Word) : List StepFn :=
  match disc c addr with
  | some .clearOnly => lastEnds none [storeStep addr mask]
  | some .direct => lastEnds none (rmw addr (clearMask mask))
  | some .setOnly | some .readOnly => [fun _ => .refuse (.misuse .clearBits addr)]
  | none => [fun _ => .fault (.badAccess addr .write)]

/-- `SET_BITS` (R109). -/
def execSetBits (addr mask : Word) (s : State) : Host.Outcome State Fault Refusal :=
  runSteps (.setBits addr mask) (setBitsSteps s.cfg addr mask) s

/-- `CLEAR_BITS` (R110). -/
def execClearBits (addr mask : Word) (s : State) : Host.Outcome State Fault Refusal :=
  runSteps (.clearBits addr mask) (clearBitsSteps s.cfg addr mask) s

end Sys2Proof.Machine
end

