-- ==== Sys2Proof/Machine/Dispatch.lean ====
section
/-! DEFINITION. exec: the next step of an operation in the running frame, one arm per constructor of Instr. -/

namespace Sys2Proof.Machine

def exec (i : Instr) (s : State) : Host.Outcome State Fault Refusal :=
  match i with
  | .rdOut => Sys2Proof.Machine.execRdOut s
  | .wrOut v => Sys2Proof.Machine.execWrOut v s
  | .wrOutSet m => Sys2Proof.Machine.execWrOutSet m s
  | .wrOutClear m => Sys2Proof.Machine.execWrOutClear m s
  | .rdEnable => Sys2Proof.Machine.execRdEnable s
  | .wrEnable v => Sys2Proof.Machine.execWrEnable v s
  | .wrEnableSet m => Sys2Proof.Machine.execWrEnableSet m s
  | .wrEnableClear m => Sys2Proof.Machine.execWrEnableClear m s
  | .rdIn => Sys2Proof.Machine.execRdIn s
  | .rdMux off => Sys2Proof.Machine.execRdMux off s
  | .wrMux off v => Sys2Proof.Machine.execWrMux off v s
  | .regRead addr => Sys2Proof.Machine.execRegRead addr s
  | .setBits addr mask => Sys2Proof.Machine.execSetBits addr mask s
  | .clearBits addr mask => Sys2Proof.Machine.execClearBits addr mask s
  | .gpioBit p => Sys2Proof.Machine.execGpioBit p s
  | .iomuxAddr p => Sys2Proof.Machine.execIomuxAddr p s
  | .init p arg => Sys2Proof.Machine.execInit p arg s
  | .write p arg => Sys2Proof.Machine.execWrite p arg s
  | .read p => Sys2Proof.Machine.execRead p s
  | .enablePullup p => Sys2Proof.Machine.execEnablePullup p s
  | .enablePulldown p => Sys2Proof.Machine.execEnablePulldown p s
  | .configInterruption p arg hid => Sys2Proof.Machine.execConfigInterruption p arg hid s
  | .excludeInterruption p => Sys2Proof.Machine.execExcludeInterruption p s
  | .irqDisable => Sys2Proof.Machine.execIrqDisable s
  | .irqEnable => Sys2Proof.Machine.execIrqEnable s
  | .hret => Sys2Proof.Machine.execHret s

end Sys2Proof.Machine
end

