-- ==== Sys2Proof/Machine/Events.lean ====
section
/-! DEFINITION. The environment events `PAD_DRIVE` and `PAD_LEVEL`, the levels a pad may be sampled at, and which dispatches are
enabled (R157 to R165). -/

namespace Sys2Proof.Machine

/-- Whether a pin has a pad in this block: `0 .. min(PIN_MAX, 31)` (R41, R160, R161). DESIGN CHOICE (log entry 30): R100 says
that a bit position of no valid pin has no pad; the model follows the other three and gives it one. -/
def hasPad (c : Config) (p : Pin) : Bool := p.toNat ≤ lastPadPin c

/-- Whether `lvl` is in `Sense(p)`: the first case of R163's table that applies. -/
def sensed (s : State) (p : Pin) (lvl : Bool) : Bool :=
  if s.enable.getLsbD p.toNat then true
  else
    match s.extAt p with
    | .h => lvl
    | .l => !lvl
    | .z =>
      if muxValid s.cfg p && hasPull s.cfg p then
        (match pullConfig (s.muxAt p) with
          | .pullUp => lvl
          | .pullDown => !lvl
          | .none | .both => true)
      else true

/-- `PAD_DRIVE(p, d)` (R160). -/
def padDrive (p : Pin) (d : Drive) (s : State) : State := (s.setExt p d).logEvent (.padDrive p d)

/-- `PAD_LEVEL(p, lvl)`: sample the pad into `IN` and latch a matching edge of a bound pin, in one step (R161). -/
def padLevel (p : Pin) (lvl : Bool) (s : State) : State :=
  (latchEdge p (s.inp.getLsbD p.toNat) lvl { s with inp := putBit s.inp p.toNat lvl }).logEvent (.padLevel p lvl)

/-- `PAD_DRIVE` if the pin has a pad; an event that cannot occur does not (log entry 4). -/
def offerPadDrive (p : Pin) (d : Drive) (s : State) : State := if hasPad s.cfg p then padDrive p d s else s

/-- `PAD_LEVEL` if it is admissible (R161); an event that cannot occur does not (log entry 4). -/
def offerPadLevel (p : Pin) (lvl : Bool) (s : State) : State :=
  if hasPad s.cfg p && sensed s p lvl then padLevel p lvl s else s

/-- `DISPATCH(p)` if it is enabled (R165); an event that cannot occur does not (log entry 4). -/
def offerDispatch (p : Pin) (s : State) : State :=
  match dispatchable s p with
  | some hid => takeInterrupt p hid s
  | none => s

/-- The pins whose dispatch is enabled (R165). -/
def dispatchablePins (s : State) : List Pin :=
  ((List.range 32).map (BitVec.ofNat 6)).filter (fun p => (dispatchable s p).isSome)

/-- A dispatch taken when the main frame has nothing to do and no event is listed: the one that is enabled, or any one of
several, freely chosen; none if none is (R167, R195; log entry 5). -/
def dispatchSome (s : State) : State :=
  match dispatchablePins s with
  | [] => s
  | [p] => offerDispatch p s
  | p :: q :: ps =>
    let s' := { s with inputs := { s.inputs with fresh := s.inputs.fresh + 1 } }
    offerDispatch ((p :: q :: ps).getD (Config.freePick s.inputs.fresh % (p :: q :: ps).length) p) s'

end Sys2Proof.Machine
end

