-- ==== Sys2Proof/Machine/Run.lean ====
section
/-! DEFINITION. One step of the block: which agent moves, and the step of the running frame (R39, R166, R167, R194, R195). -/

namespace Sys2Proof.Machine

/-- Whether only the main frame stands and it has no request left and none in progress (R194). -/
def mainIdle (s : State) : Bool := s.handlers.isEmpty && s.main.cur.isNone && s.main.prog.isEmpty

/-- A running frame with no request left: the main frame waits, a handler frame is ill-formed (R144, R194; log entries 6
and 15). -/
def outOfRequests (s : State) : Host.Outcome State Fault Refusal :=
  if s.handlers.isEmpty then .next s else .fault .handlerWithoutReturn

/-- The first step of the request `r`, in the state that has lost it from its program: of its operation; of a B-format word
that no row names, its transaction, answered by what stands at its address (R64, R65, R88, R103; log entry 22); a reserved
word is refused (R102). -/
def beginRequest (r : Request) (s : State) : Host.Outcome State Fault Refusal :=
  match decode r with
  | .instr i => exec i s
  | .gpioRead off => readOnce (gpioAddr s.cfg (off.setWidth 32)) s
  | .gpioWrite off data => writeOnce (gpioAddr s.cfg (off.setWidth 32)) data s
  | .reserved => .refused (.reservedOp r)

/-- The next step of the running frame: of its request in progress, or the first of its next request (R39). -/
def frameStep (s : State) : Host.Outcome State Fault Refusal :=
  match s.top.cur with
  | some pr => exec pr.instr s
  | none =>
    match s.top.prog with
    | r :: rest => beginRequest r (s.setTop { s.top with prog := rest })
    | [] => outOfRequests s

/-- What a listed choice does at a step boundary (R160, R161, R165, R167). -/
def takeChoice (ch : Choice) (s : State) : Host.Outcome State Fault Refusal :=
  match ch with
  | .run => frameStep s
  | .padDrive p d => .next (offerPadDrive p d s)
  | .padLevel p lvl => .next (offerPadLevel p lvl s)
  | .dispatch p => .next (offerDispatch p s)

/-- The state with the first listed choice used up. -/
def State.popChoice (s : State) : State := { s with inputs := { s.inputs with sched := s.inputs.sched.tail } }

/-- One step: the next listed choice; with none listed, the running frame moves, and once the main frame has nothing to
do an enabled dispatch is taken (R195; log entries 4, 5 and 6). -/
def nextStep (s : State) : Host.Outcome State Fault Refusal :=
  match s.inputs.sched with
  | ch :: _ => takeChoice ch s.popChoice
  | [] => if mainIdle s then .next (dispatchSome s) else frameStep s

end Sys2Proof.Machine
end

