-- ==== Sys2Proof/Machine/Step.lean ====
section
/-! DEFINITION. The step of the machine, and the placing of one request where the step takes its next. -/

namespace Sys2Proof.Machine

/-- One atomic step of the block. -/
def step (s : State) : Host.Outcome State Fault Refusal := Sys2Proof.Machine.nextStep s

/-- `s` with the request whose bits are `w` as the running frame's next, and that frame the next to move (log entry 17);
`s` itself where no port has such a word. -/
def State.withFetchWord (s : State) (nbits w : Nat) : State :=
  match requestOfWord nbits w with
  | some r => Sys2Proof.Machine.placeRequest s r
  | none => s

end Sys2Proof.Machine
end

