-- ==== Sys2Proof/Safety.lean ====
section
/-! DEFINITION. The terms claims are made in: an operation run without preemption, the parts of the state a step leaves alone,
the invariant of the block, and when a run is over (R33, R39, R192, R194). -/

namespace Sys2Proof.Machine

/-! ## Where the running frame is (R39) -/

/-- The running frame has no request in progress. -/
def State.Idle (s : State) : Prop := s.top.cur = none

/-- The running frame's next step is step `k` of `i`. -/
def State.At (s : State) (i : Instr) (k : Nat) : Prop := s.top.cur = some { instr := i, label := k }

/-- `n` steps of operation `i`, each answered by `exec`, one after another with no other agent between them. -/
def Runs (i : Instr) : Nat → State → State → Prop
  | 0, s, t => s = t
  | n + 1, s, t => ∃ s', exec i s = .next s' ∧ Runs i n s' t

/-- The running frame's next step is a step of `i`: it is in progress, or it is what the next request decodes to. -/
def State.Stepping (s : State) (i : Instr) : Prop :=
  (∃ k, s.At i k) ∨ (s.Idle ∧ ∃ r rest, s.top.prog = r :: rest ∧ decode r = .instr i)

/-- `s₀` is `s` with the running frame's move next: no choice is listed, or `run` is and is used up (log entries 4 and 5). -/
def FrameMoves (s s₀ : State) : Prop :=
  (s.inputs.sched = [] ∧ s₀ = s) ∨
    ∃ cs, s.inputs.sched = .run :: cs ∧ s₀ = { s with inputs := { s.inputs with sched := cs } }

/-- `n` steps of the machine, whoever moves, with more than `d` handler frames stacked after each. -/
def StepsAbove (d : Nat) : Nat → State → State → Prop
  | 0, s, t => s = t
  | n + 1, s, t => ∃ s', step s = .next s' ∧ d < s'.handlers.length ∧ StepsAbove d n s' t

/-! ## What is unchanged -/

/-- The GPIO data registers are unchanged. -/
def SameGpio (s t : State) : Prop := t.out = s.out ∧ t.enable = s.enable ∧ t.inp = s.inp

/-- Every IO-MUX register is unchanged. -/
def SameMux (s t : State) : Prop := t.mux = s.mux

/-- Every IO-MUX register but that of pin `p` is unchanged. -/
def SameMuxBut (p : Pin) (s t : State) : Prop := ∀ q, q ≠ p → t.muxAt q = s.muxAt q

/-- The interrupt registry and the flags are unchanged. -/
def SameRegistry (s t : State) : Prop := t.bind = s.bind ∧ t.pend = s.pend ∧ t.svc = s.svc ∧ t.irqEn = s.irqEn

/-- The interrupt registry of every pin but `p` is unchanged. -/
def SameBindingsBut (p : Pin) (s t : State) : Prop := ∀ q, q ≠ p → t.bindAt q = s.bindAt q ∧ t.pendAt q = s.pendAt q

/-- The parameters, the pads, the choices listed for the step boundaries and the answers listed for `IntCtl` are
unchanged. -/
def SameWorld (s t : State) : Prop :=
  t.cfg = s.cfg ∧ t.ext = s.ext ∧ t.inputs.sched = s.inputs.sched ∧ t.inputs.answers = s.inputs.answers

/-- The stack of frames is unchanged but for the request in progress and the temporaries of the running frame. -/
def SameContext (s t : State) : Prop :=
  t.who = s.who ∧ t.top.prog = s.top.prog ∧ t.handlers.tail = s.handlers.tail ∧ (s.handlers ≠ [] → t.main = s.main)

/-- The direction and address of a logged transaction; `none` for every other event. -/
def txnOf : Event → Option (Dir × Word)
  | .txn _ dir addr _ => some (dir, addr)
  | .invoke _ _ | .ret _ _ | .result _ _ | .padDrive _ _ | .padLevel _ _ => none

/-- The four transactions of two read-modify-writes of one register (R106). -/
def twoRmws (a : Word) : List (Option (Dir × Word)) :=
  [some (.read, a), some (.write, a), some (.read, a), some (.write, a)]

/-! ## A transaction on a pin's IO-MUX register, as the state it leaves -/

/-- The word a read of `MUX[p]` returns: its fields, and a draw in the unnamed bits (R75). -/
def muxRead (s : State) (p : Pin) : Word := muxWord s.cfg.muxf (s.muxAt p) (takeDraw s).1

/-- The state after `t <- MemRead(a)` of `MUX[p]` (R75). -/
def afterMuxLoad (s : State) (p : Pin) : State :=
  ((takeDraw s).2.logEvent (.txn s.who .read (muxAddr s.cfg p) (muxRead s p))).setT (muxRead s p)

/-- The state after `MemWrite(a, w)` of `MUX[p]` (R76). -/
def afterMuxStore (s : State) (p : Pin) (w : Word) : State :=
  (s.setMux p (muxFields s.cfg.muxf w)).logEvent (.txn s.who .write (muxAddr s.cfg p) w)

/-- The operation is over with a result (R20). -/
def ended (s : State) (r : Result) : State := s.finish.logEvent (.result s.who r)

/-! ## The invariant (R33, R39, R51) -/

/-- How many steps an operation's sequence has (R106). -/
def stepCount (c : Config) : Instr → Nat
  | .setBits addr _ | .clearBits addr _ => if disc c addr = some .direct then 2 else 1
  | .init _ _ => 6
  | .write _ _ => 2
  | .read _ => 3
  | .enablePullup _ | .enablePulldown _ => 5
  | .configInterruption _ _ _ => 13
  | .rdOut | .wrOut _ | .wrOutSet _ | .wrOutClear _ | .rdEnable | .wrEnable _ | .wrEnableSet _ | .wrEnableClear _
  | .rdIn | .rdMux _ | .wrMux _ _ | .regRead _ | .gpioBit _ | .iomuxAddr _ | .excludeInterruption _ | .irqDisable
  | .irqEnable | .hret => 1

/-- The check step of an operation passes (R120, R122, R124, R128, R129, R136). -/
def checkPasses (c : Config) : Instr → Bool
  | .init p arg => gpioValid c p && muxValid c p && (pinMode arg).isSome
  | .write p arg => gpioValid c p && (pinState arg).isSome
  | .read p => gpioValid c p
  | .enablePullup p | .enablePulldown p => muxValid c p
  | .configInterruption p _ _ => gpioValid c p && muxValid c p
  | .rdOut | .wrOut _ | .wrOutSet _ | .wrOutClear _ | .rdEnable | .wrEnable _ | .wrEnableSet _ | .wrEnableClear _
  | .rdIn | .rdMux _ | .wrMux _ _ | .regRead _ | .setBits _ _ | .clearBits _ _ | .gpioBit _ | .iomuxAddr _
  | .excludeInterruption _ | .irqDisable | .irqEnable | .hret => true

/-- The frames of `CTX`, topmost first. -/
def State.frames (s : State) : List Frame := s.handlers.map HandlerFrame.frame ++ [s.main]

/-- The pin a frame's request in progress is configuring (R135). -/
def configuringPin (f : Frame) : Option Pin :=
  match f.cur with
  | some { instr := .configInterruption p _ _, .. } => some p
  | _ => none

/-- A request in progress is past its first step, which is its check, and before its end; one that configures a pin
holds it in `Configuring`, with the edge type programmed after `c10` and the service installed after `c11` (R135, R136). -/
def FrameOk (s : State) (f : Frame) : Prop :=
  ∀ pr, f.cur = some pr →
    0 < pr.label ∧ pr.label < stepCount s.cfg pr.instr ∧ checkPasses s.cfg pr.instr = true ∧
    (∀ p arg hid, pr.instr = .configInterruption p arg hid →
      (s.bindAt p).state = .configuring ∧ (11 ≤ pr.label → (s.bindAt p).edge.isSome = true) ∧
        (12 ≤ pr.label → s.svc = true))

/-- R33 (b) and (c): a bound pin has a handler and an edge type, and the service is installed; a pin not bound has no
handler and nothing pending. -/
def BindingOk (s : State) (p : Pin) : Prop :=
  if (s.bindAt p).state = .bound then
    (s.bindAt p).handler.isSome = true ∧ (s.bindAt p).edge.isSome = true ∧ s.svc = true
  else (s.bindAt p).handler = none ∧ s.pendAt p = false

/-- No more handler frames than `MAX_NEST` (R14). -/
def NestingOk (s : State) : Prop := ∀ n, s.cfg.maxNest = some n → s.handlers.length ≤ n

/-- The invariant of the block. -/
structure Inv (s : State) : Prop where
  /-- the configuration is one of this block (R181) -/
  config : s.cfg.wellFormed = true
  /-- handlers nest no deeper than `MAX_NEST` (R14, R169) -/
  nesting : NestingOk s
  /-- every frame is at a step of its request (R39) -/
  frames : ∀ f ∈ s.frames, FrameOk s f
  /-- no two frames configure the same pin (R138) -/
  owners : (s.frames.filterMap configuringPin).Nodup
  /-- the registry's invariants (R33) -/
  registry : ∀ p, BindingOk s p
  /-- a pin is `Configuring` only while some frame configures it (R135, R137) -/
  owned : ∀ p, (s.bindAt p).state = .configuring → p ∈ s.frames.filterMap configuringPin

/-! ## The end of a run (R194) -/

/-- A run is over: the main frame alone, with no request left and none in progress, and no dispatch enabled (R194). A
fault or a refusal is no state at all here, but the answer of the step that raised it. -/
def RunOver (s : State) : Prop :=
  s.handlers = [] ∧ s.main.cur = none ∧ s.main.prog = [] ∧ ∀ p, dispatchable s p = none

end Sys2Proof.Machine
end

