-- ==== Sys2Proof/Certificates/Slice0/Obligations.lean ====
section
/-! DEFINITION. The statements for the provers, in the order of the spec's files: encoding, bus, RegisterAccess, PinRegistry,
GpioController, IoMuxController, InterruptBinding, events and dispatch, the step, the whole machine. Each docstring names
the rule it formalises; where a rule is the spec's own decision, or the model chose, the docstring says so. -/

open Sys2Proof Sys2Proof.Machine

/-! ## Encoding (30_encoding.md) -/

/-- R87 to R92 (the spec's own numbering, decision D2): decoding the word of any operation gives the operation, with
every operand at every value. -/
def Obligations.DecodeEncodeRoundTrip : Prop := ∀ i : Instr, decode (encode i) = .instr i

/-- R102 and R103 (decision D2): the decoder's verdict is "reserved" on exactly the words with a reserved opcode or a
non-zero must-be-zero field. -/
def Obligations.ReservedWordsAreTheIllFormedOnes : Prop :=
  ∀ r : Request, decode r = .reserved ↔ r.wellFormed = false

/-- 30_encoding.md section 7, the worked encodings, and words of 95_test_vectors.md (decision D2). -/
def Obligations.WorkedEncodingsDecode : Prop :=
  decode (.pin 0x36C40000) = .instr (.init 27 1) ∧ decode (.pin 0x46C00000) = .instr (.write 27 0) ∧
  decode (.pin 0x56C00000) = .instr (.read 27) ∧ decode (.pin 0x65400000) = .instr (.enablePullup 21) ∧
  decode (.pin 0x75400000) = .instr (.enablePulldown 21) ∧
  decode (.pin 0x86C80005) = .instr (.configInterruption 27 2 5) ∧
  decode (.pin 0x96C00000) = .instr (.excludeInterruption 27) ∧ decode (.pin 0xA0000000) = .instr .irqDisable ∧
  decode (.pin 0xB0000000) = .instr .irqEnable ∧ decode (.pin 0xC0000000) = .instr .hret ∧
  decode (.bus 0x200808000000) = .instr (.wrOutSet 0x08000000) ∧ decode (.bus 0x002000000000) = .instr .rdEnable ∧
  decode (.bus 0x307C00000100) = .instr (.wrMux 0x07C 0x00000100) ∧
  decode (.access 0x23FF4907C00000100) = .instr (.setBits 0x3FF4907C 0x00000100)

/-! ## Bus transactions (20_memory.md) -/

/-- R66, R70, R74: the three reads of the GPIO block, each from its encoding (whatever the ignored `data`), return the
register in their logged transaction and change nothing else. -/
def Obligations.GpioReadsReturnTheRegister : Prop :=
  (∀ d : Word, decode (.bus (packBus 0 0 0x004 d)) = .instr .rdOut ∧
    decode (.bus (packBus 0 0 0x020 d)) = .instr .rdEnable ∧ decode (.bus (packBus 0 0 0x03C d)) = .instr .rdIn) ∧
  ∀ s : State, s.Idle →
    exec .rdOut s = .next (s.logEvent (.txn s.who .read (s.cfg.bG + 0x04) s.out)) ∧
    exec .rdEnable s = .next (s.logEvent (.txn s.who .read (s.cfg.bG + 0x20) s.enable)) ∧
    exec .rdIn s = .next (s.logEvent (.txn s.who .read (s.cfg.bG + 0x3C) s.inp))

/-- R67, R68, R69: a write of `OUT` replaces it, of `OUT_SET` sets the bits of the word, of `OUT_CLEAR` clears them, each
in one step that changes nothing else but `LOG`. -/
def Obligations.WritesOfOut : Prop :=
  (∀ v : Word, decode (.bus (packBus 1 0 0x004 v)) = .instr (.wrOut v) ∧
    decode (.bus (packBus 1 0 0x008 v)) = .instr (.wrOutSet v) ∧
    decode (.bus (packBus 1 0 0x00C v)) = .instr (.wrOutClear v)) ∧
  ∀ (s : State) (v : Word), s.Idle →
    exec (.wrOut v) s = .next ({ s with out := v }.logEvent (.txn s.who .write (s.cfg.bG + 0x04) v)) ∧
    exec (.wrOutSet v) s =
      .next ({ s with out := s.out ||| v }.logEvent (.txn s.who .write (s.cfg.bG + 0x08) v)) ∧
    exec (.wrOutClear v) s =
      .next ({ s with out := s.out &&& ~~~ v }.logEvent (.txn s.who .write (s.cfg.bG + 0x0C) v))

/-- R71, R72, R73: the same of `ENABLE`, `ENABLE_SET` and `ENABLE_CLEAR`. -/
def Obligations.WritesOfEnable : Prop :=
  (∀ v : Word, decode (.bus (packBus 1 0 0x020 v)) = .instr (.wrEnable v) ∧
    decode (.bus (packBus 1 0 0x024 v)) = .instr (.wrEnableSet v) ∧
    decode (.bus (packBus 1 0 0x028 v)) = .instr (.wrEnableClear v)) ∧
  ∀ (s : State) (v : Word), s.Idle →
    exec (.wrEnable v) s = .next ({ s with enable := v }.logEvent (.txn s.who .write (s.cfg.bG + 0x20) v)) ∧
    exec (.wrEnableSet v) s =
      .next ({ s with enable := s.enable ||| v }.logEvent (.txn s.who .write (s.cfg.bG + 0x24) v)) ∧
    exec (.wrEnableClear v) s =
      .next ({ s with enable := s.enable &&& ~~~ v }.logEvent (.txn s.who .write (s.cfg.bG + 0x28) v))

/-- R75: a read of a pin's IO-MUX offset returns, in its logged transaction, a word whose seven fields are the register's
and whose other bits are the draw's; it changes no register. At an offset that is no pin's it faults. -/
def Obligations.RdMuxReturnsTheFields : Prop :=
  (∀ (off : Off) (d : Word), decode (.bus (packBus 0 1 off d)) = .instr (.rdMux off)) ∧
  ∀ (s : State) (off : Off), s.cfg.wellFormed = true → s.Idle →
    (∀ p, iomuxOff s.cfg p = some off →
      ∃ w : Word, muxFields s.cfg.muxf w = s.muxAt p ∧
        (∀ b < 32, b ∉ s.cfg.muxf.bits → w.getLsbD b = (takeDraw s).1.getLsbD b) ∧
        exec (.rdMux off) s =
          .next ((takeDraw s).2.logEvent (.txn s.who .read (s.cfg.bM + off.setWidth 32) w))) ∧
    ((∀ p, iomuxOff s.cfg p ≠ some off) →
      exec (.rdMux off) s = .fault (.badAccess (s.cfg.bM + off.setWidth 32) .read))

/-- R76: a write of a pin's IO-MUX offset replaces all seven fields by the bits of the word at their positions, ignores
its other bits and changes nothing else but `LOG`. At an offset that is no pin's it faults. -/
def Obligations.WrMuxReplacesTheFields : Prop :=
  (∀ (off : Off) (v : Word), decode (.bus (packBus 1 1 off v)) = .instr (.wrMux off v)) ∧
  ∀ (s : State) (off : Off) (v : Word), s.cfg.wellFormed = true → s.Idle →
    (∀ p, iomuxOff s.cfg p = some off →
      exec (.wrMux off v) s = .next ((s.setMux p (muxFields s.cfg.muxf v)).logEvent
        (.txn s.who .write (s.cfg.bM + off.setWidth 32) v)) ∧
      (∀ v' : Word, (∀ b ∈ s.cfg.muxf.bits, v'.getLsbD b = v.getLsbD b) →
        (s.setMux p (muxFields s.cfg.muxf v')).mux = (s.setMux p (muxFields s.cfg.muxf v)).mux)) ∧
    ((∀ p, iomuxOff s.cfg p ≠ some off) →
      exec (.wrMux off v) s = .fault (.badAccess (s.cfg.bM + off.setWidth 32) .write))

/-- R99 (positions are the parameter of decision D8): under a valid layout `fields` undoes `word`, and every bit outside
the seven fields is the draw's. -/
def Obligations.MuxWordLayout : Prop :=
  ∀ (c : Config) (m : MuxReg) (u : Word), c.wellFormed = true →
    muxFields c.muxf (muxWord c.muxf m u) = m ∧
    ∀ b < 32, b ∉ c.muxf.bits → (muxWord c.muxf m u).getLsbD b = u.getLsbD b

/-- R77 (decision D22): a read of a set or clear port, a write of `IN`, and either at an address where no register stands
are faults that name the address and the direction; and in a well-formed configuration the step that fetches a B-format
word of the GPIO block, at an offset below 0x40, that no row of the table names is such a fault, with no choice listed (log
entry 5). At 0x40 and above the word's address is looked up as any other: StepRunsTheDecodedInstr. -/
def Obligations.IllegalTransactionsFault : Prop :=
  (∀ s : State, ∀ off ∈ [(0x08 : Word), 0x0C, 0x24, 0x28],
    memRead (s.cfg.bG + off) s = .error (.badAccess (s.cfg.bG + off) .read)) ∧
  (∀ (s : State) (w : Word),
    memWrite (s.cfg.bG + 0x3C) w s = .error (.badAccess (s.cfg.bG + 0x3C) .write)) ∧
  (∀ (s : State) (a w : Word), regAt s.cfg a = none →
    memRead a s = .error (.badAccess a .read) ∧ memWrite a w s = .error (.badAccess a .write)) ∧
  (∀ (s : State) (rest : List Request) (off : Off) (d : Word), s.cfg.wellFormed = true → s.inputs.sched = [] → s.Idle →
    off.toNat < 0x40 →
    (s.top.prog = .bus (packBus 0 0 off d) :: rest → off ∉ [(0x04 : Off), 0x20, 0x3C] →
      step s = .fault (.badAccess (s.cfg.bG + off.setWidth 32) .read)) ∧
    (s.top.prog = .bus (packBus 1 0 off d) :: rest → off ∉ [(0x04 : Off), 0x08, 0x0C, 0x20, 0x24, 0x28] →
      step s = .fault (.badAccess (s.cfg.bG + off.setWidth 32) .write)))

/-- R55 to R57 (decision D22): at each of the seven GPIO offsets stands its register; in a well-formed configuration nothing
stands at a GPIO offset below 0x40 that is none of the seven, nor at an IO-MUX offset that is no pin's, and at a pin's
offset stands that pin's register alone. -/
def Obligations.AddressMap : Prop :=
  (∀ c : Config,
    regAt c (c.bG + 0x04) = some .out ∧ regAt c (c.bG + 0x08) = some .outSet ∧
    regAt c (c.bG + 0x0C) = some .outClear ∧ regAt c (c.bG + 0x20) = some .enable ∧
    regAt c (c.bG + 0x24) = some .enableSet ∧ regAt c (c.bG + 0x28) = some .enableClear ∧
    regAt c (c.bG + 0x3C) = some .inp) ∧
  ∀ c : Config, c.wellFormed = true →
    (∀ off : Word, off.toNat < 0x40 → off ∉ [(0x04 : Word), 0x08, 0x0C, 0x20, 0x24, 0x28, 0x3C] →
      regAt c (c.bG + off) = none) ∧
    (∀ off : Off, (∀ p, iomuxOff c p ≠ some off) → regAt c (c.bM + off.setWidth 32) = none) ∧
    (∀ (p : Pin) (off : Off), iomuxOff c p = some off → regAt c (c.bM + off.setWidth 32) = some (.mux p))

/-- R81 (decision D24): every legal write is idempotent: the same write again is legal and leaves every register as the
first left it. -/
def Obligations.WritesAreIdempotent : Prop :=
  ∀ (s t : State) (a w : Word), memWrite a w s = .ok t →
    ∃ u, memWrite a w t = .ok u ∧ u.out = t.out ∧ u.enable = t.enable ∧ u.inp = t.inp ∧ u.mux = t.mux

/-! ## RegisterAccess (40_register_access.md) -/

/-- R108: on a direct or read-only register `REG_READ` makes one read transaction and returns `Ok` with its value; on a
write-only or unmapped address it faults. -/
def Obligations.RegReadReturnsTheWord : Prop :=
  (∀ addr : Word, decode (.access (packAccess 1 addr 0)) = .instr (.regRead addr)) ∧
  ∀ (s : State) (addr : Word), s.Idle →
    (disc s.cfg addr = some .direct ∨ disc s.cfg addr = some .readOnly →
      ∃ (w : Word) (s' : State), memRead addr s = .ok (w, s') ∧
        exec (.regRead addr) s = .next (s'.logEvent (.result s.who { code := .ok, value := w })) ∧
        s'.log = s.log ++ [.txn s.who .read addr w] ∧ SameGpio s s' ∧ SameMux s s' ∧ SameRegistry s s' ∧
        SameWorld s s' ∧ s'.main = s.main ∧ s'.handlers = s.handlers) ∧
    (disc s.cfg addr = some .setOnly ∨ disc s.cfg addr = some .clearOnly ∨ disc s.cfg addr = none →
      exec (.regRead addr) s = .fault (.badAccess addr .read))

/-- R109: `SET_BITS` by the discipline of its address: on a set-only port one write of exactly `mask`; on a direct
register a read into `t` and, as a second step, a write of `t | mask`; elsewhere a refusal or a fault. -/
def Obligations.SetBitsByDiscipline : Prop :=
  (∀ addr mask : Word, decode (.access (packAccess 2 addr mask)) = .instr (.setBits addr mask)) ∧
  ∀ (s : State) (addr mask : Word),
    (disc s.cfg addr = some .setOnly → s.Idle →
      ∃ t, memWrite addr mask s = .ok t ∧ exec (.setBits addr mask) s = .next t) ∧
    (disc s.cfg addr = some .direct → s.Idle →
      ∃ (w : Word) (s' : State), memRead addr s = .ok (w, s') ∧
        exec (.setBits addr mask) s = .next ((s'.setT w).goOn (.setBits addr mask) 1)) ∧
    (disc s.cfg addr = some .direct → s.At (.setBits addr mask) 1 →
      ∃ t, memWrite addr (s.top.t ||| mask) s = .ok t ∧ exec (.setBits addr mask) s = .next t.finish) ∧
    (disc s.cfg addr = some .clearOnly ∨ disc s.cfg addr = some .readOnly → s.Idle →
      exec (.setBits addr mask) s = .refused (.misuse .setBits addr)) ∧
    (disc s.cfg addr = none → s.Idle → exec (.setBits addr mask) s = .fault (.badAccess addr .write))

/-- R110: `CLEAR_BITS` likewise: on a clear-only port one write of `mask` itself; on a direct register a read and a write
of `t & ~mask`; elsewhere a refusal or a fault. -/
def Obligations.ClearBitsByDiscipline : Prop :=
  (∀ addr mask : Word, decode (.access (packAccess 3 addr mask)) = .instr (.clearBits addr mask)) ∧
  ∀ (s : State) (addr mask : Word),
    (disc s.cfg addr = some .clearOnly → s.Idle →
      ∃ t, memWrite addr mask s = .ok t ∧ exec (.clearBits addr mask) s = .next t) ∧
    (disc s.cfg addr = some .direct → s.Idle →
      ∃ (w : Word) (s' : State), memRead addr s = .ok (w, s') ∧
        exec (.clearBits addr mask) s = .next ((s'.setT w).goOn (.clearBits addr mask) 1)) ∧
    (disc s.cfg addr = some .direct → s.At (.clearBits addr mask) 1 →
      ∃ t, memWrite addr (s.top.t &&& ~~~ mask) s = .ok t ∧ exec (.clearBits addr mask) s = .next t.finish) ∧
    (disc s.cfg addr = some .setOnly ∨ disc s.cfg addr = some .readOnly → s.Idle →
      exec (.clearBits addr mask) s = .refused (.misuse .clearBits addr)) ∧
    (disc s.cfg addr = none → s.Idle → exec (.clearBits addr mask) s = .fault (.badAccess addr .write))

/-- R109 to R111 on the IO-MUX: `SET_BITS` and `CLEAR_BITS` of a pin's register, run without preemption, set or clear in
its fields exactly the bits of the mask and change no other register. -/
def Obligations.MaskedUpdateOfAMuxRegister : Prop :=
  ∀ (s : State) (p : Pin) (mask : Word), s.cfg.wellFormed = true → muxValid s.cfg p = true → s.Idle →
    (∃ s₁ t, exec (.setBits (muxAddr s.cfg p) mask) s = .next s₁ ∧
      exec (.setBits (muxAddr s.cfg p) mask) s₁ = .next t ∧ t.Idle ∧
      t.muxAt p = muxFields s.cfg.muxf (muxWord s.cfg.muxf (s.muxAt p) 0 ||| mask) ∧
      SameMuxBut p s t ∧ SameGpio s t ∧ SameRegistry s t ∧ SameWorld s t ∧ SameContext s t) ∧
    (∃ s₁ t, exec (.clearBits (muxAddr s.cfg p) mask) s = .next s₁ ∧
      exec (.clearBits (muxAddr s.cfg p) mask) s₁ = .next t ∧ t.Idle ∧
      t.muxAt p = muxFields s.cfg.muxf (muxWord s.cfg.muxf (s.muxAt p) 0 &&& ~~~ mask) ∧
      SameMuxBut p s t ∧ SameGpio s t ∧ SameRegistry s t ∧ SameWorld s t ∧ SameContext s t)

/-- R184, the lost update: the write step of every read-modify-write of a direct register writes a value made from the
frame's `t` alone, whatever the register holds by then: `SET_BITS` and `CLEAR_BITS` on `OUT`, on `ENABLE` and on `MUX[p]`,
and on `MUX[p]` both write steps of `ENABLE_PULLUP`, of `ENABLE_PULLDOWN` and of `INIT`, and the four of
`CONFIG_INTERRUPTION`. -/
def Obligations.StaleTemporaryIsWrittenBack : Prop :=
  (∀ (s : State) (mask : Word),
    (s.At (.setBits (s.cfg.bG + 0x04) mask) 1 →
      ∃ t, exec (.setBits (s.cfg.bG + 0x04) mask) s = .next t ∧ t.out = s.top.t ||| mask) ∧
    (s.At (.clearBits (s.cfg.bG + 0x04) mask) 1 →
      ∃ t, exec (.clearBits (s.cfg.bG + 0x04) mask) s = .next t ∧ t.out = s.top.t &&& ~~~ mask) ∧
    (s.At (.setBits (s.cfg.bG + 0x20) mask) 1 →
      ∃ t, exec (.setBits (s.cfg.bG + 0x20) mask) s = .next t ∧ t.enable = s.top.t ||| mask) ∧
    (s.At (.clearBits (s.cfg.bG + 0x20) mask) 1 →
      ∃ t, exec (.clearBits (s.cfg.bG + 0x20) mask) s = .next t ∧ t.enable = s.top.t &&& ~~~ mask)) ∧
  ∀ (s : State) (p : Pin) (mask : Word) (arg : BitVec 4) (hid : Hid), s.cfg.wellFormed = true →
    muxValid s.cfg p = true →
    ∀ x ∈ [(Instr.setBits (muxAddr s.cfg p) mask, 1, muxFields s.cfg.muxf (s.top.t ||| mask)),
        (.clearBits (muxAddr s.cfg p) mask, 1, muxFields s.cfg.muxf (s.top.t &&& ~~~ mask)),
        (.enablePullup p, 2, { muxFields s.cfg.muxf s.top.t with pu := true }),
        (.enablePullup p, 4, { muxFields s.cfg.muxf s.top.t with pd := false }),
        (.enablePulldown p, 2, { muxFields s.cfg.muxf s.top.t with pd := true }),
        (.enablePulldown p, 4, { muxFields s.cfg.muxf s.top.t with pu := false }),
        (.init p arg, 3, muxFields s.cfg.muxf (s.top.t ||| gMask s.cfg)),
        (.init p arg, 5, muxFields s.cfg.muxf (s.top.t &&& ~~~ ngMask s.cfg)),
        (.configInterruption p arg hid, 3, muxFields s.cfg.muxf (s.top.t ||| gMask s.cfg)),
        (.configInterruption p arg hid, 5, muxFields s.cfg.muxf (s.top.t &&& ~~~ ngMask s.cfg)),
        (.configInterruption p arg hid, 7, { muxFields s.cfg.muxf s.top.t with pu := true }),
        (.configInterruption p arg hid, 9, { muxFields s.cfg.muxf s.top.t with pd := false })],
      s.At x.1 x.2.1 → ∃ t, exec x.1 s = .next t ∧ t.muxAt p = x.2.2

/-! ## PinRegistry (41_pin_registry.md) -/

/-- R116 and R118 (decision D29): `GPIO_BIT` answers the pin number itself for a pin that is a member of `VALID_PINS` and
at most 31, and `InvalidPin` otherwise; it changes nothing but `LOG`. -/
def Obligations.GpioBitAnswers : Prop :=
  ∀ (s : State) (p : Pin), s.Idle →
    (p ∈ s.cfg.validPins ∧ p.toNat ≤ 31 → exec (.gpioBit p) s =
      .next (s.logEvent (.result s.who { code := .ok, value := BitVec.ofNat 32 p.toNat }))) ∧
    (¬ (p ∈ s.cfg.validPins ∧ p.toNat ≤ 31) → exec (.gpioBit p) s =
      .next (s.logEvent (.result s.who { code := .invalidPin, value := 0 })))

/-- R117: `IOMUX_ADDR`, from its encoding, answers the address of the pin's IO-MUX register, whose discipline is direct, or
`InvalidPin` for a pin with none; it changes nothing but `LOG`. -/
def Obligations.IomuxAddrAnswers : Prop :=
  (∀ p : Pin, decode (.pin (packPin 0x2 p 0 0)) = .instr (.iomuxAddr p)) ∧
  ∀ (s : State) (p : Pin), s.Idle →
    (∀ off, iomuxOff s.cfg p = some off →
      exec (.iomuxAddr p) s =
        .next (s.logEvent (.result s.who { code := .ok, value := s.cfg.bM + off.setWidth 32 })) ∧
      (s.cfg.wellFormed = true → disc s.cfg (s.cfg.bM + off.setWidth 32) = some .direct)) ∧
    (iomuxOff s.cfg p = none →
      exec (.iomuxAddr p) s = .next (s.logEvent (.result s.who { code := .invalidPin, value := 0 })))

/-! ## Errors (60_exceptions.md section 1) -/

/-- R148: `InvalidMode` is code 1; `INIT` with an `arg` that is no `PinMode` and `WRITE` with an `arg` that is no `PinState`
end with it and record nothing but the result. -/
def Obligations.InvalidModeErrors : Prop :=
  codeBits .invalidMode = 1 ∧
  ∀ (s : State) (p : Pin) (arg : BitVec 4), 2 ≤ arg.toNat → s.Idle →
    (gpioValid s.cfg p = true → muxValid s.cfg p = true →
      exec (.init p arg) s = .next (s.logEvent (.result s.who { code := .invalidMode, value := 0 }))) ∧
    (gpioValid s.cfg p = true →
      exec (.write p arg) s = .next (s.logEvent (.result s.who { code := .invalidMode, value := 0 })))

/-- R149: `InvalidPin` is code 2; which operations raise it and when, recording nothing but the result, and that the pull
operations and `CONFIG_INTERRUPTION` never do. The pin error wins over the mode error (R154, decision D30). -/
def Obligations.InvalidPinErrors : Prop :=
  codeBits .invalidPin = 2 ∧
  (∀ (s : State) (p : Pin) (arg : BitVec 4), s.Idle → gpioValid s.cfg p = false →
    ∀ i ∈ [Instr.gpioBit p, .write p arg, .read p, .excludeInterruption p, .init p arg],
      exec i s = .next (s.logEvent (.result s.who { code := .invalidPin, value := 0 }))) ∧
  (∀ (s : State) (p : Pin) (arg : BitVec 4), s.Idle → muxValid s.cfg p = false →
    ∀ i ∈ [Instr.iomuxAddr p, .init p arg],
      exec i s = .next (s.logEvent (.result s.who { code := .invalidPin, value := 0 }))) ∧
  (∀ (s t : State) (p : Pin) (arg : BitVec 4) (hid : Hid),
    ∀ i ∈ [Instr.enablePullup p, .enablePulldown p, .configInterruption p arg hid], exec i s = .next t →
      ∃ es, t.log = s.log ++ es ∧ ∀ who v, .result who { code := .invalidPin, value := v } ∉ es)

/-! ## GpioController (42_gpio_controller.md) -/

/-- R120 (order of decision D31): the steps `i0` to `i5` of `INIT`, each at its label, with the state each leaves. -/
def Obligations.InitStepByStep : Prop :=
  ∀ (s : State) (p : Pin) (arg : BitVec 4) (i : Instr), i = .init p arg → s.cfg.wellFormed = true →
    gpioValid s.cfg p = true → muxValid s.cfg p = true → arg.toNat < 2 →
    (s.Idle → exec i s = .next (s.goOn i 1)) ∧
    (s.At i 1 → arg = 1 → exec i s = .next (({ s with enable := s.enable ||| 1#32 <<< p.toNat }.logEvent
      (.txn s.who .write (s.cfg.bG + 0x24) (1#32 <<< p.toNat))).goOn i 2)) ∧
    (s.At i 1 → arg = 0 → exec i s = .next (({ s with enable := s.enable &&& ~~~ (1#32 <<< p.toNat) }.logEvent
      (.txn s.who .write (s.cfg.bG + 0x28) (1#32 <<< p.toNat))).goOn i 2)) ∧
    (s.At i 2 → exec i s = .next ((afterMuxLoad s p).goOn i 3)) ∧
    (s.At i 3 → exec i s = .next ((afterMuxStore s p (s.top.t ||| gMask s.cfg)).goOn i 4)) ∧
    (s.At i 4 → exec i s = .next ((afterMuxLoad s p).goOn i 5)) ∧
    (s.At i 5 → exec i s = .next (ended (afterMuxStore s p (s.top.t &&& ~~~ ngMask s.cfg)) { code := .ok, value := 0 }))

/-- R121: `INIT` run without preemption returns `Ok` with `ENABLE[b]` as the mode asks and `FUN = FUN_GPIO` whatever the
field held; every other bit of `ENABLE`, every other field and register is unchanged, and the transactions are the five
of R106. -/
def Obligations.InitPostcondition : Prop :=
  ∀ (s : State) (p : Pin) (arg : BitVec 4), s.cfg.wellFormed = true → gpioValid s.cfg p = true →
    muxValid s.cfg p = true → arg.toNat < 2 → s.Idle →
    ∃ s₁ t, exec (.init p arg) s = .next s₁ ∧ Runs (.init p arg) 5 s₁ t ∧ t.Idle ∧
      (∀ b < 32, t.enable.getLsbD b = if b = p.toNat then decide (arg = 1) else s.enable.getLsbD b) ∧
      t.muxAt p = { s.muxAt p with func := s.cfg.funGpio } ∧ SameMuxBut p s t ∧
      t.out = s.out ∧ t.inp = s.inp ∧ SameRegistry s t ∧ SameWorld s t ∧ SameContext s t ∧
      ∃ es, t.log = s.log ++ es ++ [.result s.who { code := .ok, value := 0 }] ∧
        es.map txnOf = some (.write, s.cfg.bG + if arg = 1 then 0x24 else 0x28) :: twoRmws (muxAddr s.cfg p)

/-- R122: `WRITE`, from its encoding: the pin check and the state check, then one write of the pin's mask to `OUT_SET` for
`High`, to `OUT_CLEAR` for `Low`, and `Ok`; at each step the state it leaves, whole. -/
def Obligations.WriteSetsTheLevel : Prop :=
  (∀ (p : Pin) (arg : BitVec 4), decode (.pin (packPin 0x4 p arg 0)) = .instr (.write p arg)) ∧
  ∀ (s : State) (p : Pin) (arg : BitVec 4),
    (s.Idle → gpioValid s.cfg p = false →
      exec (.write p arg) s = .next (s.logEvent (.result s.who { code := .invalidPin, value := 0 }))) ∧
    (s.Idle → gpioValid s.cfg p = true → 2 ≤ arg.toNat →
      exec (.write p arg) s = .next (s.logEvent (.result s.who { code := .invalidMode, value := 0 }))) ∧
    (s.Idle → gpioValid s.cfg p = true → arg.toNat < 2 → exec (.write p arg) s = .next (s.goOn (.write p arg) 1)) ∧
    (s.At (.write p arg) 1 → arg = 1 → exec (.write p arg) s =
      .next (ended ({ s with out := s.out ||| 1#32 <<< p.toNat }.logEvent
        (.txn s.who .write (s.cfg.bG + 0x08) (1#32 <<< p.toNat))) { code := .ok, value := 0 })) ∧
    (s.At (.write p arg) 1 → arg = 0 → exec (.write p arg) s =
      .next (ended ({ s with out := s.out &&& ~~~ (1#32 <<< p.toNat) }.logEvent
        (.txn s.who .write (s.cfg.bG + 0x0C) (1#32 <<< p.toNat))) { code := .ok, value := 0 }))

/-- R123: after `WRITE`'s write step, whatever other contexts did before it, bit `b` of `OUT` has the written level and no
other bit of `OUT` was changed by it; nor was any other register. -/
def Obligations.WriteTouchesOnlyItsBit : Prop :=
  ∀ (s : State) (p : Pin) (arg : BitVec 4), gpioValid s.cfg p = true → arg.toNat < 2 → s.At (.write p arg) 1 →
    ∃ t, exec (.write p arg) s = .next t ∧
      (∀ b < 32, t.out.getLsbD b = if b = p.toNat then decide (arg = 1) else s.out.getLsbD b) ∧
      t.enable = s.enable ∧ t.inp = s.inp ∧ SameMux s t ∧ SameRegistry s t ∧ SameWorld s t ∧ SameContext s t

/-- R124: `READ` reads `ENABLE` into `e`, then `OUT` or `IN` into `v` as bit `b` of `e` says, and returns that bit of `v`; it
changes nothing but the temporaries and `LOG`. -/
def Obligations.ReadStepByStep : Prop :=
  ∀ (s : State) (p : Pin), gpioValid s.cfg p = true →
    (s.Idle → exec (.read p) s = .next (s.goOn (.read p) 1)) ∧
    (s.At (.read p) 1 → exec (.read p) s =
      .next (((s.logEvent (.txn s.who .read (s.cfg.bG + 0x20) s.enable)).setE s.enable).goOn (.read p) 2)) ∧
    (s.At (.read p) 2 → s.top.e.getLsbD p.toNat = true → exec (.read p) s =
      .next (ended ((s.logEvent (.txn s.who .read (s.cfg.bG + 0x04) s.out)).setV s.out)
        { code := .ok, value := if s.out.getLsbD p.toNat then 1 else 0 })) ∧
    (s.At (.read p) 2 → s.top.e.getLsbD p.toNat = false → exec (.read p) s =
      .next (ended ((s.logEvent (.txn s.who .read (s.cfg.bG + 0x3C) s.inp)).setV s.inp)
        { code := .ok, value := if s.inp.getLsbD p.toNat then 1 else 0 }))

/-- R125: run without preemption, `READ` of an output pin returns `OUT[b]` and its transactions read `ENABLE` and `OUT` only;
of an input pin it returns `IN[b]`. -/
def Obligations.ReadReturnsDrivenOrSensedLevel : Prop :=
  ∀ (s : State) (p : Pin), gpioValid s.cfg p = true → s.Idle →
    ∃ s₁ t, exec (.read p) s = .next s₁ ∧ Runs (.read p) 2 s₁ t ∧ t.Idle ∧
      SameGpio s t ∧ SameMux s t ∧ SameRegistry s t ∧ SameWorld s t ∧ SameContext s t ∧
      t.log = s.log ++ (if s.enable.getLsbD p.toNat
        then [.txn s.who .read (s.cfg.bG + 0x20) s.enable, .txn s.who .read (s.cfg.bG + 0x04) s.out,
          .result s.who { code := .ok, value := if s.out.getLsbD p.toNat then 1 else 0 }]
        else [.txn s.who .read (s.cfg.bG + 0x20) s.enable, .txn s.who .read (s.cfg.bG + 0x3C) s.inp,
          .result s.who { code := .ok, value := if s.inp.getLsbD p.toNat then 1 else 0 }])

/-- R126: for every valid pin, `INIT p, Output`, then `WRITE p, st`, then `READ p`, run without preemption, end with `READ`
returning the level written. -/
def Obligations.OutputRoundTrip : Prop :=
  ∀ (s : State) (p : Pin) (st : BitVec 4), s.cfg.wellFormed = true → gpioValid s.cfg p = true →
    muxValid s.cfg p = true → st.toNat < 2 → s.Idle →
    ∃ s₁ s₂ t, Runs (.init p 1) 6 s s₁ ∧ Runs (.write p st) 2 s₁ s₂ ∧ Runs (.read p) 3 s₂ t ∧
      t.log.getLast? = some (.result s.who { code := .ok, value := st.setWidth 32 })

/-! ## IoMuxController (43_iomux_controller.md) -/

/-- R128 and R129: the two pull operations, from their encodings: the check, which faults on a pin with no IO-MUX register,
then set the target bit, then clear the opposing bit, four transactions, and no result; at each step the state it leaves,
whole. -/
def Obligations.PullStepByStep : Prop :=
  (∀ p : Pin, decode (.pin (packPin 0x6 p 0 0)) = .instr (.enablePullup p) ∧
    decode (.pin (packPin 0x7 p 0 0)) = .instr (.enablePulldown p)) ∧
  ∀ (s : State) (p : Pin), s.cfg.wellFormed = true →
    ∀ x ∈ [(Instr.enablePullup p, puMask s.cfg, pdMask s.cfg), (Instr.enablePulldown p, pdMask s.cfg, puMask s.cfg)],
      (s.Idle → muxValid s.cfg p = false → exec x.1 s = .fault (.uncheckedPin p)) ∧
      (muxValid s.cfg p = true →
        (s.Idle → exec x.1 s = .next (s.goOn x.1 1)) ∧
        (s.At x.1 1 → exec x.1 s = .next ((afterMuxLoad s p).goOn x.1 2)) ∧
        (s.At x.1 2 → exec x.1 s = .next ((afterMuxStore s p (s.top.t ||| x.2.1)).goOn x.1 3)) ∧
        (s.At x.1 3 → exec x.1 s = .next ((afterMuxLoad s p).goOn x.1 4)) ∧
        (s.At x.1 4 → exec x.1 s = .next (afterMuxStore s p (s.top.t &&& ~~~ x.2.2)).finish))

/-- R133 with the frame of R127: run without preemption, `ENABLE_PULLUP` leaves `PU = 1, PD = 0` and `ENABLE_PULLDOWN` leaves
`PU = 0, PD = 1`, whatever the prior values, with no other field or register changed, no result, and four transactions. -/
def Obligations.PullsAreExclusiveAfterwards : Prop :=
  ∀ (s : State) (p : Pin), s.cfg.wellFormed = true → muxValid s.cfg p = true → s.Idle →
    (∃ s₁ t, exec (.enablePullup p) s = .next s₁ ∧ Runs (.enablePullup p) 4 s₁ t ∧ t.Idle ∧
      t.muxAt p = { s.muxAt p with pu := true, pd := false } ∧ SameMuxBut p s t ∧ SameGpio s t ∧
      SameRegistry s t ∧ SameWorld s t ∧ SameContext s t ∧
      ∃ es, t.log = s.log ++ es ∧ es.map txnOf = twoRmws (muxAddr s.cfg p)) ∧
    (∃ s₁ t, exec (.enablePulldown p) s = .next s₁ ∧ Runs (.enablePulldown p) 4 s₁ t ∧ t.Idle ∧
      t.muxAt p = { s.muxAt p with pu := false, pd := true } ∧ SameMuxBut p s t ∧ SameGpio s t ∧
      SameRegistry s t ∧ SameWorld s t ∧ SameContext s t ∧
      ∃ es, t.log = s.log ++ es ∧ es.map txnOf = twoRmws (muxAddr s.cfg p))

/-! ## InterruptBinding (44_interrupt_binding.md) -/

/-- R136 (order of decision D33): the steps `c0` to `c12` of `CONFIG_INTERRUPTION` that succeed, each at its label, with the
state each leaves. -/
def Obligations.ConfigStepByStep : Prop :=
  ∀ (s : State) (p : Pin) (arg : BitVec 4) (hid : Hid) (i : Instr), i = .configInterruption p arg hid →
    s.cfg.wellFormed = true → gpioValid s.cfg p = true → muxValid s.cfg p = true →
    (s.Idle → (s.bindAt p).state = .unbound →
      exec i s = .next ((s.setBind p { s.bindAt p with state := .configuring }).goOn i 1)) ∧
    (s.At i 1 → exec i s = .next (({ s with enable := s.enable &&& ~~~ (1#32 <<< p.toNat) }.logEvent
      (.txn s.who .write (s.cfg.bG + 0x28) (1#32 <<< p.toNat))).goOn i 2)) ∧
    (∀ k, k = 2 ∨ k = 4 ∨ k = 6 ∨ k = 8 → s.At i k → exec i s = .next ((afterMuxLoad s p).goOn i (k + 1))) ∧
    (s.At i 3 → exec i s = .next ((afterMuxStore s p (s.top.t ||| gMask s.cfg)).goOn i 4)) ∧
    (s.At i 5 → exec i s = .next ((afterMuxStore s p (s.top.t &&& ~~~ ngMask s.cfg)).goOn i 6)) ∧
    (s.At i 7 → exec i s = .next ((afterMuxStore s p (s.top.t ||| puMask s.cfg)).goOn i 8)) ∧
    (s.At i 9 → exec i s = .next ((afterMuxStore s p (s.top.t &&& ~~~ pdMask s.cfg)).goOn i 10)) ∧
    (s.At i 10 → arg = 1 →
      exec i s = .next ((s.setBind p { s.bindAt p with edge := some .rising }).goOn i 11)) ∧
    (s.At i 10 → arg = 2 →
      exec i s = .next ((s.setBind p { s.bindAt p with edge := some .falling }).goOn i 11)) ∧
    (s.At i 11 → s.svc = false → (askIntCtl s).1 = true →
      exec i s = .next ({ (askIntCtl s).2 with svc := true }.goOn i 12)) ∧
    (s.At i 12 → (askIntCtl s).1 = true →
      exec i s = .next (ended (((askIntCtl s).2.setBind p
        { s.bindAt p with state := .bound, handler := some hid }).setPend p false) { code := .ok, value := 0 }))

/-- R137 (decision D33): a failure at `c10`, `c11` or `c12` returns `ConfigurationFailure` and leaves the pin `Unbound`, and
rolls nothing else back. -/
def Obligations.ConfigFailureLeavesUnbound : Prop :=
  ∀ (s : State) (p : Pin) (arg : BitVec 4) (hid : Hid) (i : Instr), i = .configInterruption p arg hid →
    gpioValid s.cfg p = true →
    ((s.At i 10 ∧ arg ≠ 1 ∧ arg ≠ 2) ∨ (s.At i 11 ∧ s.svc = false ∧ (askIntCtl s).1 = false) ∨
      (s.At i 12 ∧ (askIntCtl s).1 = false)) →
    ∃ t, exec i s = .next t ∧ t.Idle ∧ t.bindAt p = { s.bindAt p with state := .unbound } ∧
      t.log = s.log ++ [.result s.who { code := .configurationFailure, value := 0 }] ∧
      SameGpio s t ∧ SameMux s t ∧ t.svc = s.svc ∧ t.irqEn = s.irqEn ∧ t.pend = s.pend ∧ SameBindingsBut p s t ∧
      t.cfg = s.cfg ∧ t.ext = s.ext ∧ SameContext s t

/-- R138 (decision D34) and R150: `CONFIG_INTERRUPTION` on a pin that is not `Unbound`, or not valid, returns
`ConfigurationFailure` (code 3) at its first step and changes nothing but `LOG`. -/
def Obligations.ConfigRejects : Prop :=
  codeBits .configurationFailure = 3 ∧
  ∀ (s : State) (p : Pin) (arg : BitVec 4) (hid : Hid), s.Idle →
    ((s.bindAt p).state ≠ .unbound ∨ gpioValid s.cfg p = false ∨ muxValid s.cfg p = false) →
    exec (.configInterruption p arg hid) s =
      .next (s.logEvent (.result s.who { code := .configurationFailure, value := 0 }))

/-- R136, run whole without preemption with `IntCtl` answering `true`: the pin ends an input with its pull-up on, routed to
GPIO, and bound with the edge and the handler asked for; nine transactions; result `Ok`; no other pin changed. -/
def Obligations.ConfigBindsThePin : Prop :=
  ∀ (s : State) (p : Pin) (arg : BitVec 4) (hid : Hid) (rest : List Bool), s.cfg.wellFormed = true →
    gpioValid s.cfg p = true → muxValid s.cfg p = true → arg = 1 ∨ arg = 2 → s.Idle →
    (s.bindAt p).state = .unbound → s.inputs.answers = true :: true :: rest →
    ∃ s₁ t, exec (.configInterruption p arg hid) s = .next s₁ ∧ Runs (.configInterruption p arg hid) 12 s₁ t ∧
      t.Idle ∧
      t.bindAt p = { state := .bound, edge := some (if arg = 1 then .rising else .falling), handler := some hid } ∧
      t.pendAt p = false ∧ t.svc = true ∧ t.irqEn = s.irqEn ∧ SameBindingsBut p s t ∧
      (∀ b < 32, t.enable.getLsbD b = (decide (b ≠ p.toNat) && s.enable.getLsbD b)) ∧
      t.out = s.out ∧ t.inp = s.inp ∧
      t.muxAt p = { s.muxAt p with func := s.cfg.funGpio, pu := true, pd := false } ∧ SameMuxBut p s t ∧
      t.cfg = s.cfg ∧ t.ext = s.ext ∧ t.inputs.sched = s.inputs.sched ∧ SameContext s t ∧
      ∃ es, t.log = s.log ++ es ++ [.result s.who { code := .ok, value := 0 }] ∧
        es.map txnOf =
          some (.write, s.cfg.bG + 0x28) :: (twoRmws (muxAddr s.cfg p) ++ twoRmws (muxAddr s.cfg p))

/-- R145: with the service installed, step `c11` asks nothing, cannot fail and only goes on; and no operation uninstalls the
service. -/
def Obligations.ServiceInstallIsIdempotent : Prop :=
  (∀ (s : State) (p : Pin) (arg : BitVec 4) (hid : Hid), s.At (.configInterruption p arg hid) 11 → s.svc = true →
    exec (.configInterruption p arg hid) s = .next (s.goOn (.configInterruption p arg hid) 12)) ∧
  ∀ (i : Instr) (s t : State), exec i s = .next t → s.svc = true → t.svc = true

/-- R139 and R140 (decision D35): `EXCLUDE_INTERRUPTION` of a valid pin, in one step: of a bound pin, its handler and its
pending edge are dropped and it is `Unbound`, its edge type kept; of any other, nothing changes; `Ok` either way. -/
def Obligations.ExcludeDetaches : Prop :=
  ∀ (s : State) (p : Pin), gpioValid s.cfg p = true → s.Idle →
    ((s.bindAt p).state = .bound → exec (.excludeInterruption p) s =
      .next (((s.setBind p { state := .unbound, edge := (s.bindAt p).edge, handler := none }).setPend p false).logEvent
        (.result s.who { code := .ok, value := 0 }))) ∧
    ((s.bindAt p).state ≠ .bound → exec (.excludeInterruption p) s =
      .next (s.logEvent (.result s.who { code := .ok, value := 0 })))

/-- R141: when `EXCLUDE_INTERRUPTION` returns, the pin is not bound and the handlers already running go on; and in any
state in which a pin is not bound, its dispatch is not enabled and no edge of its pad is latched or binds it. -/
def Obligations.ExcludeTakesEffectAtOnce : Prop :=
  (∀ (s : State) (p : Pin), gpioValid s.cfg p = true → s.Idle →
    ∃ t, exec (.excludeInterruption p) s = .next t ∧ (t.bindAt p).state ≠ .bound ∧ t.handlers = s.handlers) ∧
  ∀ (u : State) (p : Pin), (u.bindAt p).state ≠ .bound →
    dispatchable u p = none ∧
      ∀ lvl, (padLevel p lvl u).pendAt p = u.pendAt p ∧ (padLevel p lvl u).bindAt p = u.bindAt p

/-- R142 and R143 (decision D19): `IRQ_DISABLE` clears `IRQ_EN` and `IRQ_ENABLE` sets it, whatever it was, and nothing else
changes. -/
def Obligations.IrqFlagOperations : Prop :=
  ∀ s : State, s.Idle →
    exec .irqDisable s = .next { s with irqEn := false } ∧ exec .irqEnable s = .next { s with irqEn := true }

/-- R144 (decision D3): `HRET` pops the top handler frame, logs the return and leaves everything else, the frame below
included; in the main context it is refused. -/
def Obligations.HretReturns : Prop :=
  ∀ s : State,
    (∀ h hs, s.handlers = h :: hs →
      exec .hret s = .next ({ s with handlers := hs }.logEvent (.ret h.hid h.pin))) ∧
    (s.handlers = [] → exec .hret s = .refused .noHandler)

/-! ## Events and dispatch (60_exceptions.md) -/

/-- R160 (decision D20): a `PAD_DRIVE` taken from the list of choices (the model's, log entry 4), on a pin with a pad (log
entry 30), sets `EXT[p]`, is logged, and changes nothing else. On another pin it does not happen, and its choice is used
up (log entry 4). -/
def Obligations.PadDriveSetsExt : Prop :=
  ∀ (s : State) (p : Pin) (d : Drive) (rest : List Choice), s.inputs.sched = .padDrive p d :: rest →
    (p.toNat ≤ min s.cfg.pinMax 31 →
      ∃ t, step s = .next t ∧ (∀ q, t.extAt q = if q = p then d else s.extAt q) ∧ t.log = s.log ++ [.padDrive p d] ∧
        SameGpio s t ∧ SameMux s t ∧ SameRegistry s t ∧ t.cfg = s.cfg ∧ t.main = s.main ∧ t.handlers = s.handlers ∧
        t.inputs = { s.inputs with sched := rest }) ∧
    (¬ p.toNat ≤ min s.cfg.pinMax 31 → step s = .next { s with inputs := { s.inputs with sched := rest } })

/-- R161 with the edge match of R159 (decision D18): a `PAD_LEVEL` taken from the list of choices (the model's, log entry 4)
is admissible exactly for a pin with a pad (log entry 30) and a level in `Sense(p)`. Admissible, it samples the level into
`IN[p]` and sets `PEND[p]` exactly if the pin is bound and the change is the edge programmed; nothing else changes. Not
admissible, it does not happen, and its choice is used up (log entry 4). -/
def Obligations.PadLevelSamplesAndLatches : Prop :=
  ∀ (s : State) (p : Pin) (lvl : Bool) (rest : List Choice), s.inputs.sched = .padLevel p lvl :: rest →
    (p.toNat ≤ min s.cfg.pinMax 31 ∧ sensed s p lvl = true →
      ∃ t, step s = .next t ∧
        (∀ b < 32, t.inp.getLsbD b = if b = p.toNat then lvl else s.inp.getLsbD b) ∧
        (t.pendAt p = true ↔ s.pendAt p = true ∨ ((s.bindAt p).state = .bound ∧
          (((s.bindAt p).edge = some .rising ∧ s.inp.getLsbD p.toNat = false ∧ lvl = true) ∨
            ((s.bindAt p).edge = some .falling ∧ s.inp.getLsbD p.toNat = true ∧ lvl = false)))) ∧
        (∀ q, q ≠ p → t.pendAt q = s.pendAt q) ∧ t.log = s.log ++ [.padLevel p lvl] ∧
        t.out = s.out ∧ t.enable = s.enable ∧ SameMux s t ∧ t.bind = s.bind ∧ t.svc = s.svc ∧ t.irqEn = s.irqEn ∧
        t.cfg = s.cfg ∧ t.ext = s.ext ∧ t.main = s.main ∧ t.handlers = s.handlers ∧
        t.inputs = { s.inputs with sched := rest }) ∧
    (¬ (p.toNat ≤ min s.cfg.pinMax 31 ∧ sensed s p lvl = true) →
      step s = .next { s with inputs := { s.inputs with sched := rest } })

/-- R162: a `PAD_LEVEL` at the level `IN[p]` already has changes nothing and latches nothing; only the event is logged. -/
def Obligations.PadLevelAtTheSameLevel : Prop :=
  ∀ (s : State) (p : Pin) (lvl : Bool), p.toNat < 32 → s.inp.getLsbD p.toNat = lvl →
    padLevel p lvl s = s.logEvent (.padLevel p lvl)

/-- R163 (decision D20; that a pull-up gives 1 and a pull-down 0 is the spec's general knowledge, log entry 20): the levels
a pad may be sampled at, by the first case that applies. -/
def Obligations.SenseTable : Prop :=
  ∀ (s : State) (p : Pin),
    (s.enable.getLsbD p.toNat = true → ∀ lvl, sensed s p lvl = true) ∧
    (s.enable.getLsbD p.toNat = false →
      (s.extAt p = .h → ∀ lvl, sensed s p lvl = lvl) ∧
      (s.extAt p = .l → ∀ lvl, sensed s p lvl = !lvl) ∧
      (s.extAt p = .z → muxValid s.cfg p = true → hasPull s.cfg p = true →
        ((s.muxAt p).pu = true → (s.muxAt p).pd = false → ∀ lvl, sensed s p lvl = lvl) ∧
        ((s.muxAt p).pu = false → (s.muxAt p).pd = true → ∀ lvl, sensed s p lvl = !lvl) ∧
        ((s.muxAt p).pu = (s.muxAt p).pd → ∀ lvl, sensed s p lvl = true)) ∧
      (s.extAt p = .z → (muxValid s.cfg p = false ∨ hasPull s.cfg p = false) → ∀ lvl, sensed s p lvl = true))

/-- R165 and R166 (decisions D18, D3): a listed `DISPATCH(p)` of a pin with a handler is taken exactly if the pin is pending
and bound, `IRQ_EN = 1` and fewer than `MAX_NEST` handler frames are stacked; it clears the pending bit, logs the
invocation and pushes the handler's frame above the preempted one, which it leaves as it is, and changes nothing else. The
new frame has the handler's body as its program and no request in progress; that its temporaries are 0 is the model's
choice (log entry 12), since R51 leaves them unspecified. Not enabled, the dispatch does not happen (log entry 4). -/
def Obligations.DispatchInvokesTheHandler : Prop :=
  ∀ (s : State) (p : Pin) (hid : Hid) (rest : List Choice), s.inputs.sched = .dispatch p :: rest →
    (s.bindAt p).handler = some hid → p.toNat < 32 →
    (s.pendAt p = true ∧ (s.bindAt p).state = .bound ∧ s.irqEn = true ∧
        (∀ n, s.cfg.maxNest = some n → s.handlers.length < n) →
      ∃ t, step s = .next t ∧ t.pendAt p = false ∧ (∀ q, q ≠ p → t.pendAt q = s.pendAt q) ∧
        t.log = s.log ++ [.invoke hid p] ∧ t.main = s.main ∧
        t.handlers = { hid := hid, pin := p, frame := Frame.idle (handlerBody s.cfg hid p) } :: s.handlers ∧
        SameGpio s t ∧ SameMux s t ∧ t.bind = s.bind ∧ t.svc = s.svc ∧ t.irqEn = s.irqEn ∧ t.cfg = s.cfg ∧
        t.ext = s.ext ∧ t.inputs = { s.inputs with sched := rest }) ∧
    (¬ (s.pendAt p = true ∧ (s.bindAt p).state = .bound ∧ s.irqEn = true ∧
        (∀ n, s.cfg.maxNest = some n → s.handlers.length < n)) →
      step s = .next { s with inputs := { s.inputs with sched := rest } })

/-- R166, R169 and R144: a handler invoked on `p`, then run for any number of steps, of its own body and of any agent and
deeper handler between them, until a step returns from it: that step logs the return, and every frame stands as it stood
at the invocation, mid-operation or not. Returned from at once, `IRQ_EN` too is as it was. -/
def Obligations.PreemptedFrameResumesIntact : Prop :=
  (∀ (s : State) (p : Pin) (hid : Hid) (n : Nat) (u t : State),
    StepsAbove s.handlers.length n (takeInterrupt p hid s) u → step u = .next t →
    t.handlers.length ≤ s.handlers.length →
    t.main = s.main ∧ t.handlers = s.handlers ∧ t.top = s.top ∧
    ∃ es, t.log = s.log ++ .invoke hid p :: es ++ [.ret hid p]) ∧
  ∀ (s : State) (p : Pin) (hid : Hid), ∃ t, exec .hret (takeInterrupt p hid s) = .next t ∧
    t.main = s.main ∧ t.handlers = s.handlers ∧ t.top = s.top ∧ t.irqEn = s.irqEn ∧
    t.log = s.log ++ [.invoke hid p, .ret hid p]

/-- R146 (a): a pin bound to the falling edge with nothing pending: a falling edge sampled enables its dispatch, which logs
one invocation of its handler with the pin, after which its dispatch is enabled no more; a rising edge enables none. -/
def Obligations.FallingEdgeInvokesOnce : Prop :=
  ∀ (s : State) (p : Pin) (hid : Hid), p.toNat < 32 →
    s.bindAt p = { state := .bound, edge := some .falling, handler := some hid } → s.pendAt p = false →
    s.irqEn = true → nestingAllowed s = true →
    (s.inp.getLsbD p.toNat = true → dispatchable (padLevel p false s) p = some hid ∧
      (offerDispatch p (padLevel p false s)).log = s.log ++ [.padLevel p false, .invoke hid p] ∧
      dispatchable (offerDispatch p (padLevel p false s)) p = none) ∧
    (s.inp.getLsbD p.toNat = false → dispatchable (padLevel p true s) p = none)

/-- R192 with R171 (decision D19): while `IRQ_EN = 0` no dispatch is enabled, and a step pushes no handler frame, logs no
invocation and keeps every pending edge, but for the pin that `EXCLUDE_INTERRUPTION` detaches or `CONFIG_INTERRUPTION`
attaches in that step; and the `IRQ_ENABLE` that ends the section enables the dispatch of each pin pending and bound, up
to the nesting limit. -/
def Obligations.CriticalSectionDefers : Prop :=
  (∀ s : State, s.irqEn = false →
    (∀ p, dispatchable s p = none) ∧
    ∀ t, step s = .next t → t.handlers.length ≤ s.handlers.length ∧ (∀ hid p, .invoke hid p ∉ t.log.drop s.log.length) ∧
      ∀ p, s.pendAt p = true → t.pendAt p = true ∨ s.Stepping (.excludeInterruption p) ∨
        ∃ arg hid, s.At (.configInterruption p arg hid) 12) ∧
  ∀ s : State, s.Idle → nestingAllowed s = true → ∃ t, exec .irqEnable s = .next t ∧
    ∀ p hid, s.pendAt p = true → (s.bindAt p).state = .bound → (s.bindAt p).handler = some hid →
      dispatchable t p = some hid

/-! ## The step (10_state.md section 6, 70_reset_and_hazards.md) -/

/-- R39 (decision D3): with no choice listed, or `run` listed first (log entries 4 and 5), a step of a frame with no request
in progress fetches its next request and takes it from the program. It is `exec` of the instruction the request decodes
to; of a B-format word on the GPIO block that no row of the table names, it is the transaction at `B_G + off`, as what
stands there answers it (R88, R64, R65, R103; log entry 22). -/
def Obligations.StepRunsTheDecodedInstr : Prop :=
  (∀ (s : State) (r : Request) (rest : List Request) (i : Instr), s.Idle → s.top.prog = r :: rest →
    decode r = .instr i →
    (s.inputs.sched = [] → step s = exec i (s.setTop { s.top with prog := rest })) ∧
    (∀ cs, s.inputs.sched = .run :: cs →
      step s = exec i ({ s with inputs := { s.inputs with sched := cs } }.setTop { s.top with prog := rest }))) ∧
  ∀ (s s₀ s₁ : State) (rest : List Request) (off : Off) (d a : Word), s.Idle → FrameMoves s s₀ →
    s₁ = s₀.setTop { s.top with prog := rest } → a = s.cfg.bG + off.setWidth 32 →
    (s.top.prog = .bus (packBus 0 0 off d) :: rest → off ∉ [(0x04 : Off), 0x20, 0x3C] →
      (∀ w t, memRead a s₁ = .ok (w, t) → step s = .next t) ∧ (∀ f, memRead a s₁ = .error f → step s = .fault f)) ∧
    (s.top.prog = .bus (packBus 1 0 off d) :: rest → off ∉ [(0x04 : Off), 0x08, 0x0C, 0x20, 0x24, 0x28] →
      (∀ t, memWrite a d s₁ = .ok t → step s = .next t) ∧ (∀ f, memWrite a d s₁ = .error f → step s = .fault f))

/-- R39 (decision D3): with a request in progress, and no choice or `run` listed (log entries 4 and 5), the step of the
running frame is `exec` of that request. -/
def Obligations.StepContinuesTheRequest : Prop :=
  ∀ (s : State) (i : Instr) (k : Nat), s.At i k →
    (s.inputs.sched = [] → step s = exec i s) ∧
    (∀ cs, s.inputs.sched = .run :: cs → step s = exec i { s with inputs := { s.inputs with sched := cs } })

/-- R102: the step that fetches a reserved word refuses it, naming the word. -/
def Obligations.ReservedWordIsRefused : Prop :=
  ∀ (s : State) (r : Request) (rest : List Request), s.inputs.sched = [] → s.Idle → s.top.prog = r :: rest →
    r.wellFormed = false → step s = .refused (.reservedOp r)

/-- R194 with log entry 6 (the model's choice): a run that is over stays as it is, for as long as no event is listed. -/
def Obligations.RunOverStaysOver : Prop :=
  ∀ s : State, RunOver s → s.inputs.sched = [] → step s = .next s

/-! ## The whole machine -/

/-- R25 (what `IE` does not gate is decision D16): no request changes `IN`, and a step changes it only by a listed
`PAD_LEVEL`. -/
def Obligations.InChangesOnlyByPadLevel : Prop :=
  (∀ (i : Instr) (s t : State), exec i s = .next t → t.inp = s.inp) ∧
  (∀ s t : State, step s = .next t → t.inp ≠ s.inp →
    ∃ p lvl rest, s.inputs.sched = .padLevel p lvl :: rest ∧ t.inp = putBit s.inp p.toNat lvl)

/-- R23 and R24: a step, of whatever agent, changes `OUT` only by a logged write to `OUT`, `OUT_SET` or `OUT_CLEAR`, and
`ENABLE` only by one to `ENABLE`, `ENABLE_SET` or `ENABLE_CLEAR`. -/
def Obligations.OutAndEnableHaveThreeWritersEach : Prop :=
  ∀ s t : State, step s = .next t →
    (t.out ≠ s.out → ∃ w, ∃ off ∈ [(0x04 : Word), 0x08, 0x0C],
      .txn s.who .write (s.cfg.bG + off) w ∈ t.log.drop s.log.length) ∧
    (t.enable ≠ s.enable → ∃ w, ∃ off ∈ [(0x20 : Word), 0x24, 0x28],
      .txn s.who .write (s.cfg.bG + off) w ∈ t.log.drop s.log.length)

/-- R39, R40 and R166 (decision D3): a step changes the running frame alone, or puts one frame above it, or removes it: no
frame's request, label or temporaries are changed by another frame. -/
def Obligations.OtherFramesAreUntouched : Prop :=
  ∀ s t : State, step s = .next t →
    (∃ f, t.frames = f :: s.frames.tail) ∨ (∃ f, t.frames = f :: s.frames) ∨ t.frames = s.frames.tail

/-- R42 and R80: a step only appends to `LOG`, and at most one of the events it appends is a bus transaction. -/
def Obligations.LogOnlyGrows : Prop :=
  ∀ s t : State, step s = .next t →
    ∃ es, t.log = s.log ++ es ∧ (es.filter (fun ev => (txnOf ev).isSome)).length ≤ 1

/-- R43 and R114: no step changes the parameters, so neither the address map nor the pin registry changes. -/
def Obligations.ParametersNeverChange : Prop := ∀ s t : State, step s = .next t → t.cfg = s.cfg

/-- R47 to R51, R179: after reset no pin is bound and none is pending, the service is not installed, handler invocation is
enabled, the main frame stands alone with no request in progress, and `LOG` is empty. -/
def Obligations.ResetState : Prop :=
  (∀ p, State.reset.bindAt p = { state := .unbound, edge := none, handler := none }) ∧
  (∀ p, State.reset.pendAt p = false) ∧ State.reset.svc = false ∧ State.reset.irqEn = true ∧
  State.reset.handlers = [] ∧ State.reset.main.cur = none ∧ State.reset.log = []

/-- The invariant holds after reset (R33, R47 to R51). -/
def Obligations.ResetSatisfiesTheInv : Prop := Inv State.reset

/-- R33 with R14, R39 and R138: every step, of whatever agent, keeps the invariant of the block. -/
def Obligations.EveryStepKeepsTheInv : Prop := ∀ s t : State, Inv s → step s = .next t → Inv t

/-- R153: only the first step of a request can fault or be refused: under the invariant, a request in progress always
answers a next state. -/
def Obligations.RequestOnceBegunNeverStops : Prop :=
  ∀ (s : State) (i : Instr) (k : Nat), Inv s → s.At i k → ∃ t, exec i s = .next t
end

