-- ==== Sys2Proof/Laws/AddressMap.lean ====
section
/-! SUPPORT. The address map of a well-formed configuration: which register stands at each address the operations form (R55
to R57, R111). -/

namespace Sys2Proof.Machine

theorem gpioAddr_sub (c : Config) (off : Word) : gpioAddr c off - c.bG = off := by
  rw [gpioAddr, BitVec.add_comm, BitVec.add_sub_cancel]

/-- A GPIO address names the register of its offset, in every configuration (R55). -/
theorem regAt_gpioAddr (c : Config) {off : Word} {r : Reg} (h : gpioReg off = some r) :
    regAt c (gpioAddr c off) = some r := by
  simp [regAt, gpioAddr_sub, h]

@[simp] theorem regAt_out (c : Config) : regAt c (gpioAddr c 0x04) = some .out := regAt_gpioAddr c (by decide)
@[simp] theorem regAt_outSet (c : Config) : regAt c (gpioAddr c 0x08) = some .outSet := regAt_gpioAddr c (by decide)
@[simp] theorem regAt_outClear (c : Config) : regAt c (gpioAddr c 0x0C) = some .outClear := regAt_gpioAddr c (by decide)
@[simp] theorem regAt_enable (c : Config) : regAt c (gpioAddr c 0x20) = some .enable := regAt_gpioAddr c (by decide)
@[simp] theorem regAt_enableSet (c : Config) : regAt c (gpioAddr c 0x24) = some .enableSet :=
  regAt_gpioAddr c (by decide)
@[simp] theorem regAt_enableClear (c : Config) : regAt c (gpioAddr c 0x28) = some .enableClear :=
  regAt_gpioAddr c (by decide)
@[simp] theorem regAt_inp (c : Config) : regAt c (gpioAddr c 0x3C) = some .inp := regAt_gpioAddr c (by decide)

/-- The seven registers lie in the first 0x40 bytes of the GPIO block. -/
theorem gpioReg_lt {d : Word} {r : Reg} (h : gpioReg d = some r) : d.toNat < 0x40 := by
  unfold gpioReg at h
  repeat' split at h
  all_goals first | (subst_vars; decide) | simp at h

/-! ## The IO-MUX block -/

theorem iomuxAddrOf_inj {c : Config} {o o' : Off} (h : iomuxAddrOf c o = iomuxAddrOf c o') : o = o' := by
  have h2 : o.setWidth 32 = o'.setWidth 32 := by
    have := congrArg (fun x => x - c.bM) h
    simpa [iomuxAddrOf, BitVec.add_comm c.bM, BitVec.add_sub_cancel] using this
  have h3 := congrArg BitVec.toNat h2
  simp only [BitVec.toNat_setWidth] at h3
  have := o.isLt
  have := o'.isLt
  apply BitVec.eq_of_toNat_eq
  omega

/-- No IO-MUX address lies among the GPIO registers (R9). -/
theorem gpioReg_iomuxAddrOf {c : Config} (h : c.wellFormed = true) (off : Off) :
    gpioReg (iomuxAddrOf c off - c.bG) = none := by
  cases hr : gpioReg (iomuxAddrOf c off - c.bG) with
  | none => rfl
  | some r =>
    have hlt := gpioReg_lt hr
    simp only [Config.wellFormed, Bool.and_eq_true] at h
    have hb := h.1.1.1.1.1.1.2
    simp only [Config.basesApart, Bool.and_eq_true, Bool.or_eq_true, decide_eq_true_eq] at hb
    obtain ⟨⟨h1, h2⟩, h3⟩ := hb
    have ho := off.isLt
    have hm := c.bM.isLt
    have hg := c.bG.isLt
    simp only [iomuxAddrOf, BitVec.toNat_sub, BitVec.toNat_add, BitVec.toNat_setWidth] at hlt
    omega

theorem regAt_iomuxAddrOf {c : Config} (h : c.wellFormed = true) (off : Off) :
    regAt c (iomuxAddrOf c off) = (pinOf c (iomuxAddrOf c off)).map Reg.mux := by
  simp [regAt, gpioReg_iomuxAddrOf h]

/-- Looking up a table by a key that occurs once finds the entry it stands in. -/
theorem find?_of_nodup {α β : Type} [DecidableEq β] (f : α → β) (l : List α) (hn : (l.map f).Nodup) {x : α} (hx : x ∈ l) :
    l.find? (fun y => f y == f x) = some x := by
  induction l with
  | nil => cases hx
  | cons a l ih =>
    rw [List.map_cons, List.nodup_cons] at hn
    rcases List.mem_cons.1 hx with rfl | hx
    · simp
    · have : f a ≠ f x := fun e => hn.1 (e ▸ List.mem_map_of_mem hx)
      simp [this, ih hn.2 hx]

theorem iomux_nodup {c : Config} (h : c.wellFormed = true) :
    (c.iomux.map Prod.fst).Nodup ∧ (c.iomux.map Prod.snd).Nodup := by
  simp only [Config.wellFormed, Bool.and_eq_true] at h
  have hi := h.1.1.1.2
  simpa [Config.iomuxInjective] using hi

theorem iomuxOff_mem {c : Config} {p : Pin} {off : Off} (h : iomuxOff c p = some off) : (p, off) ∈ c.iomux := by
  simp only [iomuxOff, Option.map_eq_some_iff] at h
  obtain ⟨e, he, rfl⟩ := h
  have h1 := List.find?_some he
  simp only [beq_iff_eq] at h1
  subst h1
  exact List.mem_of_find?_eq_some he

/-- The IO-MUX register at a pin's offset is that pin's (R10, R56). -/
theorem regAt_of_iomuxOff {c : Config} (h : c.wellFormed = true) {p : Pin} {off : Off} (hp : iomuxOff c p = some off) :
    regAt c (iomuxAddrOf c off) = some (.mux p) := by
  have hmem := iomuxOff_mem hp
  have hpred : (fun e : Pin × Off => iomuxAddrOf c e.2 == iomuxAddrOf c off) = (fun e => e.2 == (p, off).2) := by
    funext e
    by_cases he : e.2 = off
    · simp [he]
    · have : iomuxAddrOf c e.2 ≠ iomuxAddrOf c off := fun x => he (iomuxAddrOf_inj x)
      simp [he, this]
  rw [regAt_iomuxAddrOf h, pinOf, hpred, find?_of_nodup Prod.snd c.iomux (iomux_nodup h).2 hmem]
  rfl

/-- The address of a pin's IO-MUX register names it (R56). -/
theorem regAt_muxAddr {c : Config} (h : c.wellFormed = true) {p : Pin} (hp : muxValid c p = true) :
    regAt c (muxAddr c p) = some (.mux p) := by
  obtain ⟨off, ho⟩ := Option.isSome_iff_exists.1 hp
  rw [muxAddr, ho]
  exact regAt_of_iomuxOff h ho

/-- An IO-MUX offset that is no pin's is unmapped (R57). -/
theorem regAt_iomux_unmapped {c : Config} (h : c.wellFormed = true) {off : Off} (hn : ∀ p, iomuxOff c p ≠ some off) :
    regAt c (iomuxAddrOf c off) = none := by
  rw [regAt_iomuxAddrOf h, pinOf]
  cases hf : c.iomux.find? (fun e => iomuxAddrOf c e.2 == iomuxAddrOf c off) with
  | none => rfl
  | some e =>
    exfalso
    have h1 := List.find?_some hf
    simp only [beq_iff_eq] at h1
    have h2 := iomuxAddrOf_inj h1
    have hm := List.mem_of_find?_eq_some hf
    apply hn e.1
    rw [iomuxOff, find?_of_nodup Prod.fst c.iomux (iomux_nodup h).1 hm]
    simp [h2]

/-- A GPIO offset below 0x40 with no register is unmapped (R57). -/
theorem regAt_gpio_unmapped {c : Config} (h : c.wellFormed = true) {off : Word} (hlt : off.toNat < 0x40)
    (hn : gpioReg off = none) : regAt c (gpioAddr c off) = none := by
  rw [regAt, gpioAddr_sub, hn]
  simp only [Option.map_eq_none_iff, pinOf]
  rw [List.find?_eq_none]
  intro e _
  simp only [beq_iff_eq]
  simp only [Config.wellFormed, Bool.and_eq_true] at h
  have hb := h.1.1.1.1.1.1.2
  simp only [Config.basesApart, Bool.and_eq_true, Bool.or_eq_true, decide_eq_true_eq] at hb
  obtain ⟨⟨h1, h2⟩, h3⟩ := hb
  intro he
  have hN := congrArg BitVec.toNat he
  have ho := e.2.isLt
  simp only [iomuxAddrOf, gpioAddr, BitVec.toNat_add, BitVec.toNat_setWidth] at hN
  have hm := c.bM.isLt
  have hg := c.bG.isLt
  omega

end Sys2Proof.Machine
end

