-- ==== Sys2Proof/Laws/Bits.lean ====
section
/-! SUPPORT. Bits of masks, and the IO-MUX word under a valid layout: what its fields read as after a set or a clear of each
mask (R12, R99, R111). -/

namespace Sys2Proof.Machine

theorem getLsbD_bitMask (b i : Nat) : (bitMask b).getLsbD i = (decide (i < 32) && decide (i = b)) := by
  simp only [bitMask, BitVec.getLsbD_shiftLeft, BitVec.getLsbD_one]
  by_cases h : i = b
  · subst h; simp
  · by_cases h1 : i < b
    · simp [h, h1]
    · have : i - b ≠ 0 := by omega
      simp [h, this]

theorem getLsbD_placeBit (b i : Nat) (v : Bool) :
    (placeBit b v).getLsbD i = (decide (i < 32) && (decide (i = b) && v)) := by
  cases v <;> simp [placeBit, getLsbD_bitMask]

/-- A shifted field, bit by bit. -/
theorem getLsbD_field {k : Nat} (f : BitVec k) (n i : Nat) :
    (f.setWidth 32 <<< n).getLsbD i = (decide (i < 32) && (decide (n ≤ i) && f.getLsbD (i - n))) := by
  simp only [BitVec.getLsbD_shiftLeft, BitVec.getLsbD_setWidth]
  by_cases h : i < 32
  · by_cases h1 : i < n
    · simp [h1]
    · have h2 : i - n < 32 := by omega
      have h3 : n ≤ i := by omega
      simp [h, h1, h2, h3]
  · simp [h]

theorem getLsbD_putBit (w : Word) (b i : Nat) (lvl : Bool) :
    (putBit w b lvl).getLsbD i = if i = b ∧ i < 32 then lvl else w.getLsbD i := by
  by_cases hi : i < 32
  · by_cases h : i = b
    · subst h; cases lvl <;> simp [putBit, getLsbD_bitMask, hi]
    · have hm : (bitMask b).getLsbD i = false := by simp [getLsbD_bitMask, h]
      cases lvl
      · show (w &&& ~~~ bitMask b).getLsbD i = _
        rw [BitVec.getLsbD_and, BitVec.getLsbD_not, hm]; simp [h, hi]
      · show (w ||| bitMask b).getLsbD i = _
        rw [BitVec.getLsbD_or, hm]; simp [h]
  · have := BitVec.getLsbD_of_ge w i (by omega)
    cases lvl <;> simp [putBit, getLsbD_bitMask, hi, this]

/-! ## The layout -/

/-- What a valid layout says (R11). -/
structure LayoutOk (l : MuxLayout) : Prop where
  inside : ∀ b ∈ l.bits, b < 32
  nodup : l.bits.Nodup

theorem layoutOk_of_wellFormed {c : Config} (h : c.wellFormed = true) : LayoutOk c.muxf := by
  simp only [Config.wellFormed, Bool.and_eq_true] at h
  have hm := h.1.1.2
  simp only [Config.muxfOk, Bool.and_eq_true, decide_eq_true_eq, List.all_eq_true] at hm
  exact ⟨hm.1, hm.2⟩

/-- Two different named positions are different bits. -/
theorem LayoutOk.ne {l : MuxLayout} (h : LayoutOk l) (i j : Fin 10) (hij : i ≠ j) :
    l.bits[i.1]'i.2 ≠ l.bits[j.1]'j.2 := fun e =>
  hij (Fin.ext ((List.Nodup.getElem_inj_iff h.nodup).1 e))

theorem LayoutOk.lt {l : MuxLayout} (h : LayoutOk l) (i : Fin 10) : l.bits[i.1]'i.2 < 32 :=
  h.inside _ (List.getElem_mem _)

/-- The position of a bit of the function-select field is no other field's (R11). -/
theorem LayoutOk.fun_free {l : MuxLayout} (h : LayoutOk l) {j : Nat} (hj : j < 3) :
    l.funLsb + j < 32 ∧ (∀ k < 2, l.funLsb + j ≠ l.drvLsb + k) ∧ l.funLsb + j ≠ l.ieBit ∧ l.funLsb + j ≠ l.puBit ∧
      l.funLsb + j ≠ l.pdBit ∧ l.funLsb + j ≠ l.slpBit ∧ l.funLsb + j ≠ l.oeBit := by
  have key : ∀ i : Fin 10, i.1 < 3 → (l.bits[i.1]'i.2 < 32 ∧
      (l.bits[i.1]'i.2 ≠ l.drvLsb ∧ l.bits[i.1]'i.2 ≠ l.drvLsb + 1) ∧
      l.bits[i.1]'i.2 ≠ l.ieBit ∧ l.bits[i.1]'i.2 ≠ l.puBit ∧ l.bits[i.1]'i.2 ≠ l.pdBit ∧
      l.bits[i.1]'i.2 ≠ l.slpBit ∧ l.bits[i.1]'i.2 ≠ l.oeBit) := fun i hi =>
    ⟨h.lt i, ⟨h.ne i 3 (by omega), h.ne i 4 (by omega)⟩, h.ne i 5 (by omega), h.ne i 6 (by omega), h.ne i 7 (by omega),
      h.ne i 8 (by omega), h.ne i 9 (by omega)⟩
  have split : ∀ x : Nat, (x ≠ l.drvLsb ∧ x ≠ l.drvLsb + 1) → ∀ k < 2, x ≠ l.drvLsb + k := by
    intro x hx k hk
    rcases k with _ | _ | k
    · exact hx.1
    · exact hx.2
    · omega
  rcases j with _ | _ | _ | j
  · have := key 0 (by decide); exact ⟨this.1, split _ this.2.1, this.2.2⟩
  · have := key 1 (by decide); exact ⟨this.1, split _ this.2.1, this.2.2⟩
  · have := key 2 (by decide); exact ⟨this.1, split _ this.2.1, this.2.2⟩
  · omega

/-- The position of a bit of the drive-strength field is no single bit's (R11). -/
theorem LayoutOk.drv_free {l : MuxLayout} (h : LayoutOk l) {j : Nat} (hj : j < 2) :
    l.drvLsb + j < 32 ∧ l.drvLsb + j ≠ l.ieBit ∧ l.drvLsb + j ≠ l.puBit ∧ l.drvLsb + j ≠ l.pdBit ∧
      l.drvLsb + j ≠ l.slpBit ∧ l.drvLsb + j ≠ l.oeBit := by
  rcases j with _ | _ | j
  · exact ⟨h.lt 3, h.ne 3 5 (by decide), h.ne 3 6 (by decide), h.ne 3 7 (by decide), h.ne 3 8 (by decide),
      h.ne 3 9 (by decide)⟩
  · exact ⟨h.lt 4, h.ne 4 5 (by decide), h.ne 4 6 (by decide), h.ne 4 7 (by decide), h.ne 4 8 (by decide),
      h.ne 4 9 (by decide)⟩
  · omega

/-- The five single bits stand apart from one another (R11). -/
theorem LayoutOk.bits_free {l : MuxLayout} (h : LayoutOk l) :
    l.ieBit ≠ l.puBit ∧ l.ieBit ≠ l.pdBit ∧ l.ieBit ≠ l.slpBit ∧ l.ieBit ≠ l.oeBit ∧ l.puBit ≠ l.pdBit ∧
      l.puBit ≠ l.slpBit ∧ l.puBit ≠ l.oeBit ∧ l.pdBit ≠ l.slpBit ∧ l.pdBit ≠ l.oeBit ∧ l.slpBit ≠ l.oeBit :=
  ⟨h.ne 5 6 (by decide), h.ne 5 7 (by decide), h.ne 5 8 (by decide), h.ne 5 9 (by decide), h.ne 6 7 (by decide),
    h.ne 6 8 (by decide), h.ne 6 9 (by decide), h.ne 7 8 (by decide), h.ne 7 9 (by decide), h.ne 8 9 (by decide)⟩

/-- The five single bits lie inside the word (R11). -/
theorem LayoutOk.bits_lt {l : MuxLayout} (h : LayoutOk l) :
    l.ieBit < 32 ∧ l.puBit < 32 ∧ l.pdBit < 32 ∧ l.slpBit < 32 ∧ l.oeBit < 32 :=
  ⟨h.lt 5, h.lt 6, h.lt 7, h.lt 8, h.lt 9⟩

/-! ## Fields of a word -/

/-- Two words with the same seven fields (R28, R99). -/
theorem muxFields_congr {l : MuxLayout} {w w' : Word}
    (hw : ∀ b ∈ l.bits, w.getLsbD b = w'.getLsbD b) : muxFields l w = muxFields l w' := by
  have g (i : Fin 10) : w.getLsbD (l.bits[i.1]'i.2) = w'.getLsbD (l.bits[i.1]'i.2) := hw _ (List.getElem_mem _)
  have hf : w.extractLsb' l.funLsb 3 = w'.extractLsb' l.funLsb 3 := by
    apply BitVec.eq_of_getLsbD_eq
    intro j hj
    simp only [BitVec.getLsbD_extractLsb', hj, decide_true, Bool.true_and]
    rcases j with _ | _ | _ | j
    · exact g 0
    · exact g 1
    · exact g 2
    · omega
  have hd : w.extractLsb' l.drvLsb 2 = w'.extractLsb' l.drvLsb 2 := by
    apply BitVec.eq_of_getLsbD_eq
    intro j hj
    simp only [BitVec.getLsbD_extractLsb', hj, decide_true, Bool.true_and]
    rcases j with _ | _ | j
    · exact g 3
    · exact g 4
    · omega
  simp only [muxFields, MuxReg.mk.injEq]
  exact ⟨hf, hd, g 5, g 6, g 7, g 8, g 9⟩

/-- The word of a register has the register's fields, whatever is drawn for the other bits (R99). -/
theorem muxFields_muxWord {l : MuxLayout} (h : LayoutOk l) (m : MuxReg) (u : Word) :
    muxFields l (muxWord l m u) = m := by
  have hb := h.bits_free
  have hl := h.bits_lt
  have hfun : (muxWord l m u).extractLsb' l.funLsb 3 = m.func := by
    apply BitVec.eq_of_getLsbD_eq
    intro j hj
    have hf := h.fun_free hj
    have hd : m.drv.getLsbD (l.funLsb + j - l.drvLsb) = false ∨ l.funLsb + j < l.drvLsb := by
      by_cases hlt : l.funLsb + j < l.drvLsb
      · exact .inr hlt
      · refine .inl (BitVec.getLsbD_of_ge _ _ ?_)
        have h0 := hf.2.1 0 (by omega)
        have h1 := hf.2.1 1 (by omega)
        omega
    have hn : (namedMask l).getLsbD (l.funLsb + j) = true := by
      have h7 : (7#32).getLsbD (l.funLsb + j - l.funLsb) = true := by
        have : j = 0 ∨ j = 1 ∨ j = 2 := by omega
        rcases this with rfl | rfl | rfl <;> simp
      simp only [namedMask, BitVec.getLsbD_or, BitVec.getLsbD_shiftLeft, h7]
      simp [hf.1]
    rcases hd with hd | hd
    all_goals
      simp only [BitVec.getLsbD_extractLsb', muxWord, BitVec.getLsbD_or, BitVec.getLsbD_and, BitVec.getLsbD_not,
        getLsbD_field, getLsbD_placeBit, hn]
      simp [hf.1, hf.2.2, hd, hj]
      try omega
  have hdrv : (muxWord l m u).extractLsb' l.drvLsb 2 = m.drv := by
    apply BitVec.eq_of_getLsbD_eq
    intro j hj
    have hf := h.drv_free hj
    have hd : m.func.getLsbD (l.drvLsb + j - l.funLsb) = false ∨ l.drvLsb + j < l.funLsb := by
      by_cases hlt : l.drvLsb + j < l.funLsb
      · exact .inr hlt
      · refine .inl (BitVec.getLsbD_of_ge _ _ ?_)
        have h0 := (h.fun_free (j := 0) (by omega)).2.1 j hj
        have h1 := (h.fun_free (j := 1) (by omega)).2.1 j hj
        have h2 := (h.fun_free (j := 2) (by omega)).2.1 j hj
        omega
    have hn : (namedMask l).getLsbD (l.drvLsb + j) = true := by
      have h3 : (3#32).getLsbD (l.drvLsb + j - l.drvLsb) = true := by
        have : j = 0 ∨ j = 1 := by omega
        rcases this with rfl | rfl <;> simp
      simp only [namedMask, BitVec.getLsbD_or, BitVec.getLsbD_shiftLeft, h3]
      simp [hf.1]
    rcases hd with hd | hd
    all_goals
      simp only [BitVec.getLsbD_extractLsb', muxWord, BitVec.getLsbD_or, BitVec.getLsbD_and, BitVec.getLsbD_not,
        getLsbD_field, getLsbD_placeBit, hn]
      simp [hf, hd, hj]
      try omega
  -- a single bit's position lies in neither of the two wider fields
  have hout : ∀ b < 32, (∀ j < 3, l.funLsb + j ≠ b) → (∀ j < 2, l.drvLsb + j ≠ b) →
      (m.func.getLsbD (b - l.funLsb) && decide (l.funLsb ≤ b)) = false ∧
        (m.drv.getLsbD (b - l.drvLsb) && decide (l.drvLsb ≤ b)) = false := by
    intro b _ hf hd
    constructor
    · by_cases hle : l.funLsb ≤ b
      · have : m.func.getLsbD (b - l.funLsb) = false := BitVec.getLsbD_of_ge _ _ (by
          have h0 := hf 0 (by omega); have h1 := hf 1 (by omega); have h2 := hf 2 (by omega); omega)
        simp [this]
      · simp [hle]
    · by_cases hle : l.drvLsb ≤ b
      · have : m.drv.getLsbD (b - l.drvLsb) = false := BitVec.getLsbD_of_ge _ _ (by
          have h0 := hd 0 (by omega); have h1 := hd 1 (by omega); omega)
        simp [this]
      · simp [hle]
  have hbit : ∀ b < 32, (namedMask l).getLsbD b = true →
      (∀ j < 3, l.funLsb + j ≠ b) → (∀ j < 2, l.drvLsb + j ≠ b) →
      (muxWord l m u).getLsbD b = (decide (b = l.ieBit) && m.ie || decide (b = l.puBit) && m.pu ||
        decide (b = l.pdBit) && m.pd || decide (b = l.slpBit) && m.slp || decide (b = l.oeBit) && m.oe) := by
    intro b hb32 hn hf hd
    obtain ⟨h1, h2⟩ := hout b hb32 hf hd
    rw [Bool.and_comm] at h1 h2
    simp only [muxWord, BitVec.getLsbD_or, BitVec.getLsbD_and, BitVec.getLsbD_not, getLsbD_field, getLsbD_placeBit, hn,
      h1, h2]
    simp [hb32]
  have hnamed : ∀ b < 32, (b = l.ieBit ∨ b = l.puBit ∨ b = l.pdBit ∨ b = l.slpBit ∨ b = l.oeBit) →
      (namedMask l).getLsbD b = true := by
    intro b hb32 hb
    simp only [namedMask, BitVec.getLsbD_or, getLsbD_bitMask]
    rcases hb with rfl | rfl | rfl | rfl | rfl <;> simp [hb32]
  have hF : ∀ j < 3, _ := fun j hj => (h.fun_free (j := j) hj).2.2
  have hD : ∀ j < 2, _ := fun j hj => (h.drv_free (j := j) hj).2
  have hie := hbit l.ieBit hl.1 (hnamed _ hl.1 (by simp)) (fun j hj => (hF j hj).1) (fun j hj => (hD j hj).1)
  have hpu := hbit l.puBit hl.2.1 (hnamed _ hl.2.1 (by simp)) (fun j hj => (hF j hj).2.1) (fun j hj => (hD j hj).2.1)
  have hpd := hbit l.pdBit hl.2.2.1 (hnamed _ hl.2.2.1 (by simp)) (fun j hj => (hF j hj).2.2.1)
    (fun j hj => (hD j hj).2.2.1)
  have hslp := hbit l.slpBit hl.2.2.2.1 (hnamed _ hl.2.2.2.1 (by simp)) (fun j hj => (hF j hj).2.2.2.1)
    (fun j hj => (hD j hj).2.2.2.1)
  have hoe := hbit l.oeBit hl.2.2.2.2 (hnamed _ hl.2.2.2.2 (by simp)) (fun j hj => (hF j hj).2.2.2.2)
    (fun j hj => (hD j hj).2.2.2.2)
  obtain ⟨n1, n2, n3, n4, n5, n6, n7, n8, n9, n10⟩ := hb
  simp only [muxFields, hfun, hdrv, hie, hpu, hpd, hslp, hoe]
  simp [n1, n2, n3, n4, n5, n6, n7, n8, n9, n10, n1.symm, n2.symm, n3.symm, n4.symm, n5.symm, n6.symm, n7.symm, n8.symm,
    n9.symm, n10.symm]

/-- A bit in none of the seven fields is the draw's (R99). -/
theorem getLsbD_muxWord_unnamed {l : MuxLayout} (m : MuxReg) (u : Word) {b : Nat} (hb : b < 32) (hn : b ∉ l.bits) :
    (muxWord l m u).getLsbD b = u.getLsbD b := by
  simp only [MuxLayout.bits, List.mem_cons, List.not_mem_nil, or_false, not_or] at hn
  obtain ⟨f0, f1, f2, d0, d1, i, pu, pd, sl, oe⟩ := hn
  have hf : (decide (l.funLsb ≤ b) && m.func.getLsbD (b - l.funLsb)) = false := by
    by_cases hle : l.funLsb ≤ b
    · simp [BitVec.getLsbD_of_ge m.func (b - l.funLsb) (by omega)]
    · simp [hle]
  have hd : (decide (l.drvLsb ≤ b) && m.drv.getLsbD (b - l.drvLsb)) = false := by
    by_cases hle : l.drvLsb ≤ b
    · simp [BitVec.getLsbD_of_ge m.drv (b - l.drvLsb) (by omega)]
    · simp [hle]
  have h7 : (decide (b < 32) && (decide (l.funLsb ≤ b) && (7#3).getLsbD (b - l.funLsb))) = false := by
    by_cases hle : l.funLsb ≤ b
    · simp [BitVec.getLsbD_of_ge (7#3) (b - l.funLsb) (by omega)]
    · simp [hle]
  have h3 : (decide (b < 32) && (decide (l.drvLsb ≤ b) && (3#2).getLsbD (b - l.drvLsb))) = false := by
    by_cases hle : l.drvLsb ≤ b
    · simp [BitVec.getLsbD_of_ge (3#2) (b - l.drvLsb) (by omega)]
    · simp [hle]
  have e7 : (7#32 : Word) = (7#3).setWidth 32 := by decide
  have e3 : (3#32 : Word) = (3#2).setWidth 32 := by decide
  have hmask : (namedMask l).getLsbD b = false := by
    simp only [namedMask, e7, e3, BitVec.getLsbD_or, getLsbD_field, getLsbD_bitMask, h7, h3]
    simp [i, pu, pd, sl, oe]
  simp only [muxWord, BitVec.getLsbD_or, BitVec.getLsbD_and, BitVec.getLsbD_not, getLsbD_field, getLsbD_placeBit, hf, hd,
    hmask]
  simp [hb, i, pu, pd, sl, oe]

/-! ## Setting and clearing masks -/

/-- The fields after the bits of `x` are set in a word (R109, R111). -/
theorem muxFields_setMask (l : MuxLayout) (x w : Word) :
    muxFields l (setMask x w) =
      { func := (muxFields l w).func ||| (muxFields l x).func
        drv := (muxFields l w).drv ||| (muxFields l x).drv
        ie := (muxFields l w).ie || (muxFields l x).ie
        pu := (muxFields l w).pu || (muxFields l x).pu
        pd := (muxFields l w).pd || (muxFields l x).pd
        slp := (muxFields l w).slp || (muxFields l x).slp
        oe := (muxFields l w).oe || (muxFields l x).oe } := by
  simp only [muxFields, setMask, BitVec.getLsbD_or, MuxReg.mk.injEq, and_self, and_true]
  constructor <;> (apply BitVec.eq_of_getLsbD_eq; intro j hj; simp [Bool.and_or_distrib_left])

/-- The fields after the bits of `x` are cleared in a word (R110, R111). -/
theorem muxFields_clearMask {l : MuxLayout} (h : LayoutOk l) (x w : Word) :
    muxFields l (clearMask x w) =
      { func := (muxFields l w).func &&& ~~~ (muxFields l x).func
        drv := (muxFields l w).drv &&& ~~~ (muxFields l x).drv
        ie := (muxFields l w).ie && !(muxFields l x).ie
        pu := (muxFields l w).pu && !(muxFields l x).pu
        pd := (muxFields l w).pd && !(muxFields l x).pd
        slp := (muxFields l w).slp && !(muxFields l x).slp
        oe := (muxFields l w).oe && !(muxFields l x).oe } := by
  have hl := h.bits_lt
  simp only [muxFields, clearMask, BitVec.getLsbD_and, BitVec.getLsbD_not, hl, MuxReg.mk.injEq, decide_true,
    Bool.true_and, and_self, and_true]
  constructor
  · apply BitVec.eq_of_getLsbD_eq
    intro j hj
    simp [hj, (h.fun_free hj).1]
  · apply BitVec.eq_of_getLsbD_eq
    intro j hj
    simp [hj, (h.drv_free hj).1]

/-- The register whose only set field is the pull-up bit. -/
def onlyPu : MuxReg := { MuxReg.reset with pu := true }

/-- The register whose only set field is the pull-down bit. -/
def onlyPd : MuxReg := { MuxReg.reset with pd := true }

theorem muxFields_bitMask {l : MuxLayout} (h : LayoutOk l) (b : Nat) (hf : ∀ j < 3, l.funLsb + j ≠ b)
    (hd : ∀ j < 2, l.drvLsb + j ≠ b) :
    muxFields l (bitMask b) =
      { func := 0, drv := 0, ie := decide (l.ieBit = b), pu := decide (l.puBit = b), pd := decide (l.pdBit = b),
        slp := decide (l.slpBit = b), oe := decide (l.oeBit = b) } := by
  have hl := h.bits_lt
  simp only [muxFields, getLsbD_bitMask, hl, MuxReg.mk.injEq, decide_true, Bool.true_and, and_self, and_true]
  constructor
  · apply BitVec.eq_of_getLsbD_eq
    intro j hj
    simp [getLsbD_bitMask, hf j hj]
  · apply BitVec.eq_of_getLsbD_eq
    intro j hj
    simp [getLsbD_bitMask, hd j hj]

/-- The fields of `PU_MASK` (R99). -/
theorem muxFields_puMask {c : Config} (h : LayoutOk c.muxf) : muxFields c.muxf (puMask c) = onlyPu := by
  rw [puMask, muxFields_bitMask h _ (fun j hj => (h.fun_free hj).2.2.2.1) (fun j hj => (h.drv_free hj).2.2.1)]
  obtain ⟨n1, n2, n3, n4, n5, n6, n7, n8, n9, n10⟩ := h.bits_free
  simp [onlyPu, MuxReg.reset, n1, n5.symm, n6.symm, n7.symm]

/-- The fields of `PD_MASK` (R99). -/
theorem muxFields_pdMask {c : Config} (h : LayoutOk c.muxf) : muxFields c.muxf (pdMask c) = onlyPd := by
  rw [pdMask, muxFields_bitMask h _ (fun j hj => (h.fun_free hj).2.2.2.2.1) (fun j hj => (h.drv_free hj).2.2.2.1)]
  obtain ⟨n1, n2, n3, n4, n5, n6, n7, n8, n9, n10⟩ := h.bits_free
  simp [onlyPd, MuxReg.reset, n2, n5, n8.symm, n9.symm]

/-- The fields of a 3-bit value at the function-select position (R12). -/
theorem muxFields_func {l : MuxLayout} (h : LayoutOk l) (f : BitVec 3) :
    muxFields l (f.setWidth 32 <<< l.funLsb) = { MuxReg.reset with func := f } := by
  have out : ∀ b, (∀ j < 3, l.funLsb + j ≠ b) → (f.setWidth 32 <<< l.funLsb).getLsbD b = false := by
    intro b hb
    rw [getLsbD_field]
    by_cases hle : l.funLsb ≤ b
    · have h0 := hb 0 (by omega)
      have h1 := hb 1 (by omega)
      have h2 := hb 2 (by omega)
      simp [BitVec.getLsbD_of_ge f (b - l.funLsb) (by omega)]
    · simp [hle]
  simp only [muxFields, MuxReg.reset, MuxReg.mk.injEq]
  refine ⟨?_, ?_, out _ fun j hj => (h.fun_free hj).2.2.1, out _ fun j hj => (h.fun_free hj).2.2.2.1,
    out _ fun j hj => (h.fun_free hj).2.2.2.2.1, out _ fun j hj => (h.fun_free hj).2.2.2.2.2.1,
    out _ fun j hj => (h.fun_free hj).2.2.2.2.2.2⟩
  · apply BitVec.eq_of_getLsbD_eq
    intro j hj
    rw [BitVec.getLsbD_extractLsb', getLsbD_field]
    simp [hj, (h.fun_free hj).1]
  · apply BitVec.eq_of_getLsbD_eq
    intro j hj
    rw [BitVec.getLsbD_extractLsb', out _ fun k hk => (h.fun_free hk).2.1 j hj]
    simp

theorem and_seven (f : BitVec 3) : f &&& 7#3 = f := by revert f; decide

theorem and_three (f : BitVec 2) : f &&& 3#2 = f := by revert f; decide

/-- Set `PU`: the pull-up field is 1, every other as it was (R128). -/
theorem muxFields_set_puMask {c : Config} (h : LayoutOk c.muxf) (w : Word) :
    muxFields c.muxf (setMask (puMask c) w) = { muxFields c.muxf w with pu := true } := by
  rw [muxFields_setMask, muxFields_puMask h]; simp [onlyPu, MuxReg.reset]

/-- Set `PD` (R129). -/
theorem muxFields_set_pdMask {c : Config} (h : LayoutOk c.muxf) (w : Word) :
    muxFields c.muxf (setMask (pdMask c) w) = { muxFields c.muxf w with pd := true } := by
  rw [muxFields_setMask, muxFields_pdMask h]; simp [onlyPd, MuxReg.reset]

/-- Clear `PU` (R129). -/
theorem muxFields_clear_puMask {c : Config} (h : LayoutOk c.muxf) (w : Word) :
    muxFields c.muxf (clearMask (puMask c) w) = { muxFields c.muxf w with pu := false } := by
  rw [muxFields_clearMask h, muxFields_puMask h]
  simp [onlyPu, MuxReg.reset, and_seven, and_three]

/-- Clear `PD` (R128). -/
theorem muxFields_clear_pdMask {c : Config} (h : LayoutOk c.muxf) (w : Word) :
    muxFields c.muxf (clearMask (pdMask c) w) = { muxFields c.muxf w with pd := false } := by
  rw [muxFields_clearMask h, muxFields_pdMask h]
  simp [onlyPd, MuxReg.reset, and_seven, and_three]

/-- Set the GPIO bits of the function-select field (R120 step `i3`). -/
theorem muxFields_set_gMask {c : Config} (h : LayoutOk c.muxf) (w : Word) :
    muxFields c.muxf (setMask (gMask c) w) = { muxFields c.muxf w with func := (muxFields c.muxf w).func ||| c.funGpio } := by
  rw [muxFields_setMask, gMask, muxFields_func h]; simp [MuxReg.reset]

/-- Clear the other bits of the function-select field (R120 step `i5`). -/
theorem muxFields_clear_ngMask {c : Config} (h : LayoutOk c.muxf) (w : Word) :
    muxFields c.muxf (clearMask (ngMask c) w) =
      { muxFields c.muxf w with func := (muxFields c.muxf w).func &&& c.funGpio } := by
  have e : ~~~ (7#3 ^^^ c.funGpio) = c.funGpio := by
    generalize c.funGpio = f
    revert f; decide
  rw [muxFields_clearMask h, ngMask, muxFields_func h]; simp [MuxReg.reset, e, and_three]

/-- The two together leave `FUN_GPIO`, whatever the field held (R121). -/
theorem or_and_funGpio (f g : BitVec 3) : (f ||| g) &&& g = g := by
  revert f g; decide

end Sys2Proof.Machine
end

