-- ==== Sys2Proof/Laws/Encoding.lean ====
section
/-! SUPPORT. The fields of a packed request word read back as they were packed (R88 to R90). -/

namespace Sys2Proof

section
variable (we blk : BitVec 1) (off : Off) (d : Word)

theorem packBus_off : (packBus we blk off d).extractLsb' 32 12 = off := by
  apply BitVec.eq_of_getLsbD_eq
  intro i hi
  have h1 : 32 + i < 46 := by omega
  have h2 : 32 + i < 44 := by omega
  have h3 : 32 + i < 45 := by omega
  simp [packBus, hi, h1, h2, h3]

theorem packBus_data : (packBus we blk off d).extractLsb' 0 32 = d := by
  apply BitVec.eq_of_getLsbD_eq
  intro i hi
  have h1 : i < 44 := by omega
  have h2 : i < 45 := by omega
  have h3 : i < 46 := by omega
  simp [packBus, hi, h1, h2, h3]

theorem packBus_we : (packBus we blk off d).getLsbD 45 = we.getLsbD 0 := by
  simp [packBus]

theorem packBus_blk : (packBus we blk off d).getLsbD 44 = blk.getLsbD 0 := by
  simp [packBus]
end

section
variable (aop : BitVec 4) (addr mask : Word)

theorem packAccess_aop : (packAccess aop addr mask).extractLsb' 64 4 = aop := by
  apply BitVec.eq_of_getLsbD_eq
  intro i hi
  have h1 : 64 + i < 68 := by omega
  have h2 := BitVec.getLsbD_of_ge addr (64 + i - 32) (by omega)
  have h3 := BitVec.getLsbD_of_ge mask (64 + i) (by omega)
  simp [packAccess, hi, h1, h2, h3]

theorem packAccess_addr : (packAccess aop addr mask).extractLsb' 32 32 = addr := by
  apply BitVec.eq_of_getLsbD_eq
  intro i hi
  have h1 : 32 + i < 64 := by omega
  have h2 : 32 + i < 68 := by omega
  simp [packAccess, hi, h1, h2]

theorem packAccess_mask : (packAccess aop addr mask).extractLsb' 0 32 = mask := by
  apply BitVec.eq_of_getLsbD_eq
  intro i hi
  have h1 : i < 64 := by omega
  have h2 : i < 68 := by omega
  simp [packAccess, hi, h1, h2]
end

section
variable (pop : BitVec 4) (p : Pin) (arg : BitVec 4) (hid : Hid)

theorem packPin_pop : (packPin pop p arg hid).extractLsb' 28 4 = pop := by
  apply BitVec.eq_of_getLsbD_eq
  intro i hi
  have h1 : 28 + i < 32 := by omega
  have h2 := BitVec.getLsbD_of_ge p (28 + i - 22) (by omega)
  have h3 := BitVec.getLsbD_of_ge arg (28 + i - 18) (by omega)
  have h4 := BitVec.getLsbD_of_ge hid (28 + i) (by omega)
  simp [packPin, hi, h1, h2, h3, h4]

theorem packPin_pin : (packPin pop p arg hid).extractLsb' 22 6 = p := by
  apply BitVec.eq_of_getLsbD_eq
  intro i hi
  have h1 : 22 + i < 32 := by omega
  have h2 : 22 + i < 28 := by omega
  have h3 := BitVec.getLsbD_of_ge arg (22 + i - 18) (by omega)
  have h4 := BitVec.getLsbD_of_ge hid (22 + i) (by omega)
  simp [packPin, hi, h1, h2, h3, h4]

theorem packPin_arg : (packPin pop p arg hid).extractLsb' 18 4 = arg := by
  apply BitVec.eq_of_getLsbD_eq
  intro i hi
  have h1 : 18 + i < 32 := by omega
  have h2 : 18 + i < 28 := by omega
  have h3 : 18 + i < 22 := by omega
  have h4 := BitVec.getLsbD_of_ge hid (18 + i) (by omega)
  simp [packPin, hi, h1, h2, h3, h4]

theorem packPin_rsv : (packPin pop p arg hid).extractLsb' 16 2 = 0 := by
  apply BitVec.eq_of_getLsbD_eq
  intro i hi
  have h1 : 16 + i < 18 := by omega
  have h2 : 16 + i < 22 := by omega
  have h3 : 16 + i < 28 := by omega
  simp [packPin, h1, h2, h3]

theorem packPin_hid : (packPin pop p arg hid).extractLsb' 0 16 = hid := by
  apply BitVec.eq_of_getLsbD_eq
  intro i hi
  have h1 : i < 18 := by omega
  have h2 : i < 22 := by omega
  have h3 : i < 28 := by omega
  have h4 : i < 32 := by omega
  simp [packPin, hi, h1, h2, h3, h4]
end

/-! ## B-format words that no row names (R88, R103) -/

theorem decode_gpioRead (off : Off) (d : Word) (h : off ∉ [(0x04 : Off), 0x20, 0x3C]) :
    decode (.bus (packBus 0 0 off d)) = .gpioRead off := by
  simp only [List.mem_cons, List.not_mem_nil, or_false, not_or] at h
  simp only [decode, decodeBus, packBus_off, packBus_we, packBus_blk]
  show decodeGpioRead off = _
  rw [decodeGpioRead, if_neg h.1, if_neg h.2.1, if_neg h.2.2]

theorem decode_gpioWrite (off : Off) (d : Word) (h : off ∉ [(0x04 : Off), 0x08, 0x0C, 0x20, 0x24, 0x28]) :
    decode (.bus (packBus 1 0 off d)) = .gpioWrite off d := by
  simp only [List.mem_cons, List.not_mem_nil, or_false, not_or] at h
  simp only [decode, decodeBus, packBus_off, packBus_we, packBus_blk, packBus_data]
  show decodeGpioWrite off d = _
  obtain ⟨h1, h2, h3, h4, h5, h6⟩ := h
  rw [decodeGpioWrite, if_neg h1, if_neg h2, if_neg h3, if_neg h4, if_neg h5, if_neg h6]

end Sys2Proof
end

