-- ==== Sys2Proof/Laws/State.lean ====
section
/-! SUPPORT. What each named update leaves unchanged, one lemma per field, and what it writes. -/

namespace Sys2Proof.Machine

/-! ## Unchanged fields -/

section
variable (s : State) (f : Frame)
@[simp] theorem setTop_cfg : (s.setTop f).cfg = s.cfg := rfl
@[simp] theorem setTop_out : (s.setTop f).out = s.out := rfl
@[simp] theorem setTop_enable : (s.setTop f).enable = s.enable := rfl
@[simp] theorem setTop_inp : (s.setTop f).inp = s.inp := rfl
@[simp] theorem setTop_mux : (s.setTop f).mux = s.mux := rfl
@[simp] theorem setTop_bind : (s.setTop f).bind = s.bind := rfl
@[simp] theorem setTop_pend : (s.setTop f).pend = s.pend := rfl
@[simp] theorem setTop_svc : (s.setTop f).svc = s.svc := rfl
@[simp] theorem setTop_irqEn : (s.setTop f).irqEn = s.irqEn := rfl
@[simp] theorem setTop_ext : (s.setTop f).ext = s.ext := rfl
@[simp] theorem setTop_log : (s.setTop f).log = s.log := rfl
@[simp] theorem setTop_inputs : (s.setTop f).inputs = s.inputs := rfl
end

section
variable (s : State) (i : Instr) (k : Nat)
@[simp] theorem goOn_cfg : (s.goOn i k).cfg = s.cfg := rfl
@[simp] theorem goOn_out : (s.goOn i k).out = s.out := rfl
@[simp] theorem goOn_enable : (s.goOn i k).enable = s.enable := rfl
@[simp] theorem goOn_inp : (s.goOn i k).inp = s.inp := rfl
@[simp] theorem goOn_mux : (s.goOn i k).mux = s.mux := rfl
@[simp] theorem goOn_bind : (s.goOn i k).bind = s.bind := rfl
@[simp] theorem goOn_pend : (s.goOn i k).pend = s.pend := rfl
@[simp] theorem goOn_svc : (s.goOn i k).svc = s.svc := rfl
@[simp] theorem goOn_irqEn : (s.goOn i k).irqEn = s.irqEn := rfl
@[simp] theorem goOn_ext : (s.goOn i k).ext = s.ext := rfl
@[simp] theorem goOn_log : (s.goOn i k).log = s.log := rfl
@[simp] theorem goOn_inputs : (s.goOn i k).inputs = s.inputs := rfl
end

section
variable (s : State)
@[simp] theorem finish_cfg : (s.finish).cfg = s.cfg := rfl
@[simp] theorem finish_out : (s.finish).out = s.out := rfl
@[simp] theorem finish_enable : (s.finish).enable = s.enable := rfl
@[simp] theorem finish_inp : (s.finish).inp = s.inp := rfl
@[simp] theorem finish_mux : (s.finish).mux = s.mux := rfl
@[simp] theorem finish_bind : (s.finish).bind = s.bind := rfl
@[simp] theorem finish_pend : (s.finish).pend = s.pend := rfl
@[simp] theorem finish_svc : (s.finish).svc = s.svc := rfl
@[simp] theorem finish_irqEn : (s.finish).irqEn = s.irqEn := rfl
@[simp] theorem finish_ext : (s.finish).ext = s.ext := rfl
@[simp] theorem finish_log : (s.finish).log = s.log := rfl
@[simp] theorem finish_inputs : (s.finish).inputs = s.inputs := rfl
end

section
variable (s : State) (w : Word)
@[simp] theorem setT_cfg : (s.setT w).cfg = s.cfg := rfl
@[simp] theorem setT_out : (s.setT w).out = s.out := rfl
@[simp] theorem setT_enable : (s.setT w).enable = s.enable := rfl
@[simp] theorem setT_inp : (s.setT w).inp = s.inp := rfl
@[simp] theorem setT_mux : (s.setT w).mux = s.mux := rfl
@[simp] theorem setT_bind : (s.setT w).bind = s.bind := rfl
@[simp] theorem setT_pend : (s.setT w).pend = s.pend := rfl
@[simp] theorem setT_svc : (s.setT w).svc = s.svc := rfl
@[simp] theorem setT_irqEn : (s.setT w).irqEn = s.irqEn := rfl
@[simp] theorem setT_ext : (s.setT w).ext = s.ext := rfl
@[simp] theorem setT_log : (s.setT w).log = s.log := rfl
@[simp] theorem setT_inputs : (s.setT w).inputs = s.inputs := rfl
end

section
variable (s : State) (w : Word)
@[simp] theorem setE_cfg : (s.setE w).cfg = s.cfg := rfl
@[simp] theorem setE_out : (s.setE w).out = s.out := rfl
@[simp] theorem setE_enable : (s.setE w).enable = s.enable := rfl
@[simp] theorem setE_inp : (s.setE w).inp = s.inp := rfl
@[simp] theorem setE_mux : (s.setE w).mux = s.mux := rfl
@[simp] theorem setE_bind : (s.setE w).bind = s.bind := rfl
@[simp] theorem setE_pend : (s.setE w).pend = s.pend := rfl
@[simp] theorem setE_svc : (s.setE w).svc = s.svc := rfl
@[simp] theorem setE_irqEn : (s.setE w).irqEn = s.irqEn := rfl
@[simp] theorem setE_ext : (s.setE w).ext = s.ext := rfl
@[simp] theorem setE_log : (s.setE w).log = s.log := rfl
@[simp] theorem setE_inputs : (s.setE w).inputs = s.inputs := rfl
end

section
variable (s : State) (w : Word)
@[simp] theorem setV_cfg : (s.setV w).cfg = s.cfg := rfl
@[simp] theorem setV_out : (s.setV w).out = s.out := rfl
@[simp] theorem setV_enable : (s.setV w).enable = s.enable := rfl
@[simp] theorem setV_inp : (s.setV w).inp = s.inp := rfl
@[simp] theorem setV_mux : (s.setV w).mux = s.mux := rfl
@[simp] theorem setV_bind : (s.setV w).bind = s.bind := rfl
@[simp] theorem setV_pend : (s.setV w).pend = s.pend := rfl
@[simp] theorem setV_svc : (s.setV w).svc = s.svc := rfl
@[simp] theorem setV_irqEn : (s.setV w).irqEn = s.irqEn := rfl
@[simp] theorem setV_ext : (s.setV w).ext = s.ext := rfl
@[simp] theorem setV_log : (s.setV w).log = s.log := rfl
@[simp] theorem setV_inputs : (s.setV w).inputs = s.inputs := rfl
end

section
variable (s : State) (ev : Event)
@[simp] theorem logEvent_cfg : (s.logEvent ev).cfg = s.cfg := rfl
@[simp] theorem logEvent_out : (s.logEvent ev).out = s.out := rfl
@[simp] theorem logEvent_enable : (s.logEvent ev).enable = s.enable := rfl
@[simp] theorem logEvent_inp : (s.logEvent ev).inp = s.inp := rfl
@[simp] theorem logEvent_mux : (s.logEvent ev).mux = s.mux := rfl
@[simp] theorem logEvent_bind : (s.logEvent ev).bind = s.bind := rfl
@[simp] theorem logEvent_pend : (s.logEvent ev).pend = s.pend := rfl
@[simp] theorem logEvent_svc : (s.logEvent ev).svc = s.svc := rfl
@[simp] theorem logEvent_irqEn : (s.logEvent ev).irqEn = s.irqEn := rfl
@[simp] theorem logEvent_main : (s.logEvent ev).main = s.main := rfl
@[simp] theorem logEvent_handlers : (s.logEvent ev).handlers = s.handlers := rfl
@[simp] theorem logEvent_ext : (s.logEvent ev).ext = s.ext := rfl
@[simp] theorem logEvent_inputs : (s.logEvent ev).inputs = s.inputs := rfl
end

section
variable (s : State) (p : Pin) (m : MuxReg)
@[simp] theorem setMux_cfg : (s.setMux p m).cfg = s.cfg := rfl
@[simp] theorem setMux_out : (s.setMux p m).out = s.out := rfl
@[simp] theorem setMux_enable : (s.setMux p m).enable = s.enable := rfl
@[simp] theorem setMux_inp : (s.setMux p m).inp = s.inp := rfl
@[simp] theorem setMux_bind : (s.setMux p m).bind = s.bind := rfl
@[simp] theorem setMux_pend : (s.setMux p m).pend = s.pend := rfl
@[simp] theorem setMux_svc : (s.setMux p m).svc = s.svc := rfl
@[simp] theorem setMux_irqEn : (s.setMux p m).irqEn = s.irqEn := rfl
@[simp] theorem setMux_main : (s.setMux p m).main = s.main := rfl
@[simp] theorem setMux_handlers : (s.setMux p m).handlers = s.handlers := rfl
@[simp] theorem setMux_ext : (s.setMux p m).ext = s.ext := rfl
@[simp] theorem setMux_log : (s.setMux p m).log = s.log := rfl
@[simp] theorem setMux_inputs : (s.setMux p m).inputs = s.inputs := rfl
end

section
variable (s : State) (p : Pin) (b : Binding)
@[simp] theorem setBind_cfg : (s.setBind p b).cfg = s.cfg := rfl
@[simp] theorem setBind_out : (s.setBind p b).out = s.out := rfl
@[simp] theorem setBind_enable : (s.setBind p b).enable = s.enable := rfl
@[simp] theorem setBind_inp : (s.setBind p b).inp = s.inp := rfl
@[simp] theorem setBind_mux : (s.setBind p b).mux = s.mux := rfl
@[simp] theorem setBind_pend : (s.setBind p b).pend = s.pend := rfl
@[simp] theorem setBind_svc : (s.setBind p b).svc = s.svc := rfl
@[simp] theorem setBind_irqEn : (s.setBind p b).irqEn = s.irqEn := rfl
@[simp] theorem setBind_main : (s.setBind p b).main = s.main := rfl
@[simp] theorem setBind_handlers : (s.setBind p b).handlers = s.handlers := rfl
@[simp] theorem setBind_ext : (s.setBind p b).ext = s.ext := rfl
@[simp] theorem setBind_log : (s.setBind p b).log = s.log := rfl
@[simp] theorem setBind_inputs : (s.setBind p b).inputs = s.inputs := rfl
end

section
variable (s : State) (p : Pin) (x : BindState)
@[simp] theorem setBindState_cfg : (s.setBindState p x).cfg = s.cfg := rfl
@[simp] theorem setBindState_out : (s.setBindState p x).out = s.out := rfl
@[simp] theorem setBindState_enable : (s.setBindState p x).enable = s.enable := rfl
@[simp] theorem setBindState_inp : (s.setBindState p x).inp = s.inp := rfl
@[simp] theorem setBindState_mux : (s.setBindState p x).mux = s.mux := rfl
@[simp] theorem setBindState_pend : (s.setBindState p x).pend = s.pend := rfl
@[simp] theorem setBindState_svc : (s.setBindState p x).svc = s.svc := rfl
@[simp] theorem setBindState_irqEn : (s.setBindState p x).irqEn = s.irqEn := rfl
@[simp] theorem setBindState_main : (s.setBindState p x).main = s.main := rfl
@[simp] theorem setBindState_handlers : (s.setBindState p x).handlers = s.handlers := rfl
@[simp] theorem setBindState_ext : (s.setBindState p x).ext = s.ext := rfl
@[simp] theorem setBindState_log : (s.setBindState p x).log = s.log := rfl
@[simp] theorem setBindState_inputs : (s.setBindState p x).inputs = s.inputs := rfl
end

section
variable (s : State) (p : Pin) (b : Bool)
@[simp] theorem setPend_cfg : (s.setPend p b).cfg = s.cfg := rfl
@[simp] theorem setPend_out : (s.setPend p b).out = s.out := rfl
@[simp] theorem setPend_enable : (s.setPend p b).enable = s.enable := rfl
@[simp] theorem setPend_inp : (s.setPend p b).inp = s.inp := rfl
@[simp] theorem setPend_mux : (s.setPend p b).mux = s.mux := rfl
@[simp] theorem setPend_bind : (s.setPend p b).bind = s.bind := rfl
@[simp] theorem setPend_svc : (s.setPend p b).svc = s.svc := rfl
@[simp] theorem setPend_irqEn : (s.setPend p b).irqEn = s.irqEn := rfl
@[simp] theorem setPend_main : (s.setPend p b).main = s.main := rfl
@[simp] theorem setPend_handlers : (s.setPend p b).handlers = s.handlers := rfl
@[simp] theorem setPend_ext : (s.setPend p b).ext = s.ext := rfl
@[simp] theorem setPend_log : (s.setPend p b).log = s.log := rfl
@[simp] theorem setPend_inputs : (s.setPend p b).inputs = s.inputs := rfl
end

section
variable (s : State) (p : Pin) (d : Drive)
@[simp] theorem setExt_cfg : (s.setExt p d).cfg = s.cfg := rfl
@[simp] theorem setExt_out : (s.setExt p d).out = s.out := rfl
@[simp] theorem setExt_enable : (s.setExt p d).enable = s.enable := rfl
@[simp] theorem setExt_inp : (s.setExt p d).inp = s.inp := rfl
@[simp] theorem setExt_mux : (s.setExt p d).mux = s.mux := rfl
@[simp] theorem setExt_bind : (s.setExt p d).bind = s.bind := rfl
@[simp] theorem setExt_pend : (s.setExt p d).pend = s.pend := rfl
@[simp] theorem setExt_svc : (s.setExt p d).svc = s.svc := rfl
@[simp] theorem setExt_irqEn : (s.setExt p d).irqEn = s.irqEn := rfl
@[simp] theorem setExt_main : (s.setExt p d).main = s.main := rfl
@[simp] theorem setExt_handlers : (s.setExt p d).handlers = s.handlers := rfl
@[simp] theorem setExt_log : (s.setExt p d).log = s.log := rfl
@[simp] theorem setExt_inputs : (s.setExt p d).inputs = s.inputs := rfl
end

section
variable (s : State)
@[simp] theorem installService_cfg : (s.installService).cfg = s.cfg := rfl
@[simp] theorem installService_out : (s.installService).out = s.out := rfl
@[simp] theorem installService_enable : (s.installService).enable = s.enable := rfl
@[simp] theorem installService_inp : (s.installService).inp = s.inp := rfl
@[simp] theorem installService_mux : (s.installService).mux = s.mux := rfl
@[simp] theorem installService_bind : (s.installService).bind = s.bind := rfl
@[simp] theorem installService_pend : (s.installService).pend = s.pend := rfl
@[simp] theorem installService_irqEn : (s.installService).irqEn = s.irqEn := rfl
@[simp] theorem installService_main : (s.installService).main = s.main := rfl
@[simp] theorem installService_handlers : (s.installService).handlers = s.handlers := rfl
@[simp] theorem installService_ext : (s.installService).ext = s.ext := rfl
@[simp] theorem installService_log : (s.installService).log = s.log := rfl
@[simp] theorem installService_inputs : (s.installService).inputs = s.inputs := rfl
end

section
variable (s : State) (b : Bool)
@[simp] theorem setIrqEn_cfg : (s.setIrqEn b).cfg = s.cfg := rfl
@[simp] theorem setIrqEn_out : (s.setIrqEn b).out = s.out := rfl
@[simp] theorem setIrqEn_enable : (s.setIrqEn b).enable = s.enable := rfl
@[simp] theorem setIrqEn_inp : (s.setIrqEn b).inp = s.inp := rfl
@[simp] theorem setIrqEn_mux : (s.setIrqEn b).mux = s.mux := rfl
@[simp] theorem setIrqEn_bind : (s.setIrqEn b).bind = s.bind := rfl
@[simp] theorem setIrqEn_pend : (s.setIrqEn b).pend = s.pend := rfl
@[simp] theorem setIrqEn_svc : (s.setIrqEn b).svc = s.svc := rfl
@[simp] theorem setIrqEn_main : (s.setIrqEn b).main = s.main := rfl
@[simp] theorem setIrqEn_handlers : (s.setIrqEn b).handlers = s.handlers := rfl
@[simp] theorem setIrqEn_ext : (s.setIrqEn b).ext = s.ext := rfl
@[simp] theorem setIrqEn_log : (s.setIrqEn b).log = s.log := rfl
@[simp] theorem setIrqEn_inputs : (s.setIrqEn b).inputs = s.inputs := rfl
end

section
variable (s : State)
@[simp] theorem takeDraw_cfg : (takeDraw s).2.cfg = s.cfg := by unfold takeDraw; split <;> rfl
@[simp] theorem takeDraw_out : (takeDraw s).2.out = s.out := by unfold takeDraw; split <;> rfl
@[simp] theorem takeDraw_enable : (takeDraw s).2.enable = s.enable := by unfold takeDraw; split <;> rfl
@[simp] theorem takeDraw_inp : (takeDraw s).2.inp = s.inp := by unfold takeDraw; split <;> rfl
@[simp] theorem takeDraw_mux : (takeDraw s).2.mux = s.mux := by unfold takeDraw; split <;> rfl
@[simp] theorem takeDraw_bind : (takeDraw s).2.bind = s.bind := by unfold takeDraw; split <;> rfl
@[simp] theorem takeDraw_pend : (takeDraw s).2.pend = s.pend := by unfold takeDraw; split <;> rfl
@[simp] theorem takeDraw_svc : (takeDraw s).2.svc = s.svc := by unfold takeDraw; split <;> rfl
@[simp] theorem takeDraw_irqEn : (takeDraw s).2.irqEn = s.irqEn := by unfold takeDraw; split <;> rfl
@[simp] theorem takeDraw_main : (takeDraw s).2.main = s.main := by unfold takeDraw; split <;> rfl
@[simp] theorem takeDraw_handlers : (takeDraw s).2.handlers = s.handlers := by unfold takeDraw; split <;> rfl
@[simp] theorem takeDraw_ext : (takeDraw s).2.ext = s.ext := by unfold takeDraw; split <;> rfl
@[simp] theorem takeDraw_log : (takeDraw s).2.log = s.log := by unfold takeDraw; split <;> rfl
end

section
variable (s : State)
@[simp] theorem askIntCtl_cfg : (askIntCtl s).2.cfg = s.cfg := by unfold askIntCtl; split <;> rfl
@[simp] theorem askIntCtl_out : (askIntCtl s).2.out = s.out := by unfold askIntCtl; split <;> rfl
@[simp] theorem askIntCtl_enable : (askIntCtl s).2.enable = s.enable := by unfold askIntCtl; split <;> rfl
@[simp] theorem askIntCtl_inp : (askIntCtl s).2.inp = s.inp := by unfold askIntCtl; split <;> rfl
@[simp] theorem askIntCtl_mux : (askIntCtl s).2.mux = s.mux := by unfold askIntCtl; split <;> rfl
@[simp] theorem askIntCtl_bind : (askIntCtl s).2.bind = s.bind := by unfold askIntCtl; split <;> rfl
@[simp] theorem askIntCtl_pend : (askIntCtl s).2.pend = s.pend := by unfold askIntCtl; split <;> rfl
@[simp] theorem askIntCtl_svc : (askIntCtl s).2.svc = s.svc := by unfold askIntCtl; split <;> rfl
@[simp] theorem askIntCtl_irqEn : (askIntCtl s).2.irqEn = s.irqEn := by unfold askIntCtl; split <;> rfl
@[simp] theorem askIntCtl_main : (askIntCtl s).2.main = s.main := by unfold askIntCtl; split <;> rfl
@[simp] theorem askIntCtl_handlers : (askIntCtl s).2.handlers = s.handlers := by unfold askIntCtl; split <;> rfl
@[simp] theorem askIntCtl_ext : (askIntCtl s).2.ext = s.ext := by unfold askIntCtl; split <;> rfl
@[simp] theorem askIntCtl_log : (askIntCtl s).2.log = s.log := by unfold askIntCtl; split <;> rfl
end

section
variable (s : State) (p : Pin) (hid : Hid)
@[simp] theorem takeInterrupt_cfg : (takeInterrupt p hid s).cfg = s.cfg := rfl
@[simp] theorem takeInterrupt_out : (takeInterrupt p hid s).out = s.out := rfl
@[simp] theorem takeInterrupt_enable : (takeInterrupt p hid s).enable = s.enable := rfl
@[simp] theorem takeInterrupt_inp : (takeInterrupt p hid s).inp = s.inp := rfl
@[simp] theorem takeInterrupt_mux : (takeInterrupt p hid s).mux = s.mux := rfl
@[simp] theorem takeInterrupt_bind : (takeInterrupt p hid s).bind = s.bind := rfl
@[simp] theorem takeInterrupt_svc : (takeInterrupt p hid s).svc = s.svc := rfl
@[simp] theorem takeInterrupt_irqEn : (takeInterrupt p hid s).irqEn = s.irqEn := rfl
@[simp] theorem takeInterrupt_main : (takeInterrupt p hid s).main = s.main := rfl
@[simp] theorem takeInterrupt_ext : (takeInterrupt p hid s).ext = s.ext := rfl
@[simp] theorem takeInterrupt_inputs : (takeInterrupt p hid s).inputs = s.inputs := rfl
end

/-! ## The running frame -/

@[simp] theorem top_setTop (s : State) (f : Frame) : (s.setTop f).top = f := by
  cases h : s.handlers <;> simp [State.top, State.setTop, h]

@[simp] theorem setTop_setTop (s : State) (f g : Frame) : (s.setTop f).setTop g = s.setTop g := by
  cases h : s.handlers <;> simp [State.setTop, h]

@[simp] theorem setTop_top (s : State) : s.setTop s.top = s := by
  rcases s with ⟨_, _, _, _, _, _, _, _, _, _, _ | _, _, _, _⟩ <;> rfl

@[simp] theorem who_setTop (s : State) (f : Frame) : (s.setTop f).who = s.who := by
  cases h : s.handlers <;> simp [State.who, State.setTop, h]

@[simp] theorem length_handlers_setTop (s : State) (f : Frame) : (s.setTop f).handlers.length = s.handlers.length := by
  cases h : s.handlers <;> simp [State.setTop, h]

@[simp] theorem who_goOn (s : State) (i : Instr) (k : Nat) : (s.goOn i k).who = s.who := who_setTop _ _
@[simp] theorem who_finish (s : State) : s.finish.who = s.who := who_setTop _ _
@[simp] theorem who_setT (s : State) (w : Word) : (s.setT w).who = s.who := who_setTop _ _
@[simp] theorem who_setE (s : State) (w : Word) : (s.setE w).who = s.who := who_setTop _ _
@[simp] theorem who_setV (s : State) (w : Word) : (s.setV w).who = s.who := who_setTop _ _

@[simp] theorem top_goOn (s : State) (i : Instr) (k : Nat) :
    (s.goOn i k).top = { s.top with cur := some { instr := i, label := k } } := top_setTop _ _
@[simp] theorem top_finish (s : State) : s.finish.top = { s.top with cur := none } := top_setTop _ _
@[simp] theorem top_setT (s : State) (w : Word) : (s.setT w).top = { s.top with t := w } := top_setTop _ _
@[simp] theorem top_setE (s : State) (w : Word) : (s.setE w).top = { s.top with e := w } := top_setTop _ _
@[simp] theorem top_setV (s : State) (w : Word) : (s.setV w).top = { s.top with v := w } := top_setTop _ _
@[simp] theorem top_logEvent (s : State) (ev : Event) : (s.logEvent ev).top = s.top := rfl
@[simp] theorem who_logEvent (s : State) (ev : Event) : (s.logEvent ev).who = s.who := rfl
@[simp] theorem top_setMux (s : State) (p : Pin) (m : MuxReg) : (s.setMux p m).top = s.top := rfl
@[simp] theorem who_setMux (s : State) (p : Pin) (m : MuxReg) : (s.setMux p m).who = s.who := rfl
@[simp] theorem top_setBind (s : State) (p : Pin) (b : Binding) : (s.setBind p b).top = s.top := rfl
@[simp] theorem who_setBind (s : State) (p : Pin) (b : Binding) : (s.setBind p b).who = s.who := rfl
@[simp] theorem top_setBindState (s : State) (p : Pin) (x : BindState) : (s.setBindState p x).top = s.top := rfl
@[simp] theorem who_setBindState (s : State) (p : Pin) (x : BindState) : (s.setBindState p x).who = s.who := rfl
@[simp] theorem top_setPend (s : State) (p : Pin) (b : Bool) : (s.setPend p b).top = s.top := rfl
@[simp] theorem who_setPend (s : State) (p : Pin) (b : Bool) : (s.setPend p b).who = s.who := rfl
@[simp] theorem top_setExt (s : State) (p : Pin) (d : Drive) : (s.setExt p d).top = s.top := rfl
@[simp] theorem who_setExt (s : State) (p : Pin) (d : Drive) : (s.setExt p d).who = s.who := rfl
@[simp] theorem top_installService (s : State) : (s.installService).top = s.top := rfl
@[simp] theorem who_installService (s : State) : (s.installService).who = s.who := rfl
@[simp] theorem top_setIrqEn (s : State) (b : Bool) : (s.setIrqEn b).top = s.top := rfl
@[simp] theorem who_setIrqEn (s : State) (b : Bool) : (s.setIrqEn b).who = s.who := rfl
@[simp] theorem top_takeDraw (s : State) : (takeDraw s).2.top = s.top := by unfold takeDraw; split <;> rfl
@[simp] theorem who_takeDraw (s : State) : (takeDraw s).2.who = s.who := by unfold takeDraw; split <;> rfl
@[simp] theorem top_askIntCtl (s : State) : (askIntCtl s).2.top = s.top := by unfold askIntCtl; split <;> rfl
@[simp] theorem who_askIntCtl (s : State) : (askIntCtl s).2.who = s.who := by unfold askIntCtl; split <;> rfl

/-- A frame with no request in progress is already finished. -/
theorem finish_of_idle {s : State} (h : s.top.cur = none) : s.finish = s := by
  have : ({ s.top with cur := none } : Frame) = s.top := by rw [← h]
  rw [State.finish, this, setTop_top]

/-- `takeInterrupt` puts the handler's frame on top, its body as its program (R165). -/
@[simp] theorem top_takeInterrupt (s : State) (p : Pin) (hid : Hid) :
    (takeInterrupt p hid s).top = Frame.idle (handlerBody s.cfg hid p) := rfl

/-! ## Written fields -/

@[simp] theorem logEvent_log (s : State) (ev : Event) : (s.logEvent ev).log = s.log ++ [ev] := rfl
@[simp] theorem setIrqEn_irqEn (s : State) (b : Bool) : (s.setIrqEn b).irqEn = b := rfl
@[simp] theorem installService_svc (s : State) : s.installService.svc = true := rfl
@[simp] theorem takeInterrupt_pend (s : State) (p : Pin) (hid : Hid) :
    (takeInterrupt p hid s).pend = (s.setPend p false).pend := rfl
@[simp] theorem takeInterrupt_log (s : State) (p : Pin) (hid : Hid) :
    (takeInterrupt p hid s).log = s.log ++ [.invoke hid p] := rfl
@[simp] theorem takeInterrupt_handlers (s : State) (p : Pin) (hid : Hid) :
    (takeInterrupt p hid s).handlers =
      { hid := hid, pin := p, frame := Frame.idle (handlerBody s.cfg hid p) } :: s.handlers := rfl

/-! ## The tables: read after write -/

theorem muxAt_congr {s s' : State} (h : s'.mux = s.mux) (p : Pin) : s'.muxAt p = s.muxAt p := by
  simp [State.muxAt, h]

theorem bindAt_congr {s s' : State} (h : s'.bind = s.bind) (p : Pin) : s'.bindAt p = s.bindAt p := by
  simp [State.bindAt, h]

theorem pendAt_congr {s s' : State} (h : s'.pend = s.pend) (p : Pin) : s'.pendAt p = s.pendAt p := by
  simp [State.pendAt, h]

theorem extAt_congr {s s' : State} (h : s'.ext = s.ext) (p : Pin) : s'.extAt p = s.extAt p := by
  simp [State.extAt, h]

/-- Reading a table after a write in bounds. -/
theorem getD_setIfInBounds {α : Type} {n : Nat} (v : Vector α n) (i j : Nat) (x d : α) :
    (v.setIfInBounds i x)[j]?.getD d = if j = i ∧ i < n then x else v[j]?.getD d := by
  by_cases hi : i < n
  · by_cases h : j = i
    · subst h; simp [hi]
    · have : ¬ i = j := fun e => h e.symm
      simp [h, this]
  · by_cases h : j = i
    · subst h
      simp [hi]
    · have : ¬ i = j := fun e => h e.symm
      simp [h, this]

theorem muxAt_setMux (s : State) (p q : Pin) (m : MuxReg) : (s.setMux p m).muxAt q = if q = p then m else s.muxAt q := by
  simp only [State.muxAt, State.setMux, getD_setIfInBounds, BitVec.toNat_inj]
  have := p.isLt
  by_cases h : q = p <;> simp [h] <;> omega

theorem bindAt_setBind (s : State) (p q : Pin) (b : Binding) :
    (s.setBind p b).bindAt q = if q = p ∧ p.toNat < 32 then b else s.bindAt q := by
  simp only [State.bindAt, State.setBind, getD_setIfInBounds, BitVec.toNat_inj]

theorem pendAt_setPend (s : State) (p q : Pin) (b : Bool) :
    (s.setPend p b).pendAt q = if q = p ∧ p.toNat < 32 then b else s.pendAt q := by
  simp only [State.pendAt, State.setPend, getD_setIfInBounds, BitVec.toNat_inj]

theorem extAt_setExt (s : State) (p q : Pin) (d : Drive) :
    (s.setExt p d).extAt q = if q = p ∧ p.toNat < 32 then d else s.extAt q := by
  simp only [State.extAt, State.setExt, getD_setIfInBounds, BitVec.toNat_inj]

/-- The binding after a change of its state. -/
theorem bindAt_setBindState (s : State) (p q : Pin) (x : BindState) :
    (s.setBindState p x).bindAt q =
      if q = p ∧ p.toNat < 32 then { s.bindAt p with state := x } else s.bindAt q := bindAt_setBind _ _ _ _

end Sys2Proof.Machine
end

