-- ==== Sys2Proof/Laws/Ops.lean ====
section
/-! SUPPORT. One lemma per shared operation: what a bus transaction, a step of a sequence and an interrupt can do. -/

namespace Sys2Proof.Machine

/-! ## Bus transactions -/

theorem memRead_of_readReg {s : State} {a : Word} {r : Reg} {x : Word × State} (h : regAt s.cfg a = some r)
    (hr : readReg r s = some x) : memRead a s = .ok (x.1, x.2.logEvent (.txn s.who .read a x.1)) := by
  simp [memRead, h, hr]

theorem memWrite_of_writeReg {s s' : State} {a w : Word} {r : Reg} (h : regAt s.cfg a = some r)
    (hr : writeReg r w s = some s') : memWrite a w s = .ok (s'.logEvent (.txn s.who .write a w)) := by
  simp [memWrite, h, hr]

/-- A read of a write-only port or of an unmapped address faults (R77). -/
theorem memRead_fault {s : State} {a : Word}
    (h : disc s.cfg a = none ∨ disc s.cfg a = some .setOnly ∨ disc s.cfg a = some .clearOnly) :
    memRead a s = .error (.badAccess a .read) := by
  unfold disc at h
  cases hr : regAt s.cfg a with
  | none => simp [memRead, hr]
  | some r => cases r <;> simp [hr, discipline] at h <;> simp [memRead, hr, readReg]

/-- A write of the read-only register or of an unmapped address faults (R77). -/
theorem memWrite_fault {s : State} {a w : Word} (h : disc s.cfg a = none ∨ disc s.cfg a = some .readOnly) :
    memWrite a w s = .error (.badAccess a .write) := by
  unfold disc at h
  cases hr : regAt s.cfg a with
  | none => simp [memWrite, hr]
  | some r => cases r <;> simp [hr, discipline] at h <;> simp [memWrite, hr, writeReg]

/-- A read of a direct or read-only register answers (R64). -/
theorem memRead_ok {s : State} {a : Word} (h : disc s.cfg a = some .direct ∨ disc s.cfg a = some .readOnly) :
    ∃ x, memRead a s = .ok x := by
  unfold disc at h
  cases hr : regAt s.cfg a with
  | none => simp [hr] at h
  | some r => cases r <;> simp [hr, discipline] at h <;> simp [memRead, hr, readReg]

/-- A write of a direct, set-only or clear-only register answers (R65). -/
theorem memWrite_ok {s : State} {a : Word} (w : Word)
    (h : disc s.cfg a = some .direct ∨ disc s.cfg a = some .setOnly ∨ disc s.cfg a = some .clearOnly) :
    ∃ s', memWrite a w s = .ok s' := by
  unfold disc at h
  cases hr : regAt s.cfg a with
  | none => simp [hr] at h
  | some r => cases r <;> simp [hr, discipline] at h <;> simp [memWrite, hr, writeReg]

/-- What no bus transaction changes: all but `OUT`, `ENABLE`, `MUX`, `LOG` and the draws used. -/
structure BusOnly (s s' : State) : Prop where
  cfg : s'.cfg = s.cfg
  inp : s'.inp = s.inp
  bind : s'.bind = s.bind
  pend : s'.pend = s.pend
  svc : s'.svc = s.svc
  irqEn : s'.irqEn = s.irqEn
  main : s'.main = s.main
  handlers : s'.handlers = s.handlers
  ext : s'.ext = s.ext
  sched : s'.inputs.sched = s.inputs.sched
  answers : s'.inputs.answers = s.inputs.answers

theorem BusOnly.top {s s' : State} (h : BusOnly s s') : s'.top = s.top := by
  simp [State.top, h.main, h.handlers]

theorem BusOnly.who {s s' : State} (h : BusOnly s s') : s'.who = s.who := by
  simp [State.who, h.handlers]

theorem takeDraw_sched (s : State) : (takeDraw s).2.inputs.sched = s.inputs.sched := by
  unfold takeDraw; split <;> rfl

theorem takeDraw_answers (s : State) : (takeDraw s).2.inputs.answers = s.inputs.answers := by
  unfold takeDraw; split <;> rfl

theorem askIntCtl_sched (s : State) : (askIntCtl s).2.inputs.sched = s.inputs.sched := by
  unfold askIntCtl; split <;> rfl

/-- A read transaction: one event logged, no register changed (R64, R81). -/
theorem memRead_busOnly {s : State} {a : Word} {x : Word × State} (h : memRead a s = .ok x) :
    BusOnly s x.2 ∧ x.2.out = s.out ∧ x.2.enable = s.enable ∧ x.2.mux = s.mux ∧
      x.2.log = s.log ++ [.txn s.who .read a x.1] := by
  unfold memRead at h
  split at h
  · rename_i y hy
    cases h
    obtain ⟨r, hr, hrr⟩ := Option.bind_eq_some_iff.1 hy
    cases r <;> simp [readReg] at hrr <;> subst hrr <;>
      exact ⟨by constructor <;> simp [takeDraw_sched, takeDraw_answers], by simp⟩
  · cases h

/-- A write transaction: one event logged, nothing but `OUT`, `ENABLE` or one IO-MUX register changed (R65). -/
theorem memWrite_busOnly {s s' : State} {a w : Word} (h : memWrite a w s = .ok s') :
    BusOnly s s' ∧ s'.inputs = s.inputs ∧ s'.log = s.log ++ [.txn s.who .write a w] := by
  unfold memWrite at h
  split at h
  · rename_i y hy
    cases h
    obtain ⟨r, hr, hrr⟩ := Option.bind_eq_some_iff.1 hy
    cases r <;> simp [writeReg] at hrr <;> subst hrr <;> exact ⟨by constructor <;> rfl, rfl, rfl⟩
  · cases h

/-! ## The IO-MUX register at a pin's address -/

theorem disc_muxAddr {c : Config} (h : c.wellFormed = true) {p : Pin} (hp : muxValid c p = true) :
    disc c (muxAddr c p) = some .direct := by
  simp [disc, regAt_muxAddr h hp, discipline]

/-- Reading a pin's IO-MUX register (R75). -/
theorem memRead_mux {s : State} (h : s.cfg.wellFormed = true) {p : Pin} (hp : muxValid s.cfg p = true) :
    memRead (muxAddr s.cfg p) s = .ok (muxWord s.cfg.muxf (s.muxAt p) (takeDraw s).1,
      (takeDraw s).2.logEvent
        (.txn s.who .read (muxAddr s.cfg p) (muxWord s.cfg.muxf (s.muxAt p) (takeDraw s).1))) :=
  memRead_of_readReg (regAt_muxAddr h hp) rfl

/-- Writing a pin's IO-MUX register (R76). -/
theorem memWrite_mux {s : State} (h : s.cfg.wellFormed = true) {p : Pin} (hp : muxValid s.cfg p = true) (w : Word) :
    memWrite (muxAddr s.cfg p) w s =
      .ok ((s.setMux p (muxFields s.cfg.muxf w)).logEvent (.txn s.who .write (muxAddr s.cfg p) w)) :=
  memWrite_of_writeReg (regAt_muxAddr h hp) rfl

/-! ## Sequences -/

theorem labelOf_idle {s : State} (h : s.top.cur = none) (i : Instr) : s.labelOf i = 0 := by
  simp [State.labelOf, h]

theorem labelOf_at {s : State} {i : Instr} {k : Nat} (h : s.top.cur = some { instr := i, label := k }) :
    s.labelOf i = k := by
  simp [State.labelOf, h]

/-- The step at a known label. -/
theorem runSteps_eq {i : Instr} {steps : List StepFn} {s : State} {k : Nat} {f : StepFn} (hk : s.labelOf i = k)
    (hf : steps[k]? = some f) : runSteps i steps s = settle i k (f s) := by
  simp [runSteps, hk, hf]

/-- What a sequence's step can do, said once: it is some step of the sequence, and it ends in one of four ways. -/
theorem runSteps_cases {i : Instr} {steps : List StepFn} {s t : State} (h : runSteps i steps s = .next t) :
    ∃ f, steps[s.labelOf i]? = some f ∧
      ((∃ s', f s = .go s' ∧ t = s'.goOn i (s.labelOf i + 1)) ∨ (∃ s', f s = .ret none s' ∧ t = s'.finish) ∨
        (∃ s' r, f s = .ret (some r) s' ∧ t = s'.finish.logEvent (.result s'.who r))) := by
  unfold runSteps at h
  split at h
  · rename_i f hf
    refine ⟨f, hf, ?_⟩
    cases hs : f s with
    | go s' => simp only [hs, settle] at h; cases h; exact .inl ⟨s', rfl, rfl⟩
    | ret r s' =>
      cases r with
      | none => simp only [hs, settle] at h; cases h; exact .inr (.inl ⟨s', rfl, rfl⟩)
      | some r => simp only [hs, settle] at h; cases h; exact .inr (.inr ⟨s', r, rfl, rfl⟩)
    | fault f => simp [hs, settle] at h
    | refuse r => simp [hs, settle] at h
  · cases h

theorem loadStep_eq {a : Word} {keep : State → Word → State} {s : State} {x : Word × State} (h : memRead a s = .ok x) :
    loadStep a keep s = .go (keep x.2 x.1) := by
  simp [loadStep, h]

theorem storeStep_eq {a w : Word} {s s' : State} (h : memWrite a w s = .ok s') : storeStep a w s = .go s' := by
  simp [storeStep, h]

end Sys2Proof.Machine
end

