-- ==== Sys2Proof/Laws/Exec.lean ====
section
/-! SUPPORT. What one atomic step of an operation can change, said once for every operation, and what exec can. -/

namespace Sys2Proof.Machine

/-! ## The state a step leaves -/

/-- The step ends in `s'`, whether its operation goes on or is over. -/
def StepEnd.Leaves : StepEnd → State → Prop
  | .go s, s' => s = s'
  | .ret _ s, s' => s = s'
  | .fault _, _ => False
  | .refuse _, _ => False

/-- What no atomic step of an operation but `HRET` changes, and what its one transaction may. -/
structure StepKeeps (s s' : State) : Prop where
  cfg : s'.cfg = s.cfg
  inp : s'.inp = s.inp
  ext : s'.ext = s.ext
  sched : s'.inputs.sched = s.inputs.sched
  who : s'.who = s.who
  cur : s'.top.cur = s.top.cur
  prog : s'.top.prog = s.top.prog
  shape : s'.handlers.map (fun h => (h.hid, h.pin)) = s.handlers.map (fun h => (h.hid, h.pin))
  tail : s'.handlers.tail = s.handlers.tail
  main : s.handlers ≠ [] → s'.main = s.main
  svc : s.svc = true → s'.svc = true
  log : s'.log = s.log ∨ ∃ d a w, s'.log = s.log ++ [.txn s.who d a w]
  out : s'.out = s.out ∨
    ∃ w, ∃ off ∈ [(0x04 : Word), 0x08, 0x0C], s'.log = s.log ++ [.txn s.who .write (s.cfg.bG + off) w]
  enable : s'.enable = s.enable ∨
    ∃ w, ∃ off ∈ [(0x20 : Word), 0x24, 0x28], s'.log = s.log ++ [.txn s.who .write (s.cfg.bG + off) w]

/-- Every state a step function leaves keeps that. -/
def Keeps (f : StepFn) : Prop := ∀ s s', (f s).Leaves s' → StepKeeps s s'

theorem StepKeeps.refl (s : State) : StepKeeps s s :=
  ⟨rfl, rfl, rfl, rfl, rfl, rfl, rfl, rfl, rfl, fun _ => rfl, id, .inl rfl, .inl rfl, .inl rfl⟩

/-- A step that only changes the registry, the flags and the answers used. -/
theorem StepKeeps.of_registry {s s' : State} (cfg : s'.cfg = s.cfg) (inp : s'.inp = s.inp) (ext : s'.ext = s.ext)
    (sched : s'.inputs.sched = s.inputs.sched) (main : s'.main = s.main) (handlers : s'.handlers = s.handlers)
    (svc : s.svc = true → s'.svc = true) (log : s'.log = s.log) (out : s'.out = s.out)
    (enable : s'.enable = s.enable) : StepKeeps s s' :=
  ⟨cfg, inp, ext, sched, by simp [State.who, handlers], by simp [State.top, main, handlers],
    by simp [State.top, main, handlers], by rw [handlers], by rw [handlers], fun _ => main, svc, .inl log, .inl out,
    .inl enable⟩

/-- A change of the running frame's temporaries on top of it. -/
theorem StepKeeps.setTop {s s' : State} (h : StepKeeps s s') (f : Frame) (hc : f.cur = s'.top.cur)
    (hp : f.prog = s'.top.prog) : StepKeeps s (s'.setTop f) :=
  ⟨h.cfg, h.inp, h.ext, h.sched, by rw [who_setTop, h.who], by rw [top_setTop, hc, h.cur],
    by rw [top_setTop, hp, h.prog],
    by rw [← h.shape]; cases hh : s'.handlers <;> simp [State.setTop, hh],
    by rw [← h.tail]; cases hh : s'.handlers <;> simp [State.setTop, hh],
    fun hne => by
      rw [← h.main hne]
      have hs := h.shape
      cases hh : s'.handlers with
      | nil => rw [hh] at hs; exact absurd (List.map_eq_nil_iff.1 hs.symm) hne
      | cons => simp [State.setTop, hh],
    h.svc, h.log, h.out, h.enable⟩

/-! ## The transactions -/

/-- The only addresses of the GPIO registers (R55). -/
theorem addr_of_gpioReg {c : Config} {a off : Word} (h : a - c.bG = off) : a = c.bG + off := by
  rw [← h, BitVec.add_comm, BitVec.sub_add_cancel]

theorem regAt_gpio {c : Config} {a : Word} {r : Reg} (h : regAt c a = some r) (hm : ∀ p, r ≠ .mux p) :
    gpioReg (a - c.bG) = some r := by
  unfold regAt at h
  split at h
  · simp_all
  · cases hp : pinOf c a with
    | none => simp [hp] at h
    | some p => simp [hp] at h; exact absurd h.symm (hm p)

theorem offset_of_gpioReg {d : Word} {r : Reg} (h : gpioReg d = some r) :
    (r = .out ∧ d = 0x04) ∨ (r = .outSet ∧ d = 0x08) ∨ (r = .outClear ∧ d = 0x0C) ∨ (r = .enable ∧ d = 0x20) ∨
      (r = .enableSet ∧ d = 0x24) ∨ (r = .enableClear ∧ d = 0x28) ∨ (r = .inp ∧ d = 0x3C) := by
  unfold gpioReg at h
  repeat' split at h
  all_goals first | cases h; simp_all | simp at h

theorem StepKeeps.of_read {s : State} {a : Word} {x : Word × State} (h : memRead a s = .ok x) : StepKeeps s x.2 := by
  obtain ⟨b, ho, he, -, hl⟩ := memRead_busOnly h
  exact ⟨b.cfg, b.inp, b.ext, b.sched, b.who, by rw [b.top], by rw [b.top], by rw [b.handlers], by rw [b.handlers],
    fun _ => b.main, fun hs => b.svc ▸ hs, .inr ⟨_, _, _, hl⟩, .inl ho, .inl he⟩

theorem StepKeeps.of_write {s s' : State} {a w : Word} (h : memWrite a w s = .ok s') : StepKeeps s s' := by
  obtain ⟨b, -, hl⟩ := memWrite_busOnly h
  have hoe : (s'.out = s.out ∨
      ∃ w, ∃ off ∈ [(0x04 : Word), 0x08, 0x0C], s'.log = s.log ++ [.txn s.who .write (s.cfg.bG + off) w]) ∧
      (s'.enable = s.enable ∨
      ∃ w, ∃ off ∈ [(0x20 : Word), 0x24, 0x28], s'.log = s.log ++ [.txn s.who .write (s.cfg.bG + off) w]) := by
    rw [hl]
    unfold memWrite at h
    split at h
    · rename_i y hy
      cases h
      obtain ⟨r, hr, hrr⟩ := Option.bind_eq_some_iff.1 hy
      by_cases hm : ∃ p, r = .mux p
      · obtain ⟨p, rfl⟩ := hm
        simp only [writeReg, Option.some.injEq] at hrr
        subst hrr
        exact ⟨.inl rfl, .inl rfl⟩
      · have hg := offset_of_gpioReg (regAt_gpio hr (fun p e => hm ⟨p, e⟩))
        rcases hg with ⟨rfl, hd⟩ | ⟨rfl, hd⟩ | ⟨rfl, hd⟩ | ⟨rfl, hd⟩ | ⟨rfl, hd⟩ | ⟨rfl, hd⟩ | ⟨rfl, hd⟩ <;>
          simp only [writeReg, Option.some.injEq, reduceCtorEq] at hrr <;>
          subst hrr <;> rw [addr_of_gpioReg hd] <;>
          first
          | exact ⟨.inr ⟨w, _, by simp, rfl⟩, .inl rfl⟩
          | exact ⟨.inl rfl, .inr ⟨w, _, by simp, rfl⟩⟩
    · cases h
  exact ⟨b.cfg, b.inp, b.ext, b.sched, b.who, by rw [b.top], by rw [b.top], by rw [b.handlers], by rw [b.handlers],
    fun _ => b.main, fun hs => b.svc ▸ hs, .inr ⟨_, _, _, hl⟩, hoe.1, hoe.2⟩

/-! ## The step functions -/

theorem Keeps.load {a : Word} {keep : State → Word → State}
    (hk : ∀ s w, ∃ f : Frame, keep s w = s.setTop f ∧ f.cur = s.top.cur ∧ f.prog = s.top.prog) :
    Keeps (loadStep a keep) := by
  intro s s' h
  unfold loadStep at h
  split at h
  · rename_i x hx
    obtain ⟨f, hf, hc, hp⟩ := hk x.2 x.1
    have : keep x.2 x.1 = s' := h
    rw [← this, hf]
    exact (StepKeeps.of_read hx).setTop f hc hp
  · exact h.elim

theorem Keeps.loadT (a : Word) : Keeps (loadStep a State.setT) := Keeps.load fun _ _ => ⟨_, rfl, rfl, rfl⟩

theorem Keeps.loadE (a : Word) : Keeps (loadStep a State.setE) := Keeps.load fun _ _ => ⟨_, rfl, rfl, rfl⟩

theorem Keeps.loadOnly (a : Word) : Keeps (loadStep a (fun s _ => s)) :=
  Keeps.load fun s _ => ⟨s.top, (setTop_top s).symm, rfl, rfl⟩

theorem Keeps.store (a w : Word) : Keeps (storeStep a w) := by
  intro s s' h
  unfold storeStep at h
  split at h
  · rename_i x hx
    cases h
    exact StepKeeps.of_write hx
  · exact h.elim

theorem Keeps.storeOf (a : Word) (g : State → Word) : Keeps (fun s => storeStep a (g s) s) :=
  fun s s' h => Keeps.store a (g s) s s' h

theorem Keeps.endWith {r : Option Result} {f : StepFn} (h : Keeps f) : Keeps (endWith r f) := by
  intro s s' hs
  apply h
  unfold Machine.endWith at hs
  cases hf : f s <;> simp only [hf] at hs <;> exact hs

/-- Every step of a sequence keeps it. -/
def AllKeep (fs : List StepFn) : Prop := ∀ f ∈ fs, Keeps f

theorem AllKeep.append {fs gs : List StepFn} (hf : AllKeep fs) (hg : AllKeep gs) : AllKeep (fs ++ gs) := by
  intro f h
  rcases List.mem_append.1 h with h | h
  · exact hf f h
  · exact hg f h

theorem AllKeep.cons {f : StepFn} {fs : List StepFn} (hf : Keeps f) (hs : AllKeep fs) : AllKeep (f :: fs) := by
  intro g h
  rcases List.mem_cons.1 h with rfl | h
  · exact hf
  · exact hs g h

theorem AllKeep.nil : AllKeep [] := fun _ h => by cases h

theorem AllKeep.lastEnds {r : Option Result} : ∀ {fs : List StepFn}, AllKeep fs → AllKeep (lastEnds r fs)
  | [], _ => AllKeep.nil
  | [f], h => AllKeep.cons (h f (by simp)).endWith AllKeep.nil
  | f :: g :: fs, h =>
    AllKeep.cons (h f (by simp)) (AllKeep.lastEnds (fs := g :: fs) fun x hx => h x (List.mem_cons_of_mem _ hx))

theorem AllKeep.rmw (a : Word) (f : Word → Word) : AllKeep (rmw a f) :=
  AllKeep.cons (Keeps.loadT a) (AllKeep.cons (Keeps.storeOf a _) AllKeep.nil)

/-- A step that leaves the state as it was. -/
theorem Keeps.same {f : StepFn} (h : ∀ s s', (f s).Leaves s' → s' = s) : Keeps f := fun s s' hs =>
  h s s' hs ▸ StepKeeps.refl s

/-! ## exec -/

/-- What one step of an operation but `HRET` leaves: a state that keeps all that, with only the request in progress and
the result besides. -/
theorem exec_keeps {i : Instr} {steps : List StepFn} {s t : State} (hk : AllKeep steps)
    (h : runSteps i steps s = .next t) :
    ∃ s', StepKeeps s s' ∧ (t = s'.goOn i (s.labelOf i + 1) ∨ t = s'.finish ∨
      ∃ r, t = s'.finish.logEvent (.result s'.who r)) := by
  obtain ⟨f, hf, h⟩ := runSteps_cases h
  have hm := hk f (List.mem_of_getElem? hf)
  rcases h with ⟨s', hs, rfl⟩ | ⟨s', hs, rfl⟩ | ⟨s', r, hs, rfl⟩
  · exact ⟨s', hm s s' (by rw [hs]; rfl), .inl rfl⟩
  · exact ⟨s', hm s s' (by rw [hs]; rfl), .inr (.inl rfl)⟩
  · exact ⟨s', hm s s' (by rw [hs]; rfl), .inr (.inr ⟨r, rfl⟩)⟩

/-! ## The sequences -/

/-- A step that answers without a transaction and leaves the state alone, or stops. -/
theorem Keeps.check {f : StepFn} (h : ∀ s, f s = .go s ∨ (∃ r, f s = .ret r s) ∨ (∃ x, f s = .fault x) ∨
    ∃ x, f s = .refuse x) : Keeps f := Keeps.same fun s s' hs => by
  rcases h s with h | ⟨r, h⟩ | ⟨x, h⟩ | ⟨x, h⟩ <;> rw [h] at hs <;> first | exact hs.symm | exact hs.elim

theorem Keeps.initCheck (p : Pin) (arg : BitVec 4) : Keeps (initCheck p arg) := Keeps.check fun s => by
  unfold Machine.initCheck
  repeat' split
  all_goals simp

theorem Keeps.writeCheck (p : Pin) (arg : BitVec 4) : Keeps (writeCheck p arg) := Keeps.check fun s => by
  unfold Machine.writeCheck
  repeat' split
  all_goals simp

theorem Keeps.readCheck (p : Pin) : Keeps (readCheck p) := Keeps.check fun s => by
  unfold Machine.readCheck
  split <;> simp

theorem Keeps.pullCheck (p : Pin) : Keeps (pullCheck p) := Keeps.check fun s => by
  unfold Machine.pullCheck
  split <;> simp

theorem Keeps.regReadStep (a : Word) : Keeps (regReadStep a) := by
  intro s s' h
  unfold Machine.regReadStep at h
  split at h
  · rename_i x hx
    cases h
    exact StepKeeps.of_read hx
  · exact h.elim

theorem Keeps.readLevel (p : Pin) : Keeps (readLevel p) := by
  intro s s' h
  unfold Machine.readLevel at h
  split at h
  · rename_i x hx
    cases h
    exact (StepKeeps.of_read hx).setTop _ rfl rfl
  · exact h.elim

theorem AllKeep.routeSteps (c : Config) (p : Pin) : AllKeep (routeSteps c p) :=
  (AllKeep.rmw _ _).append (AllKeep.rmw _ _)

theorem AllKeep.pullSteps (c : Config) (p : Pin) (m m' : Word) : AllKeep (pullSteps c p m m') :=
  (AllKeep.rmw _ _).append (AllKeep.rmw _ _)

theorem AllKeep.initSteps (c : Config) (p : Pin) (arg : BitVec 4) : AllKeep (initSteps c p arg) :=
  AllKeep.cons (Keeps.initCheck p arg)
    (AllKeep.lastEnds (AllKeep.cons (Keeps.store _ _) (AllKeep.routeSteps c p)))

theorem AllKeep.writeSteps (c : Config) (p : Pin) (arg : BitVec 4) : AllKeep (writeSteps c p arg) :=
  AllKeep.cons (Keeps.writeCheck p arg) (AllKeep.cons (Keeps.store _ _).endWith AllKeep.nil)

theorem AllKeep.readSteps (c : Config) (p : Pin) : AllKeep (readSteps c p) :=
  AllKeep.cons (Keeps.readCheck p) (AllKeep.cons (Keeps.loadE _) (AllKeep.cons (Keeps.readLevel p) AllKeep.nil))

theorem AllKeep.setBitsSteps (c : Config) (a m : Word) : AllKeep (setBitsSteps c a m) := by
  unfold Machine.setBitsSteps
  split
  · exact AllKeep.lastEnds (AllKeep.cons (Keeps.store _ _) AllKeep.nil)
  · exact AllKeep.lastEnds (AllKeep.rmw _ _)
  all_goals exact AllKeep.cons (Keeps.check fun s => by simp) AllKeep.nil

theorem AllKeep.clearBitsSteps (c : Config) (a m : Word) : AllKeep (clearBitsSteps c a m) := by
  unfold Machine.clearBitsSteps
  split
  · exact AllKeep.lastEnds (AllKeep.cons (Keeps.store _ _) AllKeep.nil)
  · exact AllKeep.lastEnds (AllKeep.rmw _ _)
  all_goals exact AllKeep.cons (Keeps.check fun s => by simp) AllKeep.nil

/-- A change of one pin's binding. -/
theorem StepKeeps.setBind {s s' : State} (h : StepKeeps s s') (p : Pin) (b : Binding) : StepKeeps s (s'.setBind p b) :=
  ⟨h.cfg, h.inp, h.ext, h.sched, h.who, h.cur, h.prog, h.shape, h.tail, h.main, h.svc, h.log, h.out, h.enable⟩

theorem StepKeeps.setPend {s s' : State} (h : StepKeeps s s') (p : Pin) (b : Bool) : StepKeeps s (s'.setPend p b) :=
  ⟨h.cfg, h.inp, h.ext, h.sched, h.who, h.cur, h.prog, h.shape, h.tail, h.main, h.svc, h.log, h.out, h.enable⟩

theorem StepKeeps.installService {s s' : State} (h : StepKeeps s s') : StepKeeps s s'.installService :=
  ⟨h.cfg, h.inp, h.ext, h.sched, h.who, h.cur, h.prog, h.shape, h.tail, h.main, fun _ => rfl, h.log, h.out, h.enable⟩

theorem StepKeeps.setIrqEn (s : State) (b : Bool) : StepKeeps s (s.setIrqEn b) :=
  StepKeeps.of_registry rfl rfl rfl rfl rfl rfl id rfl rfl rfl

theorem StepKeeps.askIntCtl (s : State) : StepKeeps s (askIntCtl s).2 :=
  StepKeeps.of_registry (by simp) (by simp) (by simp) (askIntCtl_sched s) (by simp) (by simp) (by simp) (by simp)
    (by simp) (by simp)

theorem Keeps.configCheck (p : Pin) : Keeps (configCheck p) := by
  intro s s' h
  unfold Machine.configCheck at h
  split at h <;> cases h
  · exact (StepKeeps.refl s).setBind _ _
  · exact StepKeeps.refl s

theorem Keeps.configEdge (p : Pin) (arg : BitVec 4) : Keeps (configEdge p arg) := by
  intro s s' h
  unfold Machine.configEdge at h
  split at h <;> cases h <;> exact (StepKeeps.refl s).setBind _ _

theorem Keeps.configService (p : Pin) : Keeps (configService p) := by
  intro s s' h
  unfold Machine.configService at h
  repeat' split at h
  all_goals cases h
  · exact StepKeeps.refl s
  · exact (StepKeeps.askIntCtl s).installService
  · exact (StepKeeps.askIntCtl s).setBind _ _

theorem Keeps.configAttach (p : Pin) (hid : Hid) : Keeps (configAttach p hid) := by
  intro s s' h
  unfold Machine.configAttach at h
  split at h <;> cases h
  · exact ((StepKeeps.askIntCtl s).setBind _ _).setPend _ _
  · exact (StepKeeps.askIntCtl s).setBind _ _

theorem AllKeep.configSteps (c : Config) (p : Pin) (arg : BitVec 4) (hid : Hid) : AllKeep (configSteps c p arg hid) :=
  AllKeep.cons (Keeps.configCheck p) (AllKeep.cons (Keeps.store _ _)
    (((AllKeep.routeSteps c p).append (AllKeep.pullSteps c p _ _)).append
      (AllKeep.cons (Keeps.configEdge p arg) (AllKeep.cons (Keeps.configService p)
        (AllKeep.cons (Keeps.configAttach p hid) AllKeep.nil)))))

theorem Keeps.excludeStep (p : Pin) : Keeps (excludeStep p) := by
  intro s s' h
  unfold Machine.excludeStep detachHandler at h
  repeat' split at h
  all_goals cases h
  · exact ((StepKeeps.refl s).setBind _ _).setPend _ _
  all_goals exact StepKeeps.refl s

/-! ## exec -/

/-- The sequence of every operation but `HRET`, which is not a sequence of steps within a frame. -/
def stepsOf (c : Config) : Instr → List StepFn
  | .rdOut => lastEnds none [loadStep (gpioAddr c 0x04) (fun s _ => s)]
  | .wrOut v => lastEnds none [storeStep (gpioAddr c 0x04) v]
  | .wrOutSet v => lastEnds none [storeStep (gpioAddr c 0x08) v]
  | .wrOutClear v => lastEnds none [storeStep (gpioAddr c 0x0C) v]
  | .rdEnable => lastEnds none [loadStep (gpioAddr c 0x20) (fun s _ => s)]
  | .wrEnable v => lastEnds none [storeStep (gpioAddr c 0x20) v]
  | .wrEnableSet v => lastEnds none [storeStep (gpioAddr c 0x24) v]
  | .wrEnableClear v => lastEnds none [storeStep (gpioAddr c 0x28) v]
  | .rdIn => lastEnds none [loadStep (gpioAddr c 0x3C) (fun s _ => s)]
  | .rdMux off => lastEnds none [loadStep (iomuxAddrOf c off) (fun s _ => s)]
  | .wrMux off v => lastEnds none [storeStep (iomuxAddrOf c off) v]
  | .regRead a => [regReadStep a]
  | .setBits a m => setBitsSteps c a m
  | .clearBits a m => clearBitsSteps c a m
  | .gpioBit p => [fun s => .ret (some (gpioBitResult s.cfg p)) s]
  | .iomuxAddr p => [fun s => .ret (some (iomuxAddrResult s.cfg p)) s]
  | .init p arg => initSteps c p arg
  | .write p arg => writeSteps c p arg
  | .read p => readSteps c p
  | .enablePullup p => pullCheck p :: lastEnds none (pullSteps c p (puMask c) (pdMask c))
  | .enablePulldown p => pullCheck p :: lastEnds none (pullSteps c p (pdMask c) (puMask c))
  | .configInterruption p arg hid => configSteps c p arg hid
  | .excludeInterruption p => [excludeStep p]
  | .irqDisable => [fun s => .ret none (s.setIrqEn false)]
  | .irqEnable => [fun s => .ret none (s.setIrqEn true)]
  | .hret => []

/-- Every arm of exec but `HRET`'s runs its sequence. -/
theorem exec_eq {i : Instr} (hi : i ≠ .hret) (s : State) : exec i s = runSteps i (stepsOf s.cfg i) s := by
  cases i <;> first | rfl | exact absurd rfl hi

theorem allKeep_stepsOf (c : Config) (i : Instr) : AllKeep (stepsOf c i) := by
  have one : ∀ f : StepFn, Keeps f → AllKeep [f] := fun f h => AllKeep.cons h AllKeep.nil
  cases i <;> simp only [stepsOf]
  case setBits => exact AllKeep.setBitsSteps _ _ _
  case clearBits => exact AllKeep.clearBitsSteps _ _ _
  case regRead => exact one _ (Keeps.regReadStep _)
  case gpioBit => exact one _ (Keeps.check fun s => by simp)
  case iomuxAddr => exact one _ (Keeps.check fun s => by simp)
  case init => exact AllKeep.initSteps _ _ _
  case write => exact AllKeep.writeSteps _ _ _
  case read => exact AllKeep.readSteps _ _
  case enablePullup => exact AllKeep.cons (Keeps.pullCheck _) (AllKeep.lastEnds (AllKeep.pullSteps _ _ _ _))
  case enablePulldown => exact AllKeep.cons (Keeps.pullCheck _) (AllKeep.lastEnds (AllKeep.pullSteps _ _ _ _))
  case configInterruption => exact AllKeep.configSteps _ _ _ _
  case excludeInterruption => exact one _ (Keeps.excludeStep _)
  case irqDisable => exact one _ (fun s s' h => by cases h; exact StepKeeps.setIrqEn s _)
  case irqEnable => exact one _ (fun s s' h => by cases h; exact StepKeeps.setIrqEn s _)
  case hret => exact AllKeep.nil
  all_goals first
    | exact AllKeep.lastEnds (one _ (Keeps.store _ _))
    | exact AllKeep.lastEnds (one _ (Keeps.loadOnly _))

/-- Everything one step of an operation can do to the state, `HRET` included. -/
theorem exec_cases {i : Instr} {s t : State} (h : exec i s = .next t) :
    (i = .hret ∧ ∃ x xs, s.handlers = x :: xs ∧ t = { s with handlers := xs }.logEvent (.ret x.hid x.pin)) ∨
    (i ≠ .hret ∧ ∃ s', StepKeeps s s' ∧ (t = s'.goOn i (s.labelOf i + 1) ∨ t = s'.finish ∨
      ∃ r, t = s'.finish.logEvent (.result s'.who r))) := by
  by_cases hi : i = .hret
  · subst hi
    refine .inl ⟨rfl, ?_⟩
    simp only [exec, execHret, returnFromHandler] at h
    split at h
    · rename_i x xs hx
      cases h
      exact ⟨x, xs, hx, rfl⟩
    · cases h
  · rw [exec_eq hi] at h
    exact .inr ⟨hi, exec_keeps (allKeep_stepsOf _ _) h⟩

end Sys2Proof.Machine
end

