-- ==== Sys2Proof/Laws/Pending.lean ====
section
/-! SUPPORT. Which operations can clear a pending edge: `EXCLUDE_INTERRUPTION` of its pin, and the attach step of
`CONFIG_INTERRUPTION` of its pin (R136, R139). -/

namespace Sys2Proof.Machine

/-! ## Steps that leave the pending bits alone -/

/-- Every state the step leaves has the pending bits it found. -/
def KeepsPend (f : StepFn) : Prop := ∀ s s', (f s).Leaves s' → s'.pend = s.pend

/-- Every step of a sequence does. -/
def AllKeepPend (fs : List StepFn) : Prop := ∀ f ∈ fs, KeepsPend f

theorem KeepsPend.load {a : Word} {keep : State → Word → State} (hk : ∀ s w, (keep s w).pend = s.pend) :
    KeepsPend (loadStep a keep) := by
  intro s s' h
  unfold loadStep at h
  split at h
  · rename_i x hx
    have h : keep x.2 x.1 = s' := h
    rw [← h, hk]
    exact (memRead_busOnly hx).1.pend
  · exact h.elim

theorem KeepsPend.storeOf (a : Word) (g : State → Word) : KeepsPend (fun s => storeStep a (g s) s) := by
  intro s s' h
  have h : (storeStep a (g s) s).Leaves s' := h
  unfold storeStep at h
  split at h
  · rename_i hx
    cases h
    exact (memWrite_busOnly hx).1.pend
  · exact h.elim

theorem KeepsPend.store (a w : Word) : KeepsPend (storeStep a w) := KeepsPend.storeOf a fun _ => w

theorem KeepsPend.endWith {r : Option Result} {f : StepFn} (h : KeepsPend f) : KeepsPend (endWith r f) := by
  intro s s' hs
  apply h
  unfold Machine.endWith at hs
  cases hf : f s <;> simp only [hf] at hs <;> exact hs

/-- A step that answers without changing the state, or stops. -/
theorem KeepsPend.check {f : StepFn} (h : ∀ s, f s = .go s ∨ (∃ r, f s = .ret r s) ∨ (∃ x, f s = .fault x) ∨
    ∃ x, f s = .refuse x) : KeepsPend f := fun s s' hs => by
  rcases h s with h | ⟨r, h⟩ | ⟨x, h⟩ | ⟨x, h⟩ <;> rw [h] at hs <;> first | exact hs ▸ rfl | exact hs.elim

theorem AllKeepPend.nil : AllKeepPend [] := fun _ h => by cases h

theorem AllKeepPend.cons {f : StepFn} {fs : List StepFn} (hf : KeepsPend f) (hs : AllKeepPend fs) :
    AllKeepPend (f :: fs) := List.forall_mem_cons.2 ⟨hf, hs⟩

theorem AllKeepPend.one {f : StepFn} (hf : KeepsPend f) : AllKeepPend [f] := AllKeepPend.cons hf AllKeepPend.nil

theorem AllKeepPend.append {fs gs : List StepFn} (hf : AllKeepPend fs) (hg : AllKeepPend gs) :
    AllKeepPend (fs ++ gs) := List.forall_mem_append.2 ⟨hf, hg⟩

theorem AllKeepPend.lastEnds {r : Option Result} : ∀ {fs : List StepFn}, AllKeepPend fs → AllKeepPend (lastEnds r fs)
  | [], _ => AllKeepPend.nil
  | [f], h => AllKeepPend.one (h f (by simp)).endWith
  | f :: g :: fs, h =>
    AllKeepPend.cons (h f (by simp))
      (AllKeepPend.lastEnds (fs := g :: fs) fun x hx => h x (List.mem_cons_of_mem _ hx))

theorem AllKeepPend.rmw (a : Word) (f : Word → Word) : AllKeepPend (rmw a f) :=
  AllKeepPend.cons (KeepsPend.load fun _ _ => rfl) (AllKeepPend.one (KeepsPend.storeOf a _))

/-! ## The sequences -/

theorem AllKeepPend.setBitsSteps (c : Config) (a m : Word) : AllKeepPend (setBitsSteps c a m) := by
  unfold Machine.setBitsSteps
  split
  · exact AllKeepPend.lastEnds (AllKeepPend.one (KeepsPend.store _ _))
  · exact AllKeepPend.lastEnds (AllKeepPend.rmw _ _)
  all_goals exact AllKeepPend.one (KeepsPend.check fun s => by simp)

theorem AllKeepPend.clearBitsSteps (c : Config) (a m : Word) : AllKeepPend (clearBitsSteps c a m) := by
  unfold Machine.clearBitsSteps
  split
  · exact AllKeepPend.lastEnds (AllKeepPend.one (KeepsPend.store _ _))
  · exact AllKeepPend.lastEnds (AllKeepPend.rmw _ _)
  all_goals exact AllKeepPend.one (KeepsPend.check fun s => by simp)

theorem KeepsPend.regReadStep (a : Word) : KeepsPend (regReadStep a) := by
  intro s s' h
  unfold Machine.regReadStep at h
  split at h
  · rename_i hx
    cases h
    exact (memRead_busOnly hx).1.pend
  · exact h.elim

theorem KeepsPend.readLevel (p : Pin) : KeepsPend (readLevel p) := by
  intro s s' h
  unfold Machine.readLevel at h
  split at h
  · rename_i hx
    cases h
    exact (memRead_busOnly hx).1.pend
  · exact h.elim

theorem AllKeepPend.initSteps (c : Config) (p : Pin) (arg : BitVec 4) : AllKeepPend (initSteps c p arg) :=
  AllKeepPend.cons (KeepsPend.check fun s => by unfold initCheck; repeat' split
                                                all_goals simp)
    (AllKeepPend.lastEnds (AllKeepPend.cons (KeepsPend.store _ _)
      ((AllKeepPend.rmw _ _).append (AllKeepPend.rmw _ _))))

theorem AllKeepPend.writeSteps (c : Config) (p : Pin) (arg : BitVec 4) : AllKeepPend (writeSteps c p arg) :=
  AllKeepPend.cons (KeepsPend.check fun s => by unfold writeCheck; repeat' split
                                                all_goals simp)
    (AllKeepPend.one (KeepsPend.store _ _).endWith)

theorem AllKeepPend.readSteps (c : Config) (p : Pin) : AllKeepPend (readSteps c p) :=
  AllKeepPend.cons (KeepsPend.check fun s => by unfold readCheck; split <;> simp)
    (AllKeepPend.cons (KeepsPend.load fun _ _ => rfl) (AllKeepPend.one (KeepsPend.readLevel p)))

theorem AllKeepPend.pull (p : Pin) (c : Config) (m m' : Word) :
    AllKeepPend (pullCheck p :: Machine.lastEnds none (pullSteps c p m m')) :=
  AllKeepPend.cons (KeepsPend.check fun s => by unfold pullCheck; split <;> simp)
    (AllKeepPend.lastEnds ((AllKeepPend.rmw _ _).append (AllKeepPend.rmw _ _)))

/-- The steps `c0` to `c11` of `CONFIG_INTERRUPTION` (R136). -/
theorem KeepsPend.configSteps {c : Config} {p : Pin} {arg : BitVec 4} {hid : Hid} {k : Nat} {f : StepFn}
    (h : (configSteps c p arg hid)[k]? = some f) (hk : k ≠ 12) : KeepsPend f := by
  unfold Machine.configSteps at h
  have hinit : AllKeepPend (configCheck p :: enableStep c p (some .input) ::
      (routeSteps c p ++ pullSteps c p (puMask c) (pdMask c) ++ [configEdge p arg, configService p])) := by
    refine AllKeepPend.cons (fun s s' h => ?_) (AllKeepPend.cons (KeepsPend.store _ _)
      (AllKeepPend.append (((AllKeepPend.rmw _ _).append (AllKeepPend.rmw _ _)).append
        ((AllKeepPend.rmw _ _).append (AllKeepPend.rmw _ _)))
        (AllKeepPend.cons (fun s s' h => ?_) (AllKeepPend.one fun s s' h => ?_))))
    · unfold configCheck at h
      split at h <;> cases h <;> rfl
    · unfold configEdge at h
      split at h <;> cases h <;> rfl
    · unfold configService at h
      repeat' split at h
      all_goals cases h
      all_goals simp [State.installService, State.setBindState]
  have he : configCheck p :: enableStep c p (some .input) :: (routeSteps c p ++ pullSteps c p (puMask c) (pdMask c) ++
      [configEdge p arg, configService p, configAttach p hid]) =
      (configCheck p :: enableStep c p (some .input) :: (routeSteps c p ++ pullSteps c p (puMask c) (pdMask c) ++
        [configEdge p arg, configService p])) ++ [configAttach p hid] := by simp
  have hlt : k < 13 := (List.getElem?_eq_some_iff.1 h).1
  rw [he, List.getElem?_append_left (by simp [routeSteps, pullSteps, rmw]; omega)] at h
  exact hinit f (List.mem_of_getElem? h)

/-- Every sequence but those of the two operations that may clear a pending bit (R136, R139). -/
theorem allKeepPend_stepsOf (c : Config) (i : Instr) (hx : ∀ p, i ≠ .excludeInterruption p)
    (hc : ∀ p arg hid, i ≠ .configInterruption p arg hid) : AllKeepPend (stepsOf c i) := by
  cases i <;> simp only [stepsOf]
  case excludeInterruption p => exact absurd rfl (hx p)
  case configInterruption p arg hid => exact absurd rfl (hc p arg hid)
  case setBits => exact AllKeepPend.setBitsSteps _ _ _
  case clearBits => exact AllKeepPend.clearBitsSteps _ _ _
  case regRead => exact AllKeepPend.one (KeepsPend.regReadStep _)
  case init => exact AllKeepPend.initSteps _ _ _
  case write => exact AllKeepPend.writeSteps _ _ _
  case read => exact AllKeepPend.readSteps _ _
  case enablePullup => exact AllKeepPend.pull _ _ _ _
  case enablePulldown => exact AllKeepPend.pull _ _ _ _
  case gpioBit => exact AllKeepPend.one (KeepsPend.check fun s => by simp)
  case iomuxAddr => exact AllKeepPend.one (KeepsPend.check fun s => by simp)
  case irqDisable => exact AllKeepPend.one fun s s' h => by cases h; rfl
  case irqEnable => exact AllKeepPend.one fun s s' h => by cases h; rfl
  case hret => exact AllKeepPend.nil
  all_goals first
    | exact AllKeepPend.lastEnds (AllKeepPend.one (KeepsPend.store _ _))
    | exact AllKeepPend.lastEnds (AllKeepPend.one (KeepsPend.load fun _ _ => rfl))

/-! ## exec -/

/-- One step of an operation keeps a pending bit that is set, but for the two steps that discard it (R136, R139). -/
theorem exec_pend {i : Instr} {s t : State} (h : exec i s = .next t) {q : Pin} (hq : s.pendAt q = true) :
    t.pendAt q = true ∨ i = .excludeInterruption q ∨
      ∃ arg hid, i = .configInterruption q arg hid ∧ s.labelOf i = 12 := by
  by_cases hi : i = .hret
  · subst hi
    simp only [exec, execHret, returnFromHandler] at h
    split at h
    · cases h
      exact .inl hq
    · cases h
  rw [exec_eq hi] at h
  obtain ⟨f, hf, hr⟩ := runSteps_cases h
  obtain ⟨s', hL, hp⟩ : ∃ s', (f s).Leaves s' ∧ t.pend = s'.pend := by
    rcases hr with ⟨s', hs, rfl⟩ | ⟨s', hs, rfl⟩ | ⟨s', r, hs, rfl⟩ <;> exact ⟨s', by rw [hs]; rfl, rfl⟩
  have keep : s'.pendAt q = true → t.pendAt q = true := fun hs => by
    simp only [State.pendAt, hp]
    exact hs
  have done : KeepsPend f → t.pendAt q = true := fun hk => keep (by simp only [State.pendAt, hk s s' hL]; exact hq)
  by_cases hx : ∃ p, i = .excludeInterruption p
  · obtain ⟨p, rfl⟩ := hx
    by_cases e : q = p
    · exact .inr (.inl (by rw [e]))
    have hf : f = excludeStep p := by simpa [stepsOf] using List.mem_of_getElem? hf
    subst hf
    refine .inl (keep ?_)
    unfold excludeStep detachHandler at hL
    repeat' split at hL
    all_goals cases hL
    · rw [pendAt_setPend, if_neg fun x => e x.1]
      exact hq
    all_goals exact hq
  by_cases hc : ∃ p arg hid, i = .configInterruption p arg hid
  · obtain ⟨p, arg, hid, rfl⟩ := hc
    by_cases hk : s.labelOf (.configInterruption p arg hid) = 12
    · by_cases e : q = p
      · exact .inr (.inr ⟨arg, hid, by rw [e], hk⟩)
      rw [hk] at hf
      cases hf
      refine .inl (keep ?_)
      unfold configAttach at hL
      split at hL <;> cases hL
      · rw [attachHandler, pendAt_setPend, if_neg fun x => e x.1]
        simpa [State.pendAt] using hq
      · simpa [State.pendAt, State.setBindState] using hq
    · exact .inl (done (KeepsPend.configSteps hf hk))
  exact .inl (done (allKeepPend_stepsOf _ _ (fun p e => hx ⟨p, e⟩) (fun p a h e => hc ⟨p, a, h, e⟩) f
    (List.mem_of_getElem? hf)))

end Sys2Proof.Machine
end

