-- ==== Sys2Proof/Laws/PerInstr.lean ====
section
/-! SUPPORT. Per instruction: its encoded word is well formed, has the width of its row of spec/opcode_table.json and matches
that row's mask and value. -/

namespace Sys2Proof

/-! ## The bits of a packed word under a row's mask -/

/-- A B-format word under the mask of its first fourteen bits (R88). -/
theorem packBus_masked (we blk : BitVec 1) (off : Off) (d : Word) :
    (packBus we blk off d).toNat &&& 0x3FFF00000000 = (packBus we blk off 0).toNat := by
  rw [show (0x3FFF00000000 : Nat) = (0x3FFF00000000#46).toNat from rfl, ← BitVec.toNat_and]
  congr 1
  apply BitVec.eq_of_getLsbD_eq
  intro i hi
  have hm : (0x3FFF00000000#46).getLsbD i = decide (32 ≤ i) := by
    revert hi; revert i; decide
  simp only [packBus, BitVec.getLsbD_and, BitVec.getLsbD_or, BitVec.getLsbD_shiftLeft, BitVec.getLsbD_setWidth, hm, hi]
  by_cases h : 32 ≤ i
  · simp [h]
  · have h1 : i < 44 := by omega
    have h2 : i < 45 := by omega
    have h3 : i < 32 := by omega
    simp [h, h1, h2, h3]

/-- A B-format word under the mask of `we` and `blk` (R88). -/
theorem packBus_masked_mux (we blk : BitVec 1) (off : Off) (d : Word) :
    (packBus we blk off d).toNat &&& 0x300000000000 = (packBus we blk 0 0).toNat := by
  rw [show (0x300000000000 : Nat) = (0x300000000000#46).toNat from rfl, ← BitVec.toNat_and]
  congr 1
  apply BitVec.eq_of_getLsbD_eq
  intro i hi
  have hm : (0x300000000000#46).getLsbD i = decide (44 ≤ i) := by
    revert hi; revert i; decide
  simp only [packBus, BitVec.getLsbD_and, BitVec.getLsbD_or, BitVec.getLsbD_shiftLeft, BitVec.getLsbD_setWidth, hm, hi]
  by_cases h : 44 ≤ i
  · simp [h, BitVec.getLsbD_of_ge d i (by omega), BitVec.getLsbD_of_ge off (i - 32) (by omega)]
  · have h1 : i < 44 := by omega
    have h2 : i < 45 := by omega
    simp [h, h1, h2]

/-- An A-format word under the mask of `aop` (R89). -/
theorem packAccess_masked (aop : BitVec 4) (addr mask : Word) :
    (packAccess aop addr mask).toNat &&& 0xF0000000000000000 = (packAccess aop 0 0).toNat := by
  rw [show (0xF0000000000000000 : Nat) = (0xF0000000000000000#68).toNat from rfl, ← BitVec.toNat_and]
  congr 1
  apply BitVec.eq_of_getLsbD_eq
  intro i hi
  have hm : (0xF0000000000000000#68).getLsbD i = decide (64 ≤ i) := by
    revert hi; revert i; decide
  simp only [packAccess, BitVec.getLsbD_and, BitVec.getLsbD_or, BitVec.getLsbD_shiftLeft, BitVec.getLsbD_setWidth, hm, hi]
  by_cases h : 64 ≤ i
  · simp [h, BitVec.getLsbD_of_ge mask i (by omega), BitVec.getLsbD_of_ge addr (i - 32) (by omega)]
  · have h1 : i < 64 := by omega
    simp [h, h1]

/-- An A-format word under the mask of `aop` and `mask` (R89, R103). -/
theorem packAccess_masked_read (aop : BitVec 4) (addr : Word) :
    (packAccess aop addr 0).toNat &&& 0xF00000000FFFFFFFF = (packAccess aop 0 0).toNat := by
  rw [show (0xF00000000FFFFFFFF : Nat) = (0xF00000000FFFFFFFF#68).toNat from rfl, ← BitVec.toNat_and]
  congr 1
  apply BitVec.eq_of_getLsbD_eq
  intro i hi
  have hm : (0xF00000000FFFFFFFF#68).getLsbD i = (decide (64 ≤ i) || decide (i < 32)) := by
    revert hi; revert i; decide
  simp only [packAccess, BitVec.getLsbD_and, BitVec.getLsbD_or, BitVec.getLsbD_shiftLeft, BitVec.getLsbD_setWidth, hm, hi]
  by_cases h : 64 ≤ i
  · simp [h, BitVec.getLsbD_of_ge addr (i - 32) (by omega)]
  · have h1 : i < 64 := by omega
    by_cases h2 : i < 32 <;> simp [h, h1, h2]

/-- A P-format word under the mask of every field but `pin` (R90). -/
theorem packPin_masked (pop : BitVec 4) (p : Pin) (arg : BitVec 4) (hid : Hid) :
    (packPin pop p arg hid).toNat &&& 0xF03FFFFF = (packPin pop 0 arg hid).toNat := by
  rw [show (0xF03FFFFF : Nat) = (0xF03FFFFF#32).toNat from rfl, ← BitVec.toNat_and]
  congr 1
  apply BitVec.eq_of_getLsbD_eq
  intro i hi
  have hm : (0xF03FFFFF#32).getLsbD i = (decide (28 ≤ i) || decide (i < 22)) := by
    revert hi; revert i; decide
  simp only [packPin, BitVec.getLsbD_and, BitVec.getLsbD_or, BitVec.getLsbD_shiftLeft, BitVec.getLsbD_setWidth, hm, hi]
  by_cases h : 28 ≤ i
  · simp [h, BitVec.getLsbD_of_ge p (i - 22) (by omega)]
  · have h1 : i < 28 := by omega
    by_cases h2 : i < 22
    · simp [h1, h2]
    · have h3 := BitVec.getLsbD_of_ge arg (i - 18) (by omega)
      have h4 := BitVec.getLsbD_of_ge hid i (by omega)
      simp [h, h1, h2, h3, h4]

/-- A P-format word under the mask of every field but `pin` and `arg` (R90). -/
theorem packPin_masked_arg (pop : BitVec 4) (p : Pin) (arg : BitVec 4) :
    (packPin pop p arg 0).toNat &&& 0xF003FFFF = (packPin pop 0 0 0).toNat := by
  rw [show (0xF003FFFF : Nat) = (0xF003FFFF#32).toNat from rfl, ← BitVec.toNat_and]
  congr 1
  apply BitVec.eq_of_getLsbD_eq
  intro i hi
  have hm : (0xF003FFFF#32).getLsbD i = (decide (28 ≤ i) || decide (i < 18)) := by
    revert hi; revert i; decide
  simp only [packPin, BitVec.getLsbD_and, BitVec.getLsbD_or, BitVec.getLsbD_shiftLeft, BitVec.getLsbD_setWidth, hm, hi]
  by_cases h : 28 ≤ i
  · simp [h, BitVec.getLsbD_of_ge p (i - 22) (by omega), BitVec.getLsbD_of_ge arg (i - 18) (by omega)]
  · have h1 : i < 28 := by omega
    by_cases h2 : i < 18
    · have h3 : i < 22 := by omega
      simp [h1, h2, h3]
    · simp [h, h1, h2]

/-- A P-format word under the mask of `pop` and `rsv` alone (R90). -/
theorem packPin_masked_all (pop : BitVec 4) (p : Pin) (arg : BitVec 4) (hid : Hid) :
    (packPin pop p arg hid).toNat &&& 0xF0030000 = (packPin pop 0 0 0).toNat := by
  rw [show (0xF0030000 : Nat) = (0xF0030000#32).toNat from rfl, ← BitVec.toNat_and]
  congr 1
  apply BitVec.eq_of_getLsbD_eq
  intro i hi
  have hm : (0xF0030000#32).getLsbD i = (decide (28 ≤ i) || (decide (16 ≤ i) && decide (i < 18))) := by
    revert hi; revert i; decide
  simp only [packPin, BitVec.getLsbD_and, BitVec.getLsbD_or, BitVec.getLsbD_shiftLeft, BitVec.getLsbD_setWidth, hm, hi]
  by_cases h : 28 ≤ i
  · simp [h, BitVec.getLsbD_of_ge p (i - 22) (by omega), BitVec.getLsbD_of_ge arg (i - 18) (by omega),
      BitVec.getLsbD_of_ge hid i (by omega)]
  · have h1 : i < 28 := by omega
    by_cases h2 : 16 ≤ i
    · by_cases h3 : i < 18
      · have h4 : i < 22 := by omega
        simp [h1, h3, h4, BitVec.getLsbD_of_ge hid i (by omega)]
      · simp [h, h1, h3]
    · simp [h, h1, h2]

/-! ## The family -/

namespace Laws.Matches

/-- The encoded word of `i` matches `i`'s row of the opcode table, and spells an operation (R102, R103). -/
def Statement (i : Instr) : Prop :=
  (encode i).width = (tableRow i).width ∧ (encode i).toNat &&& (tableRow i).mask = (tableRow i).value ∧
    (encode i).wellFormed = true

theorem rdOut : Statement .rdOut := ⟨rfl, rfl, by decide⟩
theorem wrOut (v : Word) : Statement (.wrOut v) := ⟨rfl, packBus_masked _ _ _ v, rfl⟩
theorem wrOutSet (m : Word) : Statement (.wrOutSet m) := ⟨rfl, packBus_masked _ _ _ m, rfl⟩
theorem wrOutClear (m : Word) : Statement (.wrOutClear m) := ⟨rfl, packBus_masked _ _ _ m, rfl⟩
theorem rdEnable : Statement .rdEnable := ⟨rfl, rfl, by decide⟩
theorem wrEnable (v : Word) : Statement (.wrEnable v) := ⟨rfl, packBus_masked _ _ _ v, rfl⟩
theorem wrEnableSet (m : Word) : Statement (.wrEnableSet m) := ⟨rfl, packBus_masked _ _ _ m, rfl⟩
theorem wrEnableClear (m : Word) : Statement (.wrEnableClear m) := ⟨rfl, packBus_masked _ _ _ m, rfl⟩
theorem rdIn : Statement .rdIn := ⟨rfl, rfl, by decide⟩
theorem rdMux (off : Off) : Statement (.rdMux off) := ⟨rfl, packBus_masked_mux _ _ off _, rfl⟩
theorem wrMux (off : Off) (v : Word) : Statement (.wrMux off v) := ⟨rfl, packBus_masked_mux _ _ off v, rfl⟩

theorem regRead (addr : Word) : Statement (.regRead addr) :=
  ⟨rfl, packAccess_masked_read _ addr, by
    simp [encode, Request.wellFormed, accessWellFormed, packAccess_aop, packAccess_mask]⟩

theorem setBits (addr mask : Word) : Statement (.setBits addr mask) :=
  ⟨rfl, packAccess_masked _ addr mask, by simp [encode, Request.wellFormed, accessWellFormed, packAccess_aop]⟩

theorem clearBits (addr mask : Word) : Statement (.clearBits addr mask) :=
  ⟨rfl, packAccess_masked _ addr mask, by simp [encode, Request.wellFormed, accessWellFormed, packAccess_aop]⟩

/-- A packed P-format word with no must-be-zero field set spells an operation (R103). -/
theorem pinWellFormed_pack (pop : BitVec 4) (p : Pin) (arg : BitVec 4) (hid : Hid) (h : 1 ≤ pop.toNat ∧ pop.toNat ≤ 0xC)
    (ha : arg = 0 ∨ pop = 3 ∨ pop = 4 ∨ pop = 8) (hh : hid = 0 ∨ pop = 8) (hp : p = 0 ∨ pop.toNat < 0xA) :
    pinWellFormed (packPin pop p arg hid) = true := by
  simp only [pinWellFormed, packPin_pop, packPin_rsv, packPin_arg, packPin_hid, packPin_pin, Bool.and_eq_true,
    Bool.or_eq_true, decide_eq_true_eq, beq_iff_eq]
  refine ⟨⟨⟨⟨⟨h.1, h.2⟩, trivial⟩, ?_⟩, ?_⟩, hp⟩
  · rcases ha with h | rfl | rfl | rfl <;> simp_all
  · rcases hh with h | rfl <;> simp_all

theorem gpioBit (p : Pin) : Statement (.gpioBit p) :=
  ⟨rfl, packPin_masked _ p _ _, pinWellFormed_pack _ p _ _ (by decide) (by simp) (by simp) (.inr (by decide))⟩
theorem iomuxAddr (p : Pin) : Statement (.iomuxAddr p) :=
  ⟨rfl, packPin_masked _ p _ _, pinWellFormed_pack _ p _ _ (by decide) (by simp) (by simp) (.inr (by decide))⟩
theorem init (p : Pin) (arg : BitVec 4) : Statement (.init p arg) :=
  ⟨rfl, packPin_masked_arg _ p arg, pinWellFormed_pack _ p arg _ (by decide) (by simp) (by simp) (.inr (by decide))⟩
theorem write (p : Pin) (arg : BitVec 4) : Statement (.write p arg) :=
  ⟨rfl, packPin_masked_arg _ p arg, pinWellFormed_pack _ p arg _ (by decide) (by simp) (by simp) (.inr (by decide))⟩
theorem read (p : Pin) : Statement (.read p) :=
  ⟨rfl, packPin_masked _ p _ _, pinWellFormed_pack _ p _ _ (by decide) (by simp) (by simp) (.inr (by decide))⟩
theorem enablePullup (p : Pin) : Statement (.enablePullup p) :=
  ⟨rfl, packPin_masked _ p _ _, pinWellFormed_pack _ p _ _ (by decide) (by simp) (by simp) (.inr (by decide))⟩
theorem enablePulldown (p : Pin) : Statement (.enablePulldown p) :=
  ⟨rfl, packPin_masked _ p _ _, pinWellFormed_pack _ p _ _ (by decide) (by simp) (by simp) (.inr (by decide))⟩
theorem configInterruption (p : Pin) (arg : BitVec 4) (hid : Hid) : Statement (.configInterruption p arg hid) :=
  ⟨rfl, packPin_masked_all _ p arg hid, pinWellFormed_pack _ p arg hid (by decide) (by simp) (by simp) (.inr (by decide))⟩
theorem excludeInterruption (p : Pin) : Statement (.excludeInterruption p) :=
  ⟨rfl, packPin_masked _ p _ _, pinWellFormed_pack _ p _ _ (by decide) (by simp) (by simp) (.inr (by decide))⟩
theorem irqDisable : Statement .irqDisable := ⟨rfl, rfl, by decide⟩
theorem irqEnable : Statement .irqEnable := ⟨rfl, rfl, by decide⟩
theorem hret : Statement .hret := ⟨rfl, rfl, by decide⟩

end Laws.Matches

end Sys2Proof
end

