-- ==== Sys2Proof/Laws/Sequences.lean ====
section
/-! SUPPORT. Running an operation's sequence: the step at each label, the two halves of a read-modify-write of an IO-MUX
register, and what such a sequence leaves alone. -/

namespace Sys2Proof.Machine

/-! ## The step at a label -/

theorem exec_idle {i : Instr} {s : State} {f : StepFn} (hi : i ≠ .hret) (hs : s.Idle)
    (hf : (stepsOf s.cfg i)[0]? = some f) : exec i s = settle i 0 (f s) := by
  rw [exec_eq hi, runSteps_eq (labelOf_idle hs i) hf]

theorem exec_at {i : Instr} {k : Nat} {s : State} {f : StepFn} (hi : i ≠ .hret) (hs : s.At i k)
    (hf : (stepsOf s.cfg i)[k]? = some f) : exec i s = settle i k (f s) := by
  rw [exec_eq hi, runSteps_eq (labelOf_at hs) hf]

/-- `t <- MemRead(a)` of a pin's IO-MUX register (R75). -/
theorem muxLoad_eq {s : State} {p : Pin} (hw : s.cfg.wellFormed = true) (hp : muxValid s.cfg p = true) :
    loadStep (muxAddr s.cfg p) State.setT s = .go (afterMuxLoad s p) :=
  loadStep_eq (memRead_mux hw hp)

/-- `MemWrite(a, w)` of a pin's IO-MUX register (R76). -/
theorem muxStore_eq {s : State} {p : Pin} (hw : s.cfg.wellFormed = true) (hp : muxValid s.cfg p = true) (w : Word) :
    storeStep (muxAddr s.cfg p) w s = .go (afterMuxStore s p w) :=
  storeStep_eq (memWrite_mux hw hp w)

theorem at_goOn (s : State) (i : Instr) (k : Nat) : (s.goOn i k).At i k := by simp [State.At]

theorem idle_finish (s : State) : s.finish.Idle := by simp [State.Idle]

/-! ## What the two halves do -/

@[simp] theorem afterMuxLoad_cfg (s : State) (p : Pin) : (afterMuxLoad s p).cfg = s.cfg := by simp [afterMuxLoad]
@[simp] theorem afterMuxLoad_who (s : State) (p : Pin) : (afterMuxLoad s p).who = s.who := by simp [afterMuxLoad]
@[simp] theorem afterMuxLoad_t (s : State) (p : Pin) : (afterMuxLoad s p).top.t = muxRead s p := by simp [afterMuxLoad]
@[simp] theorem afterMuxLoad_mux (s : State) (p : Pin) : (afterMuxLoad s p).mux = s.mux := by simp [afterMuxLoad]
@[simp] theorem afterMuxLoad_log (s : State) (p : Pin) :
    (afterMuxLoad s p).log = s.log ++ [.txn s.who .read (muxAddr s.cfg p) (muxRead s p)] := by simp [afterMuxLoad]

@[simp] theorem afterMuxStore_cfg (s : State) (p : Pin) (w : Word) : (afterMuxStore s p w).cfg = s.cfg := rfl
@[simp] theorem afterMuxStore_who (s : State) (p : Pin) (w : Word) : (afterMuxStore s p w).who = s.who := rfl
@[simp] theorem afterMuxStore_top (s : State) (p : Pin) (w : Word) : (afterMuxStore s p w).top = s.top := rfl
@[simp] theorem afterMuxStore_log (s : State) (p : Pin) (w : Word) :
    (afterMuxStore s p w).log = s.log ++ [.txn s.who .write (muxAddr s.cfg p) w] := rfl

/-- The fields of the word a read of `MUX[p]` returns (R75, R99). -/
theorem muxFields_muxRead {s : State} (hw : s.cfg.wellFormed = true) (p : Pin) :
    muxFields s.cfg.muxf (muxRead s p) = s.muxAt p :=
  muxFields_muxWord (layoutOk_of_wellFormed hw) _ _

theorem muxAt_afterMuxStore (s : State) (p q : Pin) (w : Word) :
    (afterMuxStore s p w).muxAt q = if q = p then muxFields s.cfg.muxf w else s.muxAt q := by
  rw [afterMuxStore, muxAt_congr (logEvent_mux _ _), muxAt_setMux]

/-! ## What they leave alone -/

/-- Only the IO-MUX register of `p`, the running frame's temporaries and request in progress, `LOG` and the draws differ. -/
structure MuxOnly (p : Pin) (s t : State) : Prop where
  mux : SameMuxBut p s t
  gpio : SameGpio s t
  registry : SameRegistry s t
  world : SameWorld s t
  context : SameContext s t

theorem SameContext.trans {s t u : State} (h : SameContext s t) (h' : SameContext t u) : SameContext s u := by
  refine ⟨h'.1.trans h.1, h'.2.1.trans h.2.1, h'.2.2.1.trans h.2.2.1, fun hs => ?_⟩
  have hw := h.1
  have : t.handlers ≠ [] := by
    intro e
    cases hh : s.handlers with
    | nil => exact hs hh
    | cons x xs => simp [State.who, e, hh] at hw
  exact (h'.2.2.2 this).trans (h.2.2.2 hs)

theorem SameContext.setTop {s t : State} (h : SameContext s t) (f : Frame) (hf : f.prog = t.top.prog) :
    SameContext s (t.setTop f) := by
  refine h.trans ⟨who_setTop _ _, by rw [top_setTop, hf], ?_, fun hs => ?_⟩
  · cases hh : t.handlers <;> simp [State.setTop, hh]
  · cases hh : t.handlers with
    | nil => exact absurd hh hs
    | cons => simp [State.setTop, hh]

theorem SameContext.of_eq {s t : State} (hm : t.main = s.main) (hh : t.handlers = s.handlers) : SameContext s t :=
  ⟨by simp [State.who, hh], by simp [State.top, hm, hh], by rw [hh], fun _ => hm⟩

theorem SameContext.refl (s : State) : SameContext s s := SameContext.of_eq rfl rfl

theorem MuxOnly.trans {p : Pin} {s t u : State} (h : MuxOnly p s t) (h' : MuxOnly p t u) : MuxOnly p s u where
  mux q hq := (h'.mux q hq).trans (h.mux q hq)
  gpio := ⟨h'.gpio.1.trans h.gpio.1, h'.gpio.2.1.trans h.gpio.2.1, h'.gpio.2.2.trans h.gpio.2.2⟩
  registry := ⟨h'.registry.1.trans h.registry.1, h'.registry.2.1.trans h.registry.2.1,
    h'.registry.2.2.1.trans h.registry.2.2.1, h'.registry.2.2.2.trans h.registry.2.2.2⟩
  world := ⟨h'.world.1.trans h.world.1, h'.world.2.1.trans h.world.2.1, h'.world.2.2.1.trans h.world.2.2.1,
    h'.world.2.2.2.trans h.world.2.2.2⟩
  context := h.context.trans h'.context

theorem MuxOnly.setTop {p : Pin} {s t : State} (h : MuxOnly p s t) (f : Frame) (hf : f.prog = t.top.prog) :
    MuxOnly p s (t.setTop f) :=
  ⟨h.mux, h.gpio, h.registry, h.world, h.context.setTop f hf⟩

theorem MuxOnly.refl (p : Pin) (s : State) : MuxOnly p s s :=
  ⟨fun _ _ => rfl, ⟨rfl, rfl, rfl⟩, ⟨rfl, rfl, rfl, rfl⟩, ⟨rfl, rfl, rfl, rfl⟩, SameContext.refl s⟩

theorem MuxOnly.goOn {p : Pin} {s t : State} (h : MuxOnly p s t) (i : Instr) (k : Nat) : MuxOnly p s (t.goOn i k) :=
  h.setTop _ rfl

theorem MuxOnly.finish {p : Pin} {s t : State} (h : MuxOnly p s t) : MuxOnly p s t.finish := h.setTop _ rfl

theorem MuxOnly.logEvent {p : Pin} {s t : State} (h : MuxOnly p s t) (ev : Event) : MuxOnly p s (t.logEvent ev) :=
  ⟨h.mux, h.gpio, h.registry, h.world, h.context⟩

theorem MuxOnly.load {p : Pin} {s t : State} (h : MuxOnly p s t) : MuxOnly p s (afterMuxLoad t p) :=
  h.trans <| ((⟨fun q _ => muxAt_congr (by simp) q, ⟨by simp, by simp, by simp⟩, ⟨by simp, by simp, by simp, by simp⟩,
    ⟨by simp, by simp, takeDraw_sched t, takeDraw_answers t⟩, SameContext.of_eq (by simp) (by simp)⟩ :
    MuxOnly p t (takeDraw t).2).logEvent _).setTop _ rfl

theorem MuxOnly.store {p : Pin} {s t : State} (h : MuxOnly p s t) (w : Word) : MuxOnly p s (afterMuxStore t p w) :=
  h.trans <| (⟨fun q hq => by rw [muxAt_setMux, if_neg hq], ⟨rfl, rfl, rfl⟩, ⟨rfl, rfl, rfl, rfl⟩,
    ⟨rfl, rfl, rfl, rfl⟩, SameContext.of_eq rfl rfl⟩ : MuxOnly p t (t.setMux p _)).logEvent _

/-! ## One read-modify-write, run -/

/-- The state after both halves of a read-modify-write of `MUX[p]` with `f`, at label `k` of `i` (R109, R110). -/
def afterRmw (s : State) (p : Pin) (i : Instr) (k : Nat) (f : Word → Word) : State :=
  afterMuxStore ((afterMuxLoad s p).goOn i k) p (f (muxRead s p))

theorem MuxOnly.rmw {p : Pin} {s t : State} (h : MuxOnly p s t) (i : Instr) (k : Nat) (f : Word → Word) :
    MuxOnly p s (afterRmw t p i k f) := (h.load.goOn i k).store _

@[simp] theorem afterRmw_cfg (s : State) (p : Pin) (i : Instr) (k : Nat) (f : Word → Word) :
    (afterRmw s p i k f).cfg = s.cfg := by simp [afterRmw]

@[simp] theorem afterRmw_who (s : State) (p : Pin) (i : Instr) (k : Nat) (f : Word → Word) :
    (afterRmw s p i k f).who = s.who := by simp [afterRmw]

@[simp] theorem afterRmw_log (s : State) (p : Pin) (i : Instr) (k : Nat) (f : Word → Word) :
    (afterRmw s p i k f).log = s.log ++ [.txn s.who .read (muxAddr s.cfg p) (muxRead s p),
      .txn s.who .write (muxAddr s.cfg p) (f (muxRead s p))] := by simp [afterRmw]

/-- The register after it: the fields of `f` of the word read (R75, R76). -/
theorem afterRmw_muxAt (s : State) (p : Pin) (i : Instr) (k : Nat) (f : Word → Word) :
    (afterRmw s p i k f).muxAt p = muxFields s.cfg.muxf (f (muxRead s p)) := by
  simp [afterRmw, muxAt_afterMuxStore]

/-- `n + 1` steps, the first of them given. -/
theorem Runs.step {i : Instr} {n : Nat} {s t u : State} (h : exec i s = .next t) (hr : Runs i n t u) :
    Runs i (n + 1) s u := ⟨t, h, hr⟩

end Sys2Proof.Machine
end

