-- ==== Sys2Proof/Laws/Step.lean ====
section
/-! SUPPORT. What one step of the machine can be, said once: a step of the running frame's request, a transaction no row
names, an environment event, a dispatch, or nothing but a choice used up. -/

namespace Sys2Proof.Machine

theorem popChoice_of_nil {s : State} (h : s.inputs.sched = []) : s.popChoice = s := by
  rcases s with ⟨_, _, _, _, _, _, _, _, _, _, _, _, _, ⟨sched, _, _, _⟩⟩
  simp only at h
  subst h
  rfl

/-- The running frame's next step is a step of operation `i`, with the requests `rest` left behind it: `i` is in progress,
or it is the next request. -/
def Fetches (s : State) (i : Instr) (rest : List Request) : Prop :=
  (∃ k, s.top.cur = some { instr := i, label := k } ∧ rest = s.top.prog) ∨
    (s.top.cur = none ∧ ∃ r, s.top.prog = r :: rest ∧ decode r = .instr i)

/-- One legal transaction leads from `s` to `t` (R64, R65). -/
def Transacts (s t : State) : Prop :=
  (∃ a x, memRead a s = .ok x ∧ t = x.2) ∨ ∃ a w, memWrite a w s = .ok t

theorem Transacts.keeps {s t : State} (h : Transacts s t) : StepKeeps s t := by
  rcases h with ⟨a, x, hx, rfl⟩ | ⟨a, w, hw⟩
  · exact StepKeeps.of_read hx
  · exact StepKeeps.of_write hw

theorem Transacts.busOnly {s t : State} (h : Transacts s t) : BusOnly s t := by
  rcases h with ⟨a, x, hx, rfl⟩ | ⟨a, w, hw⟩
  · exact (memRead_busOnly hx).1
  · exact (memWrite_busOnly hw).1

theorem Transacts.of_readOnce {a : Word} {s t : State} (h : readOnce a s = .next t) : Transacts s t := by
  unfold readOnce at h
  split at h <;> cases h
  rename_i x hx
  exact .inl ⟨a, x, hx, rfl⟩

theorem Transacts.of_writeOnce {a w : Word} {s t : State} (h : writeOnce a w s = .next t) : Transacts s t := by
  unfold writeOnce at h
  split at h <;> cases h
  rename_i hx
  exact .inr ⟨a, w, hx⟩

/-- The running frame's next request is no operation's: one with the requests `rest` behind it. -/
def FetchesUnlisted (s : State) (rest : List Request) : Prop :=
  s.top.cur = none ∧ ∃ r, s.top.prog = r :: rest ∧ ∀ i, decode r ≠ .instr i

/-- A step of the running frame is `exec` of what it fetches, the transaction of a word no row names, or nothing (R39,
R103, R194). -/
theorem frameStep_cases {s t : State} (h : frameStep s = .next t) :
    (∃ i rest, Fetches s i rest ∧ exec i (s.setTop { s.top with prog := rest }) = .next t) ∨
      (∃ rest, FetchesUnlisted s rest ∧ Transacts (s.setTop { s.top with prog := rest }) t) ∨
      (t = s ∧ s.handlers = []) := by
  unfold frameStep at h
  split at h
  · rename_i pr hpr
    refine .inl ⟨pr.instr, s.top.prog, .inl ⟨pr.label, hpr, rfl⟩, ?_⟩
    rw [setTop_top]
    exact h
  · rename_i hc
    split at h
    · rename_i r rest hr
      unfold beginRequest at h
      split at h
      · rename_i i hd
        exact .inl ⟨i, rest, .inr ⟨hc, r, hr, hd⟩, h⟩
      · rename_i off hd
        exact .inr (.inl ⟨rest, ⟨hc, r, hr, fun i => by simp [hd]⟩, Transacts.of_readOnce h⟩)
      · rename_i off data hd
        exact .inr (.inl ⟨rest, ⟨hc, r, hr, fun i => by simp [hd]⟩, Transacts.of_writeOnce h⟩)
      · cases h
    · unfold outOfRequests at h
      split at h
      · rename_i he
        cases h
        exact .inr (.inr ⟨rfl, List.isEmpty_iff.1 he⟩)
      · cases h

theorem mem_dispatchablePins {s : State} {p : Pin} (h : p ∈ dispatchablePins s) : ∃ hid, dispatchable s p = some hid :=
  Option.isSome_iff_exists.1 (List.mem_filter.1 h).2

/-- Whether a dispatch is enabled does not depend on the inputs. -/
theorem dispatchable_inputs (s : State) (x : Inputs) (p : Pin) :
    dispatchable { s with inputs := x } p = dispatchable s p := rfl

/-- The dispatch taken of its own accord: none, or one that is enabled (R165, R195). -/
theorem dispatchSome_cases (s : State) :
    dispatchSome s = s ∨
      ∃ p hid x, dispatchable s p = some hid ∧ dispatchSome s = takeInterrupt p hid { s with inputs := x } := by
  unfold dispatchSome
  split
  · exact .inl rfl
  · rename_i p hp
    obtain ⟨hid, hd⟩ := mem_dispatchablePins (p := p) (by rw [hp]; simp)
    refine .inr ⟨p, hid, s.inputs, hd, ?_⟩
    simp only [offerDispatch, hd]
  · rename_i p q ps hp
    have hm : (p :: q :: ps).getD (Config.freePick s.inputs.fresh % (p :: q :: ps).length) p ∈ dispatchablePins s := by
      rw [hp, List.getD_eq_getElem?_getD, List.getElem?_eq_getElem (Nat.mod_lt _ (by simp))]
      exact List.getElem_mem _
    obtain ⟨hid, hd⟩ := mem_dispatchablePins hm
    refine .inr ⟨_, hid, { s.inputs with fresh := s.inputs.fresh + 1 }, hd, ?_⟩
    simp only [offerDispatch, dispatchable_inputs, hd]

/-- Everything a step can do. -/
theorem step_cases {s t : State} (h : step s = .next t) :
    (∃ i rest, Fetches s i rest ∧ exec i (s.popChoice.setTop { s.top with prog := rest }) = .next t) ∨
    t = s.popChoice ∨
    (∃ p d cs, s.inputs.sched = .padDrive p d :: cs ∧ hasPad s.cfg p = true ∧ t = padDrive p d s.popChoice) ∨
    (∃ p lvl cs, s.inputs.sched = .padLevel p lvl :: cs ∧ hasPad s.cfg p = true ∧ sensed s p lvl = true ∧
      t = padLevel p lvl s.popChoice) ∨
    (∃ p hid x, dispatchable s p = some hid ∧ t = takeInterrupt p hid { s with inputs := x }) ∨
    (∃ rest, FetchesUnlisted s rest ∧ Transacts (s.popChoice.setTop { s.top with prog := rest }) t) := by
  have frame : ∀ {t}, frameStep s.popChoice = .next t →
      (∃ i rest, Fetches s i rest ∧ exec i (s.popChoice.setTop { s.top with prog := rest }) = .next t) ∨
      t = s.popChoice ∨
      (∃ rest, FetchesUnlisted s rest ∧ Transacts (s.popChoice.setTop { s.top with prog := rest }) t) := by
    intro t ht
    rcases frameStep_cases ht with ⟨i, rest, hf, he⟩ | ⟨rest, hf, he⟩ | ⟨he, -⟩
    · exact .inl ⟨i, rest, hf, he⟩
    · exact .inr (.inr ⟨rest, hf, he⟩)
    · exact .inr (.inl he)
  simp only [step, nextStep] at h
  split at h
  · rename_i ch cs hs
    cases ch <;> simp only [takeChoice] at h
    · rcases frame h with h | h | h
      · exact .inl h
      · exact .inr (.inl h)
      · exact .inr (.inr (.inr (.inr (.inr h))))
    · rename_i p d
      cases h
      unfold offerPadDrive
      split
      · rename_i hp
        exact .inr (.inr (.inl ⟨p, d, cs, hs, hp, rfl⟩))
      · exact .inr (.inl rfl)
    · rename_i p lvl
      cases h
      unfold offerPadLevel
      split
      · rename_i hp
        rw [Bool.and_eq_true] at hp
        exact .inr (.inr (.inr (.inl ⟨p, lvl, cs, hs, hp.1, hp.2, rfl⟩)))
      · exact .inr (.inl rfl)
    · rename_i p
      cases h
      unfold offerDispatch
      split
      · rename_i hid hd
        exact .inr (.inr (.inr (.inr (.inl ⟨p, hid, _, hd, rfl⟩))))
      · exact .inr (.inl rfl)
  · rename_i hs
    have hpop := popChoice_of_nil hs
    split at h
    · cases h
      rcases dispatchSome_cases s with hd | ⟨p, hid, x, hd, ht⟩
      · exact .inr (.inl (by rw [hd, hpop]))
      · exact .inr (.inr (.inr (.inr (.inl ⟨p, hid, x, hd, ht⟩))))
    · rw [← hpop] at h
      rcases frame h with h | h | h
      · exact .inl h
      · exact .inr (.inl h)
      · exact .inr (.inr (.inr (.inr (.inr h))))

/-! ## What an edge latched, a sample and an event leave alone -/

/-- Latching an edge changes at most the pending bit of its pin (R161). -/
theorem latchEdge_cases (p : Pin) (old new : Bool) (s : State) :
    latchEdge p old new s = s ∨ (latchEdge p old new s = s.setPend p true ∧ (s.bindAt p).state = .bound) := by
  unfold latchEdge
  split
  · rename_i h
    refine .inr ⟨rfl, ?_⟩
    unfold edgeDetected at h
    simp only [Bool.and_eq_true, decide_eq_true_eq] at h
    exact h.1
  · exact .inl rfl

/-- What a step leaves of `LOG`, the parameters and the levels sampled, over every case but the events'. -/
theorem exec_log {i : Instr} {s t : State} (h : exec i s = .next t) :
    ∃ es, t.log = s.log ++ es ∧ (es.filter (fun ev => (txnOf ev).isSome)).length ≤ 1 := by
  rcases exec_cases h with ⟨-, x, xs, -, rfl⟩ | ⟨-, s', hk, hr⟩
  · exact ⟨_, rfl, by simp [txnOf]⟩
  · rcases hk.log with hl | ⟨d, a, w, hl⟩ <;> rcases hr with rfl | rfl | ⟨r, rfl⟩
    · exact ⟨[], by simp [hl], by simp⟩
    · exact ⟨[], by simp [hl], by simp⟩
    · exact ⟨[.result s'.who r], by simp [hl], by simp [txnOf]⟩
    · exact ⟨[.txn s.who d a w], by simp [hl], by simp [txnOf]⟩
    · exact ⟨[.txn s.who d a w], by simp [hl], by simp [txnOf]⟩
    · exact ⟨[.txn s.who d a w, .result s'.who r], by simp [hl], by simp [txnOf]⟩

theorem exec_inp {i : Instr} {s t : State} (h : exec i s = .next t) : t.inp = s.inp ∧ t.cfg = s.cfg ∧ t.ext = s.ext := by
  rcases exec_cases h with ⟨-, x, xs, -, rfl⟩ | ⟨-, s', hk, hr⟩
  · exact ⟨rfl, rfl, rfl⟩
  · rcases hr with rfl | rfl | ⟨r, rfl⟩ <;> exact ⟨hk.inp, hk.cfg, hk.ext⟩

theorem mainIdle_of_prog {s : State} {r : Request} {rest : List Request} (h : s.top.prog = r :: rest) :
    mainIdle s = false := by
  unfold mainIdle
  cases hh : s.handlers with
  | nil => simp [State.top, hh] at h; simp [h]
  | cons => simp

/-- The step that takes the first step of the next request (R39). -/
theorem step_fetch {s s₀ : State} {r : Request} {rest : List Request} (hi : s.Idle) (hm : FrameMoves s s₀)
    (hp : s.top.prog = r :: rest) : step s = beginRequest r (s₀.setTop { s.top with prog := rest }) := by
  have hc : s.top.cur = none := hi
  rcases hm with ⟨hs, rfl⟩ | ⟨cs, hs, rfl⟩
  · simp [step, nextStep, hs, mainIdle_of_prog hp, frameStep, hc, hp]
  · have e : s.popChoice = { s with inputs := { s.inputs with sched := cs } } := by simp [State.popChoice, hs]
    simp only [step, nextStep, hs, takeChoice, e, frameStep]
    have et : ({ s with inputs := { s.inputs with sched := cs } } : State).top = s.top := rfl
    rw [et, hc, hp]

/-! ## What a step does to the handler frames -/

/-- The head of the stack keeps its handler and its pin (R39). -/
theorem StepKeeps.head {s s' : State} (hk : StepKeeps s s') {x : HandlerFrame} {xs : List HandlerFrame}
    (h : s.handlers = x :: xs) : ∃ f, s'.handlers = { hid := x.hid, pin := x.pin, frame := f } :: xs := by
  have h1 := hk.shape
  have h2 := hk.tail
  cases hh : s'.handlers with
  | nil => simp [h, hh] at h1
  | cons y ys =>
    obtain ⟨hid, pin, f⟩ := y
    simp [h, hh] at h1 h2
    obtain ⟨⟨rfl, rfl⟩, -⟩ := h1
    exact ⟨f, by rw [h2]⟩

/-- The end of a step changes the running frame alone. -/
theorem handlers_of_ended {s' t : State} {i : Instr} {k : Nat}
    (h : t = s'.goOn i k ∨ t = s'.finish ∨ ∃ r, t = s'.finish.logEvent (.result s'.who r))
    {y : HandlerFrame} {ys : List HandlerFrame} (hh : s'.handlers = y :: ys) :
    t.main = s'.main ∧ ∃ f, t.handlers = { y with frame := f } :: ys := by
  rcases h with rfl | rfl | ⟨r, rfl⟩ <;> simp [State.goOn, State.finish, State.setTop, hh]

/-- A step taken while a handler runs keeps the main frame and every frame under the handler's, appends to `LOG`, and
changes the handler's frame, puts one above it, or returns from it and logs that (R144, R166). -/
theorem step_handlers {u t : State} (h : step u = .next t) {x : HandlerFrame} {xs : List HandlerFrame}
    (hu : u.handlers = x :: xs) :
    t.main = u.main ∧ (∃ es, t.log = u.log ++ es) ∧
      ((∃ f, t.handlers = { x with frame := f } :: xs) ∨ (∃ y f, t.handlers = y :: { x with frame := f } :: xs) ∨
        (t.handlers = xs ∧ t.log = u.log ++ [.ret x.hid x.pin])) := by
  have hs1 : ∀ f : Frame, (u.popChoice.setTop f).handlers = { x with frame := f } :: xs ∧
      (u.popChoice.setTop f).main = u.main ∧ (u.popChoice.setTop f).log = u.log := by
    intro f
    simp [State.setTop, State.popChoice, hu]
  rcases step_cases h with ⟨i, rest, -, he⟩ | rfl | ⟨p, d, cs, -, -, rfl⟩ | ⟨p, lvl, cs, -, -, -, rfl⟩ |
    ⟨p, hid, y, hd, rfl⟩ | ⟨rest, -, ht⟩
  · obtain ⟨a, b, c⟩ := hs1 { u.top with prog := rest }
    rcases exec_cases he with ⟨-, z, zs, hz, rfl⟩ | ⟨-, s', hk, hr⟩
    · rw [a] at hz
      cases hz
      have hl := congrArg (· ++ [Event.ret x.hid x.pin]) c
      exact ⟨b, ⟨_, hl⟩, .inr (.inr ⟨rfl, hl⟩)⟩
    · obtain ⟨f, hf⟩ := hk.head a
      have hm := hk.main (by simp [a])
      obtain ⟨m, g, hg⟩ := handlers_of_ended hr hf
      refine ⟨by rw [m, hm, b], ?_, .inl ⟨g, hg⟩⟩
      obtain ⟨es, hes, -⟩ := exec_log he
      exact ⟨es, by rw [hes, c]⟩
  · exact ⟨rfl, ⟨[], by simp [State.popChoice]⟩, .inl ⟨x.frame, by simp [State.popChoice, hu]⟩⟩
  · exact ⟨rfl, ⟨_, rfl⟩, .inl ⟨x.frame, by simp [padDrive, State.popChoice, State.setExt, hu]⟩⟩
  · obtain ⟨hm, hh, hl⟩ : (padLevel p lvl u.popChoice).main = u.main ∧ (padLevel p lvl u.popChoice).handlers = u.handlers ∧
        (padLevel p lvl u.popChoice).log = u.log ++ [.padLevel p lvl] := by
      unfold padLevel
      rcases latchEdge_cases p (u.popChoice.inp.getLsbD p.toNat) lvl
        { u.popChoice with inp := putBit u.popChoice.inp p.toNat lvl } with h | ⟨h, -⟩ <;> rw [h] <;> simp [State.popChoice]
    exact ⟨hm, ⟨_, hl⟩, .inl ⟨x.frame, by rw [hh, hu]⟩⟩
  · exact ⟨rfl, ⟨_, rfl⟩, .inr (.inl ⟨_, x.frame, by simp [takeInterrupt, hu]; rfl⟩)⟩
  · obtain ⟨a, b, c⟩ := hs1 { u.top with prog := rest }
    have hb := ht.busOnly
    obtain ⟨es, hes⟩ : ∃ es, t.log = u.log ++ es := by
      rcases ht.keeps.log with h | ⟨_, _, _, h⟩
      · exact ⟨[], by rw [h, c]; simp⟩
      · exact ⟨_, by rw [h, c]⟩
    exact ⟨by rw [hb.main, b], ⟨es, hes⟩, .inl ⟨_, by rw [hb.handlers, a]⟩⟩

end Sys2Proof.Machine
end

