-- ==== Sys2Proof/Tests/Slice0.lean ====
section
/-! SUPPORT. Tests: well-formedness, decoding word by word, one-step vectors of 95_test_vectors.md (its identifiers stand in the
comments), and a witness for the hypotheses of each obligation. -/

namespace Sys2Proof.Tests

open Sys2Proof.Machine

/-! ## Reading an outcome -/

def nextSat (o : Host.Outcome State Fault Refusal) (p : State → Bool) : Bool :=
  match o with
  | .next s => p s
  | _ => false

def faultIs (o : Host.Outcome State Fault Refusal) (f : Fault) : Bool :=
  match o with
  | .fault g => decide (f = g)
  | _ => false

def refusalIs (o : Host.Outcome State Fault Refusal) (r : Refusal) : Bool :=
  match o with
  | .refused q => decide (r = q)
  | _ => false

/-! ## States -/

/-- The reset state with a main program, and answers and draws listed. -/
def program (rs : List Request) : State :=
  { State.reset with
    main := Frame.idle rs
    inputs := { sched := [], answers := [true, true], draws := [0xFFFFFFFF, 0, 0, 0], fresh := 0 } }

/-- The main frame at step `k` of `i`, its temporaries as given. -/
def atStep (i : Instr) (k : Nat) (t e : Word) : State :=
  { program [] with main := { cur := some { instr := i, label := k }, prog := [], t := t, e := e, v := 0 } }

/-- A pin bound to the falling edge with handler 5, its sampled level high. -/
def boundPin : State :=
  { ((program []).setBind 27 { state := .bound, edge := some .falling, handler := some 5 }) with
    svc := true, inp := 0x08000000 }

/-- The same with choices listed. -/
def offered (s : State) (cs : List Choice) : State := { s with inputs := { s.inputs with sched := cs } }

/-! ## WellFormed: a term each check refuses (R181), and one all accept -/

theorem test_ref_wellFormed : Config.ref.wellFormed = true := by decide

/-- R7: the range of `PIN_MAX`, both ends. -/
theorem test_pinMax_refused :
    { Config.ref with pinMax := 26 }.pinMaxOk = false ∧ { Config.ref with pinMax := 64 }.pinMaxOk = false ∧
      { Config.ref with pinMax := 27 }.pinMaxOk = true ∧ { Config.ref with pinMax := 63 }.pinMaxOk = true ∧
      { Config.ref with pinMax := 64 }.wellFormed = false := by decide

/-- R8: pin 27 missing; a pin above `PIN_MAX`. -/
theorem test_validPins_refused :
    { Config.ref with validPins := [21] }.validPinsOk = false ∧
      { Config.ref with validPins := [21, 27, 40] }.validPinsOk = false ∧
      { Config.ref with validPins := [21] }.wellFormed = false := by decide

/-- R9: a base that is no multiple of 4. -/
theorem test_basesAligned_refused :
    { Config.ref with bG := 0x3FF44002 }.basesAligned = false ∧ { Config.ref with bM := 0x3FF49001 }.wellFormed = false := by
  decide

/-- R9: overlapping blocks, and a block that wraps. -/
theorem test_basesApart_refused :
    { Config.ref with bG := 0x3FF49FC4 }.basesApart = false ∧ { Config.ref with bG := 0xFFFFFFC4 }.basesApart = false ∧
      { Config.ref with bG := 0xFFFFFFC0 }.basesApart = true ∧
      { Config.ref with bG := 0x3FF49FC4 }.wellFormed = false := by decide

/-- R10: pin 27 with no entry; an entry for a pin outside `VALID_PINS`. -/
theorem test_iomuxDomain_refused :
    { Config.ref with iomux := [(21, 0x7C)] }.iomuxDomainOk = false ∧
      { Config.ref with iomux := [(21, 0x7C), (27, 0x2C), (30, 0x94)] }.iomuxDomainOk = false ∧
      { Config.ref with iomux := [(21, 0x7C)] }.wellFormed = false := by decide

/-- R10: an offset that is no multiple of 4. -/
theorem test_iomuxAligned_refused :
    { Config.ref with iomux := [(21, 0x7E), (27, 0x2C)] }.iomuxAligned = false ∧
      { Config.ref with iomux := [(21, 0x7E), (27, 0x2C)] }.wellFormed = false := by decide

/-- R10: two pins share an offset; a pin with two offsets. -/
theorem test_iomuxInjective_refused :
    { Config.ref with iomux := [(21, 0x2C), (27, 0x2C)] }.iomuxInjective = false ∧
      { Config.ref with iomux := [(21, 0x7C), (27, 0x2C), (21, 0x30)] }.iomuxInjective = false ∧
      { Config.ref with iomux := [(21, 0x2C), (27, 0x2C)] }.wellFormed = false := by decide

/-- R11: a field that leaves the word; two fields that overlap. -/
theorem test_muxf_refused :
    { Config.ref with muxf := { Config.ref.muxf with funLsb := 30 } }.muxfOk = false ∧
      { Config.ref with muxf := { Config.ref.muxf with puBit := 14 } }.muxfOk = false ∧
      { Config.ref with muxf := { Config.ref.muxf with puBit := 14 } }.wellFormed = false := by decide

/-- R14: `MAX_NEST` 0; unbounded is allowed. -/
theorem test_maxNest_refused :
    { Config.ref with maxNest := some 0 }.maxNestOk = false ∧ { Config.ref with maxNest := none }.wellFormed = true ∧
      { Config.ref with maxNest := some 0 }.wellFormed = false := by decide

/-- R16: a body that does not end with `HRET`. -/
theorem test_bodies_refused :
    { Config.ref with otherBody := [.pin 0x40840000] }.bodiesOk = false ∧
      { Config.ref with handlers := [{ hid := 5, pin := 27, body := [] }] }.bodiesOk = false ∧
      { Config.ref with otherBody := [.pin 0x40840000] }.wellFormed = false := by decide

/-- Whether a word is refused, by the decoder and by the check of well-formedness alike. -/
def refusedWord (r : Request) : Bool := decide (decode r = .reserved) && !r.wellFormed

/-- R102: reserved opcodes (the decoding table of 95_test_vectors.md, A12). -/
theorem test_reserved_opcodes :
    refusedWord (.pin 0x00000000) = true ∧ refusedWord (.pin 0xD6C00000) = true ∧ refusedWord (.pin 0xF0000000) = true ∧
      refusedWord (.access 0x00000000000000000) = true ∧ refusedWord (.access 0x43FF4402000000000) = true := by decide

/-- R103: each must-be-zero field (the decoding table of 95_test_vectors.md, A12): `arg`, `hid`, `rsv`, `pin`, `mask`. -/
theorem test_must_be_zero :
    refusedWord (.pin 0x56C40000) = true ∧ refusedWord (.pin 0x56C00001) = true ∧ refusedWord (.pin 0x56C10000) = true ∧
      refusedWord (.pin 0xC0400000) = true ∧ refusedWord (.access 0x13FF4402000000001) = true := by decide

/-! ## Decoding (B1 to B19, A1 to A11, R-1, R-6, section 7 of 30_encoding.md, the decoding table) -/

theorem test_decode_bus_reads :
    decode (.bus 0x000400000000) = .instr .rdOut ∧ decode (.bus 0x002000000000) = .instr .rdEnable ∧
      decode (.bus 0x003C00000000) = .instr .rdIn ∧ decode (.bus 0x107C00000000) = .instr (.rdMux 0x07C) := by decide

theorem test_decode_bus_writes :
    decode (.bus 0x200400000001) = .instr (.wrOut 1) ∧ decode (.bus 0x200808000000) = .instr (.wrOutSet 0x08000000) ∧
      decode (.bus 0x200C08000000) = .instr (.wrOutClear 0x08000000) ∧
      decode (.bus 0x202000000000) = .instr (.wrEnable 0) ∧
      decode (.bus 0x202408000000) = .instr (.wrEnableSet 0x08000000) ∧
      decode (.bus 0x202800200000) = .instr (.wrEnableClear 0x00200000) ∧
      decode (.bus 0x307C00002100) = .instr (.wrMux 0x07C 0x00002100) := by decide

/-- B16 to B18: no decode error, but a transaction that no row names. -/
theorem test_decode_bus_unlisted :
    decode (.bus 0x000800000000) = .gpioRead 0x008 ∧ decode (.bus 0x203C00000001) = .gpioWrite 0x03C 1 ∧
      decode (.bus 0x000000000000) = .gpioRead 0x000 := by decide

theorem test_decode_access :
    decode (.access 0x13FF4402000000000) = .instr (.regRead 0x3FF44020) ∧
      decode (.access 0x23FF4400808000000) = .instr (.setBits 0x3FF44008 0x08000000) ∧
      decode (.access 0x33FF4400C08000000) = .instr (.clearBits 0x3FF4400C 0x08000000) := by decide

theorem test_decode_pin :
    decode (.pin 0x16C00000) = .instr (.gpioBit 27) ∧ decode (.pin 0x25400000) = .instr (.iomuxAddr 21) ∧
      decode (.pin 0x36DC0000) = .instr (.init 27 7) ∧ decode (.pin 0x46C80000) = .instr (.write 27 2) ∧
      decode (.pin 0x5A000000) = .instr (.read 40) ∧ decode (.pin 0x66C00000) = .instr (.enablePullup 27) ∧
      decode (.pin 0x76C00000) = .instr (.enablePulldown 27) ∧
      decode (.pin 0x86CC0005) = .instr (.configInterruption 27 3 5) ∧
      decode (.pin 0x9A000000) = .instr (.excludeInterruption 40) ∧ decode (.pin 0xA0000000) = .instr .irqDisable ∧
      decode (.pin 0xB0000000) = .instr .irqEnable ∧ decode (.pin 0xC0000000) = .instr .hret := by decide

/-- Encoding the same operations gives the words the spec prints. -/
theorem test_encode_words :
    encode (.init 27 1) = .pin 0x36C40000 ∧ encode (.configInterruption 27 2 5) = .pin 0x86C80005 ∧
      encode (.wrMux 0x07C 0x00000100) = .bus 0x307C00000100 ∧
      encode (.setBits 0x3FF4907C 0x00000100) = .access 0x23FF4907C00000100 := by decide

theorem test_decodeTableWord :
    decodeTableWord 48 0x000400000000 = some .rdOut ∧ decodeTableWord 46 0x300000000000 = some (.wrMux 0 0) ∧
      decodeTableWord 72 0x10000000000000000 = some (.regRead 0) ∧ decodeTableWord 32 0xC0000000 = some .hret ∧
      decodeTableWord 32 0 = none ∧ decodeTableWord 48 0x400000000000 = none := by decide

/-! ## The step fetches what is placed -/

theorem test_step_runs_the_placed_word :
    nextSat (step (State.reset.withFetchWord 32 0xA0000000)) (fun t => !t.irqEn) = true ∧
      nextSat (step (State.reset.withFetchWord 46 0x200808000000)) (fun t => t.out == 0x08000000) = true ∧
      nextSat (step (State.reset.withFetchWord 68 0x23FF4400808000000)) (fun t => t.out == 0x08000000) = true := by decide

theorem test_step_at_reset : nextSat (step State.reset) (fun t => decide (t = State.reset)) = true := by decide

/-- A12 and the decoding table: the step refuses a reserved word; B16: it faults on an illegal
transaction. -/
theorem test_step_stops :
    refusalIs (step (program [.pin 0xD6C00000])) (.reservedOp (.pin 0xD6C00000)) = true ∧
      faultIs (step (program [.bus 0x000800000000])) (.badAccess 0x3FF44008 .read) = true ∧
      faultIs (step (program [.bus 0x203C00000001])) (.badAccess 0x3FF4403C .write) = true := by decide

/-- The IO-MUX block right above the seven GPIO registers, which R9 allows. -/
def closeBlocks : Config := { Config.ref with bM := Config.ref.bG + 0x40 }

/-- R64, R65, R88: with the blocks so close `blk = 0` and `off = 0x40 + IOMUX_OFF(0) = 0x84` is the address of `MUX[0]`: a
legal write of it and a legal read; one word further (`IOMUX_OFF(2)` is 0x40, pin 2's register 0x80) the same; 0xFFC faults. -/
theorem test_step_blk0_names_a_mux_register :
    closeBlocks.wellFormed = true ∧
      nextSat (step { program [.bus 0x208400000100] with cfg := closeBlocks }) (fun t => (t.muxAt 0).pu) = true ∧
      nextSat (step { program [.bus 0x008400000000] with cfg := closeBlocks })
        (fun t => t.log.length == 1 && t.main.cur.isNone && t.main.prog.isEmpty) = true ∧
      nextSat (step { program [.bus 0x208000000100] with cfg := closeBlocks }) (fun t => (t.muxAt 2).pu) = true ∧
      faultIs (step { program [.bus 0x0FFC00000000] with cfg := closeBlocks }) (.badAccess 0x3FF44FFC .read) = true := by
  decide

/-! ## Bus transactions -/

/-- B1, B8, B12. -/
theorem test_reads :
    nextSat (exec .rdOut { program [] with out := 0x08000000 })
        (fun t => decide (t.log = [.txn .main .read 0x3FF44004 0x08000000])) = true ∧
      nextSat (exec .rdEnable { program [] with enable := 0x08000000 })
        (fun t => decide (t.log = [.txn .main .read 0x3FF44020 0x08000000])) = true ∧
      nextSat (exec .rdIn { program [] with inp := 0x00200000 })
        (fun t => decide (t.log = [.txn .main .read 0x3FF4403C 0x00200000])) = true := by decide

/-- B2, B3, B6. -/
theorem test_writes_of_out :
    nextSat (exec (.wrOut 1) { program [] with out := 0xFFFFFFFF }) (fun t => t.out == 1) = true ∧
      nextSat (exec (.wrOutSet 0x08000000) { program [] with out := 4 }) (fun t => t.out == 0x08000004) = true ∧
      nextSat (exec (.wrOutClear 0x08000000) { program [] with out := 0x08000004 }) (fun t => t.out == 4) = true := by
  decide

/-- B9, B10, B11. -/
theorem test_writes_of_enable :
    nextSat (exec (.wrEnable 0) { program [] with enable := 5 }) (fun t => t.enable == 0) = true ∧
      nextSat (exec (.wrEnableSet 0x08000000) (program [])) (fun t => t.enable == 0x08000000) = true ∧
      nextSat (exec (.wrEnableClear 0x00200000) { program [] with enable := 0x08200000 })
        (fun t => t.enable == 0x08000000) = true := by decide

/-- B13: the named bits are `0x0100`; the draw, all ones here, is seen only outside the mask `0x7F83` of the names. -/
theorem test_rdMux :
    nextSat (exec (.rdMux 0x07C) ((program []).setMux 21 { MuxReg.reset with pu := true }))
      (fun t => decide (t.log = [.txn .main .read 0x3FF4907C 0xFFFF817C])) = true := by decide

/-- B14, B15. -/
theorem test_wrMux :
    nextSat (exec (.wrMux 0x07C 0x00002100) (program []))
        (fun t => decide (t.muxAt 21 = { MuxReg.reset with func := 2, pu := true })) = true ∧
      nextSat (exec (.wrMux 0x07C 0xFFFFFFFF) (program []))
        (fun t => decide (t.muxAt 21 =
          { func := 7, drv := 3, ie := true, pu := true, pd := true, slp := true, oe := true })) = true := by decide

/-- B19, and the write. -/
theorem test_mux_unmapped :
    faultIs (exec (.rdMux 0) (program [])) (.badAccess 0x3FF49000 .read) = true ∧
      faultIs (exec (.wrMux 0 1) (program [])) (.badAccess 0x3FF49000 .write) = true := by decide

/-! ## RegisterAccess -/

/-- A1, A10. -/
theorem test_regRead :
    nextSat (exec (.regRead 0x3FF44020) { program [] with enable := 0x08000000 })
        (fun t => decide (t.log.getLast? = some (.result .main { code := .ok, value := 0x08000000 }))) = true ∧
      faultIs (exec (.regRead 0x3FF44008) (program [])) (.badAccess 0x3FF44008 .read) = true := by decide

/-- A2, A8, A11; the second step of A4 with a stale `t` (R184). -/
theorem test_setBits :
    nextSat (exec (.setBits 0x3FF44008 0x08000000) { program [] with out := 4 }) (fun t => t.out == 0x08000004) = true ∧
      refusalIs (exec (.setBits 0x3FF4400C 1) (program [])) (.misuse .setBits 0x3FF4400C) = true ∧
      faultIs (exec (.setBits 0x3FF44010 1) (program [])) (.badAccess 0x3FF44010 .write) = true ∧
      nextSat (exec (.setBits 0x3FF44004 4) (atStep (.setBits 0x3FF44004 4) 1 0x08000000 0))
        (fun t => t.out == 0x08000004) = true := by decide

/-- A3, A9; the second step of A6. -/
theorem test_clearBits :
    nextSat (exec (.clearBits 0x3FF4400C 0x08000000) { program [] with out := 0x08000004 }) (fun t => t.out == 4) = true ∧
      refusalIs (exec (.clearBits 0x3FF4403C 1) (program [])) (.misuse .clearBits 0x3FF4403C) = true ∧
      nextSat (exec (.clearBits 0x3FF4907C 0x80) (atStep (.clearBits 0x3FF4907C 0x80) 1 0x180 0))
        (fun t => decide (t.muxAt 21 = { MuxReg.reset with pu := true })) = true := by decide

/-! ## PinRegistry -/

/-- R-1, R-3, R-4. -/
theorem test_gpioBit :
    resultWord (gpioBitResult Config.ref 27) = 0x00000001B ∧ resultWord (gpioBitResult Config.ref 31) = 0x200000000 ∧
      resultWord (gpioBitResult Config.ref 32) = 0x200000000 := by decide

/-- R-6, R-8, R-9. -/
theorem test_iomuxAddr :
    resultWord (iomuxAddrResult Config.ref 21) = 0x03FF4907C ∧ resultWord (iomuxAddrResult Config.ref 30) = 0x200000000 ∧
      iomuxAddrResult Config.ref 34 = { code := .ok, value := 0x3FF49014 } := by decide

/-! ## GpioController -/

/-- S2: step `i1` for `Output`; G-1: step `i3` gives the transient function 7 and step `i5` the function 2. -/
theorem test_init_steps :
    nextSat (exec (.init 27 1) { atStep (.init 27 1) 1 0 0 with enable := 0x00200000 })
        (fun t => t.enable == 0x08200000) = true ∧
      nextSat (exec (.init 27 1) (atStep (.init 27 1) 3 0x5A82 0)) (fun t => (t.muxAt 27).func == 7) = true ∧
      nextSat (exec (.init 27 1) (atStep (.init 27 1) 5 0x7A82 0))
        (fun t => decide (t.muxAt 27 =
          { func := 2, drv := 2, ie := true, pu := false, pd := true, slp := true, oe := false })) = true := by decide

/-- G-3, G-5, G-6. -/
theorem test_init_errors :
    nextSat (exec (.init 27 7) (program [])) (fun t => decide (t.log = [.result .main (errResult .invalidMode)])) = true ∧
      nextSat (exec (.init 33 1) (program [])) (fun t => decide (t.log = [.result .main (errResult .invalidPin)])) = true ∧
      nextSat (exec (.init 40 7) (program [])) (fun t => decide (t.log = [.result .main (errResult .invalidPin)])) = true := by
  decide

/-- G-7, G-8, G-9. -/
theorem test_write :
    nextSat (exec (.write 27 1) { atStep (.write 27 1) 1 0 0 with out := 4 }) (fun t => t.out == 0x08000004) = true ∧
      nextSat (exec (.write 27 0) { atStep (.write 27 0) 1 0 0 with out := 0x08000004 }) (fun t => t.out == 4) = true ∧
      nextSat (exec (.write 27 2) (program [])) (fun t => decide (t.log = [.result .main (errResult .invalidMode)])) = true := by
  decide

/-- G-15: `e` chosen before the mode changed; G-13: the sensed level. -/
theorem test_read :
    nextSat (exec (.read 27) { atStep (.read 27) 2 0 0x08000000 with out := 0x08000000 })
        (fun t => decide (t.log = [.txn .main .read 0x3FF44004 0x08000000, .result .main (okValue 1)])) = true ∧
      nextSat (exec (.read 27) { atStep (.read 27) 2 0 0 with out := 0x08000000 })
        (fun t => decide (t.log = [.txn .main .read 0x3FF4403C 0, .result .main (okValue 0)])) = true := by decide

/-! ## IoMuxController -/

/-- M2: the transient with both pulls on, then the end; M7. -/
theorem test_pulls :
    nextSat (exec (.enablePulldown 21) (atStep (.enablePulldown 21) 2 0x100 0))
        (fun t => decide (pullConfig (t.muxAt 21) = .both)) = true ∧
      nextSat (exec (.enablePulldown 21) (atStep (.enablePulldown 21) 4 0x180 0))
        (fun t => decide (pullConfig (t.muxAt 21) = .pullDown) && t.log.length == 1) = true ∧
      faultIs (exec (.enablePullup 30) (program [])) (.uncheckedPin 30) = true := by decide

/-- M6 (a pin of 32 or more with an entry), M3. -/
theorem test_pullup :
    nextSat (exec (.enablePullup 34) (atStep (.enablePullup 34) 2 0 0)) (fun t => (t.muxAt 34).pu) = true ∧
      nextSat (exec (.enablePullup 21) (atStep (.enablePullup 21) 4 0x2180 0))
        (fun t => decide (t.muxAt 21 = { MuxReg.reset with func := 2, pu := true })) = true := by decide

/-! ## InterruptBinding -/

/-- I-1: the first step and the last; I-7. -/
theorem test_config :
    nextSat (exec (.configInterruption 27 2 5) (program []))
        (fun t => decide ((t.bindAt 27).state = .configuring) && t.log.isEmpty) = true ∧
      nextSat (exec (.configInterruption 27 2 5) (atStep (.configInterruption 27 2 5) 12 0 0))
        (fun t => decide ((t.bindAt 27).state = .bound) && decide ((t.bindAt 27).handler = some 5)) = true ∧
      nextSat (exec (.configInterruption 27 1 6) boundPin)
        (fun t => decide (t.log = [.result .main (errResult .configurationFailure)]) &&
          decide (t.bind = boundPin.bind)) = true := by decide

/-- I-2 at `c10`; I-4 at `c11`; I-8. -/
theorem test_config_fails :
    nextSat (exec (.configInterruption 27 3 5)
        ((atStep (.configInterruption 27 3 5) 10 0 0).setBind 27 { state := .configuring, edge := none, handler := none }))
        (fun t => decide (t.bindAt 27 = Binding.reset) &&
          decide (t.log = [.result .main (errResult .configurationFailure)])) = true ∧
      nextSat (exec (.configInterruption 27 2 5)
        { (atStep (.configInterruption 27 2 5) 11 0 0) with
          inputs := { sched := [], answers := [false], draws := [], fresh := 0 } })
        (fun t => !t.svc && decide (t.log = [.result .main (errResult .configurationFailure)])) = true ∧
      nextSat (exec (.configInterruption 40 2 5) (program []))
        (fun t => decide (t.log = [.result .main (errResult .configurationFailure)])) = true := by decide

/-- I-9, I-11. -/
theorem test_exclude :
    nextSat (exec (.excludeInterruption 27) (boundPin.setPend 27 true))
        (fun t => decide (t.bindAt 27 = { state := .unbound, edge := some .falling, handler := none }) &&
          !t.pendAt 27) = true ∧
      nextSat (exec (.excludeInterruption 40) (program []))
        (fun t => decide (t.log = [.result .main (errResult .invalidPin)])) = true := by decide

/-- I-12, I-13. -/
theorem test_context_control :
    nextSat (exec .irqDisable (program [])) (fun t => !t.irqEn) = true ∧
      nextSat (exec .irqEnable { program [] with irqEn := false }) (fun t => t.irqEn) = true ∧
      refusalIs (exec .hret (program [])) .noHandler = true ∧
      nextSat (exec .hret (takeInterrupt 27 5 boundPin)) (fun t => decide (t.handlers = boundPin.handlers)) = true := by
  decide

/-! ## Events -/

/-- E1, E2: a falling edge is latched and dispatched; the level unchanged latches nothing. -/
theorem test_falling_edge :
    (padLevel 27 false boundPin).pendAt 27 = true ∧ (padLevel 27 true boundPin).pendAt 27 = false ∧
      dispatchable (padLevel 27 false boundPin) 27 = some 5 ∧
      nextSat (step (offered (padLevel 27 false boundPin) [.dispatch 27]))
        (fun t => decide (t.handlers.map (fun h => (h.hid, h.pin)) = [(5, 27)]) && !t.pendAt 27) = true := by decide

/-- E5: `IRQ_EN = 0` defers; E9: a pin not bound latches nothing. -/
theorem test_deferred :
    (padLevel 27 false { boundPin with irqEn := false }).pendAt 27 = true ∧
      dispatchable (padLevel 27 false { boundPin with irqEn := false }) 27 = none ∧
      (padLevel 27 false (boundPin.setBindState 27 .configuring)).pendAt 27 = false := by decide

/-- E10 and M8: what a pad may be sampled at. -/
theorem test_sense :
    sensed ((program []).setMux 27 { MuxReg.reset with pu := true }) 27 false = false ∧
      sensed (((program []).setMux 27 { MuxReg.reset with pu := true }).setExt 27 .l) 27 true = false ∧
      sensed ((program []).setMux 21 { MuxReg.reset with pu := true, pd := true }) 21 false = true := by decide

end Sys2Proof.Tests
end

