-- ==== Sys2Proof/Tests/Witness.lean ====
section
/-! SUPPORT. For each obligation with hypotheses, a concrete state and operands that meet them, clause by clause, at values on
the boundaries: test_witness_N is obligation N's, and a comment says where one serves several. -/

namespace Sys2Proof.Tests

open Sys2Proof.Machine

/-! ## Encoding and the bus -/

/-- Both verdicts occur. -/
theorem test_witness_ReservedWordsAreTheIllFormedOnes :
    decode (.pin 0x56C10000) = .reserved ∧ decode (.pin 0x56C00000) ≠ .reserved := by decide

theorem test_witness_GpioReadsReturnTheRegister : State.reset.Idle := rfl

theorem test_witness_WritesOfOut : State.reset.Idle := rfl

theorem test_witness_WritesOfEnable : (takeInterrupt 27 5 boundPin).Idle := rfl

/-- An offset with a register, and two with none, the lowest and the highest. -/
theorem test_witness_RdMuxReturnsTheFields :
    State.reset.cfg.wellFormed = true ∧ State.reset.Idle ∧ iomuxOff State.reset.cfg 20 = some 0x078 ∧
      (∀ p, iomuxOff State.reset.cfg p ≠ some 0x000) ∧ (∀ p, iomuxOff State.reset.cfg p ≠ some 0xFFC) :=
  ⟨by decide, rfl, by decide, by decide, by decide⟩

theorem test_witness_WrMuxReplacesTheFields :
    State.reset.cfg.wellFormed = true ∧ State.reset.Idle ∧ iomuxOff State.reset.cfg 39 = some 0x010 ∧
      (∀ p, iomuxOff State.reset.cfg p ≠ some 0xFFF) ∧
      (∀ b ∈ State.reset.cfg.muxf.bits, (0x00000008 : Word).getLsbD b = (0 : Word).getLsbD b) :=
  ⟨by decide, rfl, by decide, by decide, by decide⟩

/-- Bits outside the named ten: the lowest and the highest. -/
theorem test_witness_MuxWordLayout :
    Config.ref.wellFormed = true ∧ 2 ∉ Config.ref.muxf.bits ∧ 31 ∉ Config.ref.muxf.bits := by decide

/-- Unmapped addresses: inside the GPIO block, in the IO-MUX block, outside both, misaligned. The fetched words: a read of a
write-only port, a write of `IN`, and the two ends of the offsets below 0x40. -/
theorem test_witness_IllegalTransactionsFault :
    (regAt State.reset.cfg 0x3FF44000 = none ∧ regAt State.reset.cfg 0x3FF49000 = none ∧
        regAt State.reset.cfg 0x00000000 = none ∧ regAt State.reset.cfg 0x3FF44005 = none) ∧
      (program []).cfg.wellFormed = true ∧
      (program [.bus (packBus 0 0 0x008 0)]).inputs.sched = [] ∧ (program [.bus (packBus 0 0 0x008 0)]).Idle ∧
      (program [.bus (packBus 0 0 0x008 0)]).top.prog = .bus (packBus 0 0 0x008 0) :: [] ∧
      (program [.bus (packBus 1 0 0x03C 1)]).top.prog = .bus (packBus 1 0 0x03C 1) :: [] ∧
      (∀ off ∈ [(0x000 : Off), 0x008, 0x03F], off.toNat < 0x40 ∧ off ∉ [(0x04 : Off), 0x20, 0x3C]) ∧
      ∀ off ∈ [(0x000 : Off), 0x03C, 0x03F], off.toNat < 0x40 ∧ off ∉ [(0x04 : Off), 0x08, 0x0C, 0x20, 0x24, 0x28] :=
  ⟨by decide, by decide, rfl, rfl, rfl, rfl, by decide, by decide⟩

theorem test_witness_AddressMap :
    Config.ref.wellFormed = true ∧ (0x00 : Word) ∉ [(0x04 : Word), 0x08, 0x0C, 0x20, 0x24, 0x28, 0x3C] ∧
      (0x3F : Word) ∉ [(0x04 : Word), 0x08, 0x0C, 0x20, 0x24, 0x28, 0x3C] ∧
      (∀ p, iomuxOff Config.ref p ≠ some 0x094) ∧ iomuxOff Config.ref 0 = some 0x044 := by decide

theorem test_witness_WritesAreIdempotent :
    memWrite 0x3FF44008 5 State.reset =
      .ok ({ State.reset with out := 0 ||| 5 }.logEvent (.txn .main .write 0x3FF44008 5)) := rfl

/-! ## RegisterAccess -/

theorem test_witness_RegReadReturnsTheWord :
    State.reset.Idle ∧ disc State.reset.cfg 0x3FF44004 = some .direct ∧ disc State.reset.cfg 0x3FF4403C = some .readOnly ∧
      disc State.reset.cfg 0x3FF44008 = some .setOnly ∧ disc State.reset.cfg 0x3FF44028 = some .clearOnly ∧
      disc State.reset.cfg 0x3FF44000 = none := ⟨rfl, by decide, by decide, by decide, by decide, by decide⟩

theorem test_witness_SetBitsByDiscipline :
    State.reset.Idle ∧ disc State.reset.cfg 0x3FF44024 = some .setOnly ∧ disc State.reset.cfg 0x3FF4907C = some .direct ∧
      disc State.reset.cfg 0x3FF4400C = some .clearOnly ∧ disc State.reset.cfg 0x3FF4403C = some .readOnly ∧
      disc State.reset.cfg 0x3FF44010 = none ∧
      (atStep (.setBits 0x3FF4907C 1) 1 7 0).At (.setBits 0x3FF4907C 1) 1 ∧
      disc (atStep (.setBits 0x3FF4907C 1) 1 7 0).cfg 0x3FF4907C = some .direct :=
  ⟨rfl, by decide, by decide, by decide, by decide, by decide, rfl, by decide⟩

theorem test_witness_ClearBitsByDiscipline :
    State.reset.Idle ∧ disc State.reset.cfg 0x3FF44028 = some .clearOnly ∧
      disc State.reset.cfg 0x3FF44020 = some .direct ∧ disc State.reset.cfg 0x3FF44008 = some .setOnly ∧
      disc State.reset.cfg 0x3FF4403C = some .readOnly ∧ disc State.reset.cfg 0x3FF44040 = none ∧
      (atStep (.clearBits 0x3FF44020 1) 1 7 0).At (.clearBits 0x3FF44020 1) 1 :=
  ⟨rfl, by decide, by decide, by decide, by decide, by decide, rfl⟩

theorem test_witness_MaskedUpdateOfAMuxRegister :
    State.reset.cfg.wellFormed = true ∧ muxValid State.reset.cfg 39 = true ∧ State.reset.Idle := ⟨by decide, by decide, rfl⟩

theorem test_witness_StaleTemporaryIsWrittenBack :
    (atStep (.setBits (Config.ref.bG + 0x04) 4) 1 7 0).At
        (.setBits ((atStep (.setBits (Config.ref.bG + 0x04) 4) 1 7 0).cfg.bG + 0x04) 4) 1 ∧
      (atStep (.clearBits (Config.ref.bG + 0x04) 4) 1 7 0).At
        (.clearBits ((atStep (.clearBits (Config.ref.bG + 0x04) 4) 1 7 0).cfg.bG + 0x04) 4) 1 ∧
      (atStep (.setBits (Config.ref.bG + 0x20) 4) 1 7 0).At
        (.setBits ((atStep (.setBits (Config.ref.bG + 0x20) 4) 1 7 0).cfg.bG + 0x20) 4) 1 ∧
      (atStep (.clearBits (Config.ref.bG + 0x20) 4) 1 7 0).At
        (.clearBits ((atStep (.clearBits (Config.ref.bG + 0x20) 4) 1 7 0).cfg.bG + 0x20) 4) 1 ∧
      (program []).cfg.wellFormed = true ∧ muxValid (program []).cfg 21 = true ∧
      ∀ x ∈ [(Instr.setBits (muxAddr Config.ref 21) 4, 1), (.clearBits (muxAddr Config.ref 21) 4, 1), (.enablePullup 21, 2),
          (.enablePullup 21, 4), (.enablePulldown 21, 2), (.enablePulldown 21, 4), (.init 21 1, 3), (.init 21 1, 5),
          (.configInterruption 21 2 5, 3), (.configInterruption 21 2 5, 5), (.configInterruption 21 2 5, 7),
          (.configInterruption 21 2 5, 9)], (atStep x.1 x.2 7 0).At x.1 x.2 :=
  ⟨rfl, rfl, rfl, rfl, by decide, by decide, fun _ _ => rfl⟩

/-! ## PinRegistry and errors -/

/-- A member; a number with no member; the first pin with no bit; the last number. -/
theorem test_witness_GpioBitAnswers :
    State.reset.Idle ∧ (0 ∈ State.reset.cfg.validPins ∧ (0 : Pin).toNat ≤ 31) ∧
      ¬ (31 ∈ State.reset.cfg.validPins ∧ (31 : Pin).toNat ≤ 31) ∧
      ¬ (32 ∈ State.reset.cfg.validPins ∧ (32 : Pin).toNat ≤ 31) ∧
      ¬ (63 ∈ State.reset.cfg.validPins ∧ (63 : Pin).toNat ≤ 31) := ⟨rfl, by decide, by decide, by decide, by decide⟩

theorem test_witness_IomuxAddrAnswers :
    State.reset.Idle ∧ State.reset.cfg.wellFormed = true ∧ iomuxOff State.reset.cfg 32 = some 0x01C ∧
      iomuxOff State.reset.cfg 28 = none ∧ iomuxOff State.reset.cfg 40 = none := ⟨rfl, by decide, by decide, by decide, by decide⟩

theorem test_witness_InvalidModeErrors :
    2 ≤ (2 : BitVec 4).toNat ∧ 2 ≤ (15 : BitVec 4).toNat ∧ State.reset.Idle ∧ gpioValid State.reset.cfg 27 = true ∧
      muxValid State.reset.cfg 27 = true := ⟨by decide, by decide, rfl, by decide, by decide⟩

theorem test_witness_InvalidPinErrors :
    State.reset.Idle ∧ gpioValid State.reset.cfg 32 = false ∧ gpioValid State.reset.cfg 28 = false ∧
      muxValid State.reset.cfg 30 = false ∧
      nextSat (exec (.enablePullup 21) State.reset) (fun _ => true) = true ∧
      nextSat (exec (.configInterruption 40 2 5) State.reset) (fun _ => true) = true :=
  ⟨rfl, by decide, by decide, by decide, by decide, by decide⟩

/-! ## GpioController -/

/-- For a pin and the two members of each enumeration: InitStepByStep, InitPostcondition, ReadStepByStep,
ReadReturnsDrivenOrSensedLevel, OutputRoundTrip. -/
theorem test_witness_gpio_premises :
    (program []).cfg.wellFormed = true ∧ gpioValid (program []).cfg 27 = true ∧ muxValid (program []).cfg 27 = true ∧
      gpioValid (program []).cfg 0 = true ∧ (0 : BitVec 4).toNat < 2 ∧ (1 : BitVec 4).toNat < 2 ∧ (program []).Idle :=
  ⟨by decide, by decide, by decide, by decide, by decide, by decide, rfl⟩

/-- Every label of `INIT`; `atStep` differs from `program []` in the main frame only. -/
theorem test_witness_InitStepByStep :
    (atStep (.init 27 1) 1 0 0).cfg = (program []).cfg ∧ (atStep (.init 27 1) 1 0 0).At (.init 27 1) 1 ∧
      (atStep (.init 27 0) 1 0 0).At (.init 27 0) 1 ∧ (atStep (.init 27 1) 2 0 0).At (.init 27 1) 2 ∧
      (atStep (.init 27 1) 3 0 0).At (.init 27 1) 3 ∧ (atStep (.init 27 1) 4 0 0).At (.init 27 1) 4 ∧
      (atStep (.init 27 1) 5 0 0).At (.init 27 1) 5 := ⟨rfl, rfl, rfl, rfl, rfl, rfl, rfl⟩

/-- Also WriteTouchesOnlyItsBit's. -/
theorem test_witness_WriteSetsTheLevel :
    State.reset.Idle ∧ gpioValid State.reset.cfg 32 = false ∧ 2 ≤ (2 : BitVec 4).toNat ∧ (atStep (.write 27 1) 1 0 0).At (.write 27 1) 1 ∧ (atStep (.write 0 0) 1 0 0).At (.write 0 0) 1 ∧
      gpioValid (atStep (.write 0 0) 1 0 0).cfg 0 = true := ⟨rfl, by decide, by decide, rfl, rfl, by decide⟩

theorem test_witness_ReadStepByStep :
    (atStep (.read 27) 1 0 0).At (.read 27) 1 ∧ (atStep (.read 27) 2 0 0x08000000).At (.read 27) 2 ∧
      (atStep (.read 27) 2 0 0x08000000).top.e.getLsbD 27 = true ∧ (atStep (.read 27) 2 0 0).top.e.getLsbD 27 = false :=
  ⟨rfl, rfl, by decide, by decide⟩

/-! ## IoMuxController -/

theorem test_witness_PullStepByStep :
    State.reset.cfg.wellFormed = true ∧ muxValid State.reset.cfg 39 = true ∧ State.reset.Idle ∧
      muxValid State.reset.cfg 28 = false ∧ muxValid State.reset.cfg 63 = false ∧ (atStep (.enablePullup 39) 1 0 0).At (.enablePullup 39) 1 ∧ (atStep (.enablePullup 39) 2 0 0).At (.enablePullup 39) 2 ∧
      (atStep (.enablePulldown 39) 3 0 0).At (.enablePulldown 39) 3 ∧
      (atStep (.enablePulldown 39) 4 0 0).At (.enablePulldown 39) 4 :=
  ⟨by decide, by decide, rfl, by decide, by decide, rfl, rfl, rfl, rfl⟩

theorem test_witness_PullsAreExclusiveAfterwards :
    State.reset.cfg.wellFormed = true ∧ muxValid State.reset.cfg 34 = true ∧ State.reset.Idle := ⟨by decide, by decide, rfl⟩

/-! ## InterruptBinding -/

/-- The main frame configures pin 27 and is at step `k`; the next answers of `IntCtl` are as given. -/
def configuringAt (arg : BitVec 4) (k : Nat) (answers : List Bool) : State :=
  { ((atStep (.configInterruption 27 arg 5) k 0 0).setBind 27
      { state := .configuring, edge := some .falling, handler := none }) with
    inputs := { sched := [], answers := answers, draws := [], fresh := 0 } }

theorem test_witness_ConfigStepByStep :
    ((program []).bindAt 27).state = .unbound ∧
      (∀ k ∈ [1, 2, 3, 4, 5, 6, 7, 8, 9, 10, 11, 12],
        (configuringAt 2 k [true]).main.cur = some { instr := .configInterruption 27 2 5, label := k }) ∧
      (configuringAt 1 10 []).At (.configInterruption 27 1 5) 10 ∧ (configuringAt 2 11 [true]).svc = false ∧
      (askIntCtl (configuringAt 2 11 [true])).1 = true ∧ (askIntCtl (configuringAt 2 12 [true])).1 = true :=
  ⟨by decide, by decide, rfl, rfl, rfl, rfl⟩

theorem test_witness_ConfigFailureLeavesUnbound :
    gpioValid (configuringAt 0 10 []).cfg 27 = true ∧
      ((configuringAt 0 10 []).At (.configInterruption 27 0 5) 10 ∧ (0 : BitVec 4) ≠ 1 ∧ (0 : BitVec 4) ≠ 2) ∧
      ((configuringAt 15 10 []).At (.configInterruption 27 15 5) 10 ∧ (15 : BitVec 4) ≠ 1 ∧ (15 : BitVec 4) ≠ 2) ∧
      ((configuringAt 2 11 [false]).At (.configInterruption 27 2 5) 11 ∧ (configuringAt 2 11 [false]).svc = false ∧
        (askIntCtl (configuringAt 2 11 [false])).1 = false) ∧
      ((configuringAt 2 12 [false]).At (.configInterruption 27 2 5) 12 ∧
        (askIntCtl (configuringAt 2 12 [false])).1 = false) :=
  ⟨by decide, ⟨rfl, by decide, by decide⟩, ⟨rfl, by decide, by decide⟩, ⟨rfl, rfl, rfl⟩, ⟨rfl, rfl⟩⟩

theorem test_witness_ConfigRejects :
    boundPin.Idle ∧ (boundPin.bindAt 27).state ≠ .unbound ∧ gpioValid boundPin.cfg 32 = false ∧
      muxValid boundPin.cfg 31 = false := ⟨rfl, by decide, by decide, by decide⟩

theorem test_witness_ConfigBindsThePin :
    (program []).cfg.wellFormed = true ∧ gpioValid (program []).cfg 27 = true ∧ muxValid (program []).cfg 27 = true ∧
      ((2 : BitVec 4) = 1 ∨ (2 : BitVec 4) = 2) ∧ (program []).Idle ∧ ((program []).bindAt 27).state = .unbound ∧
      (program []).inputs.answers = true :: true :: [] :=
  ⟨by decide, by decide, by decide, by decide, rfl, by decide, rfl⟩

theorem test_witness_ServiceInstallIsIdempotent :
    { configuringAt 2 11 [] with svc := true }.At (.configInterruption 27 2 5) 11 ∧
      nextSat (exec .irqDisable boundPin) (fun _ => true) = true ∧ boundPin.svc = true := ⟨rfl, by decide, rfl⟩

/-- Also ExcludeTakesEffectAtOnce's, whose second clause holds of `boundPin` and pin 0, and IrqFlagOperations'. -/
theorem test_witness_ExcludeDetaches :
    gpioValid boundPin.cfg 27 = true ∧ boundPin.Idle ∧ (boundPin.bindAt 27).state = .bound ∧
      gpioValid boundPin.cfg 0 = true ∧ (boundPin.bindAt 0).state ≠ .bound := ⟨by decide, rfl, by decide, by decide, by decide⟩

theorem test_witness_HretReturns :
    (takeInterrupt 27 5 boundPin).handlers =
        { hid := 5, pin := 27, frame := Frame.idle [hretRequest] } :: boundPin.handlers ∧ boundPin.handlers = [] := ⟨rfl, rfl⟩

/-! ## Events and dispatch -/

/-- Both ends of the pads' range, and the first pin above it. -/
theorem test_witness_PadDriveSetsExt :
    (offered boundPin [.padDrive 31 .l]).inputs.sched = .padDrive 31 .l :: [] ∧
      (31 : Pin).toNat ≤ min boundPin.cfg.pinMax 31 ∧ (0 : Pin).toNat ≤ min boundPin.cfg.pinMax 31 ∧
      ¬ (32 : Pin).toNat ≤ min boundPin.cfg.pinMax 31 := ⟨rfl, by decide, by decide, by decide⟩

/-- Admissible; not, by the level; not, by the pin. -/
theorem test_witness_PadLevelSamplesAndLatches :
    (offered boundPin [.padLevel 27 false]).inputs.sched = .padLevel 27 false :: [] ∧
      (27 : Pin).toNat ≤ min boundPin.cfg.pinMax 31 ∧ sensed (offered boundPin [.padLevel 27 false]) 27 false = true ∧
      sensed (offered (boundPin.setExt 27 .h) [.padLevel 27 false]) 27 false = false ∧
      ¬ (32 : Pin).toNat ≤ min boundPin.cfg.pinMax 31 := ⟨rfl, by decide, by decide, by decide, by decide⟩

theorem test_witness_PadLevelAtTheSameLevel :
    (31 : Pin).toNat < 32 ∧ boundPin.inp.getLsbD 31 = false ∧ boundPin.inp.getLsbD 27 = true := by decide

/-- One state for each case of the table. -/
theorem test_witness_SenseTable :
    ({ boundPin with enable := 0x08000000 }.enable.getLsbD 27 = true) ∧ boundPin.enable.getLsbD 27 = false ∧
      (boundPin.setExt 27 .h).extAt 27 = .h ∧ (boundPin.setExt 27 .l).extAt 27 = .l ∧ boundPin.extAt 27 = .z ∧
      muxValid boundPin.cfg 27 = true ∧ hasPull boundPin.cfg 27 = true ∧
      ((boundPin.setMux 27 { MuxReg.reset with pu := true }).muxAt 27).pu = true ∧
      ((boundPin.setMux 27 { MuxReg.reset with pd := true }).muxAt 27).pd = true ∧
      (boundPin.muxAt 27).pu = (boundPin.muxAt 27).pd ∧ muxValid boundPin.cfg 30 = false ∧
      hasPull boundPin.cfg 34 = false := by decide

/-- Enabled, and turned off by each condition in turn. -/
theorem test_witness_DispatchInvokesTheHandler :
    (offered boundPin [.dispatch 27]).inputs.sched = .dispatch 27 :: [] ∧ (boundPin.bindAt 27).handler = some 5 ∧
      (27 : Pin).toNat < 32 ∧ (boundPin.setPend 27 true).pendAt 27 = true ∧ (boundPin.bindAt 27).state = .bound ∧
      boundPin.irqEn = true ∧ boundPin.cfg.maxNest = some 1 ∧ boundPin.handlers.length < 1 ∧
      ¬ boundPin.pendAt 27 = true ∧ ¬ (takeInterrupt 27 5 boundPin).handlers.length < 1 :=
  ⟨rfl, by decide, by decide, by decide, by decide, rfl, rfl, by decide, by decide, by decide⟩

theorem test_witness_FallingEdgeInvokesOnce :
    (27 : Pin).toNat < 32 ∧ boundPin.bindAt 27 = { state := .bound, edge := some .falling, handler := some 5 } ∧
      boundPin.pendAt 27 = false ∧ boundPin.irqEn = true ∧ nestingAllowed boundPin = true ∧
      boundPin.inp.getLsbD 27 = true ∧ { boundPin with inp := 0 }.inp.getLsbD 27 = false := by decide

/-- The invocation, one step of the handler, its return: the handler reads `OUT` and returns. -/
theorem test_witness_PreemptedFrameResumesIntact :
    let s := { boundPin with cfg := { Config.ref with otherBody := [.bus 0x000400000000, hretRequest] } }
    nextSat (step (takeInterrupt 27 5 s)) (fun u => decide (s.handlers.length < u.handlers.length) &&
      nextSat (step u) (fun t => decide (t.handlers.length ≤ s.handlers.length))) = true := by decide

/-- A pending edge, kept by one step and dropped by another; and the end of a section with an edge pending. -/
theorem test_witness_CriticalSectionDefers :
    let s := { boundPin.setPend 27 true with irqEn := false, main := Frame.idle [.pin 0xB0000000] }
    s.irqEn = false ∧ s.pendAt 27 = true ∧ nextSat (step s) (fun t => t.pendAt 27) = true ∧
      nextSat (step { s with main := Frame.idle [.pin 0x96C00000] }) (fun t => !t.pendAt 27) = true ∧
      s.main.cur = none ∧ nestingAllowed s = true ∧ (s.bindAt 27).state = .bound ∧ (s.bindAt 27).handler = some 5 := by
  decide

/-! ## The step -/

theorem test_witness_StepRunsTheDecodedInstr :
    (program [.pin 0xA0000000]).Idle ∧ (program [.pin 0xA0000000]).top.prog = .pin 0xA0000000 :: [] ∧
      decode (.pin 0xA0000000) = .instr .irqDisable ∧ (program [.pin 0xA0000000]).inputs.sched = [] ∧
      (offered (program [.pin 0xA0000000]) [.run]).inputs.sched = .run :: [] ∧
      (offered (program [.pin 0xA0000000]) [.run]).Idle ∧
      FrameMoves (program [.bus (packBus 0 0 0x040 0)]) (program [.bus (packBus 0 0 0x040 0)]) ∧
      (program [.bus (packBus 0 0 0x040 0)]).top.prog = .bus (packBus 0 0 0x040 0) :: [] ∧
      (0x040 : Off) ∉ [(0x04 : Off), 0x20, 0x3C] ∧ (0xFFF : Off) ∉ [(0x04 : Off), 0x08, 0x0C, 0x20, 0x24, 0x28] :=
  ⟨rfl, rfl, by decide, rfl, rfl, rfl, .inl ⟨rfl, rfl⟩, rfl, by decide, by decide⟩

/-- The transaction of the second clause, legal and not: MUX[2] when the blocks are close (`IOMUX_OFF(2)` is 0x40). -/
theorem test_witness_StepRunsTheDecodedInstr_unlisted :
    regAt closeBlocks (closeBlocks.bG + 0x080) = some (.mux 2) ∧ regAt Config.ref (Config.ref.bG + 0x080) = none := by decide

theorem test_witness_StepContinuesTheRequest :
    (atStep (.read 27) 2 0 0).At (.read 27) 2 ∧ (atStep (.read 27) 2 0 0).inputs.sched = [] ∧
      (offered (atStep (.read 27) 2 0 0) [.run]).At (.read 27) 2 ∧
      (offered (atStep (.read 27) 2 0 0) [.run]).inputs.sched = .run :: [] := ⟨rfl, rfl, rfl, rfl⟩

theorem test_witness_ReservedWordIsRefused :
    (program [.access 0]).inputs.sched = [] ∧ (program [.access 0]).Idle ∧ (program [.access 0]).top.prog = .access 0 :: [] ∧
      Request.wellFormed (.access 0) = false := ⟨rfl, rfl, rfl, by decide⟩

theorem test_witness_RunOverStaysOver : RunOver boundPin ∧ boundPin.inputs.sched = [] :=
  ⟨⟨rfl, rfl, rfl, by decide⟩, rfl⟩

/-! ## The whole machine -/

/-- A step that changes `IN`, one that changes `OUT` and one that changes `ENABLE`: InChangesOnlyByPadLevel,
OutAndEnableHaveThreeWritersEach, OtherFramesAreUntouched, LogOnlyGrows, ParametersNeverChange. -/
theorem test_witness_changes :
    nextSat (step (offered boundPin [.padLevel 27 false])) (fun t => t.inp != boundPin.inp) = true ∧
      nextSat (step (atStep (.write 27 1) 1 0 0)) (fun t => t.out != 0) = true ∧
      nextSat (step (program [.bus 0x202000000007])) (fun t => t.enable == 7) = true := by decide

/-- A state the invariant holds of, with a frame in the middle of a configuration, a pin bound and a handler running. -/
def busy : State :=
  takeInterrupt 2 9
    (({ configuringAt 2 12 [true] with svc := true }).setBind 2 { state := .bound, edge := some .falling, handler := some 9 })

theorem test_witness_EveryStepKeepsTheInv : Inv busy ∧ nextSat (step busy) (fun _ => true) = true := by
  refine ⟨⟨by decide, ?_, ?_, by decide, ?_, by decide⟩, by decide⟩
  · intro n hn
    cases hn
    decide
  · intro f hf pr hpr
    have hf : f = Frame.idle [hretRequest] ∨ f = busy.main := by
      simpa [State.frames, busy, takeInterrupt, handlerBody, configuringAt, atStep, program, State.reset, Config.ref,
        State.logEvent, State.setPend, State.setBind] using hf
    rcases hf with rfl | rfl
    · cases hpr
    · cases hpr
      refine ⟨by decide, by decide, by decide, fun p arg hid h => ?_⟩
      cases h
      decide
  · have h : ∀ p, (busy.bindAt p).state = .bound ∧ (busy.bindAt p).handler.isSome = true ∧
        (busy.bindAt p).edge.isSome = true ∧ busy.svc = true ∨
        (busy.bindAt p).state ≠ .bound ∧ (busy.bindAt p).handler = none ∧ busy.pendAt p = false := by decide
    intro p
    unfold BindingOk
    rcases h p with ⟨h1, h2⟩ | ⟨h1, h2⟩
    · rw [if_pos h1]; exact h2
    · rw [if_neg h1]; exact h2

/-- The same without the handler and the other binding: the configuration is the running request, at its last step. -/
def lastStep : State := { configuringAt 2 12 [true] with svc := true }

theorem test_witness_RequestOnceBegunNeverStops : Inv lastStep ∧ lastStep.At (.configInterruption 27 2 5) 12 := by
  refine ⟨⟨by decide, ?_, ?_, by decide, ?_, by decide⟩, rfl⟩
  · intro n hn
    cases hn
    decide
  · intro f hf pr hpr
    have hf : f = lastStep.main := by
      simpa [State.frames, lastStep, configuringAt, atStep, program, State.reset, State.setBind] using hf
    subst hf
    cases hpr
    refine ⟨by decide, by decide, by decide, fun p arg hid h => ?_⟩
    cases h
    decide
  · have h : ∀ p, (lastStep.bindAt p).state ≠ .bound ∧ (lastStep.bindAt p).handler = none ∧
        lastStep.pendAt p = false := by decide
    intro p
    unfold BindingOk
    rw [if_neg (h p).1]
    exact (h p).2

end Sys2Proof.Tests
end

section
/-! SUPPORT. The stack of frames as one list (R39): what each update leaves of it. -/

namespace Sys2Proof.Machine

/-! ## The stack of frames -/

/-- The frames under the running one. -/
def State.below (s : State) : List Frame := s.frames.tail

theorem frames_eq (s : State) : s.frames = s.top :: s.below := by
  unfold State.below State.frames State.top
  cases s.handlers <;> rfl

theorem frames_congr {s t : State} (hm : t.main = s.main) (hh : t.handlers = s.handlers) : t.frames = s.frames := by
  rw [State.frames, State.frames, hm, hh]

@[simp] theorem below_setTop (s : State) (f : Frame) : (s.setTop f).below = s.below := by
  unfold State.below State.frames State.setTop
  cases s.handlers <;> rfl

@[simp] theorem below_goOn (s : State) (i : Instr) (k : Nat) : (s.goOn i k).below = s.below := below_setTop _ _
@[simp] theorem below_finish (s : State) : s.finish.below = s.below := below_setTop _ _
@[simp] theorem below_logEvent (s : State) (ev : Event) : (s.logEvent ev).below = s.below := rfl
@[simp] theorem length_handlers_goOn (s : State) (i : Instr) (k : Nat) :
    (s.goOn i k).handlers.length = s.handlers.length := length_handlers_setTop _ _
@[simp] theorem length_handlers_finish (s : State) : s.finish.handlers.length = s.handlers.length :=
  length_handlers_setTop _ _

theorem frames_setTop (s : State) (f : Frame) : (s.setTop f).frames = f :: s.below := by
  rw [frames_eq, top_setTop, below_setTop]

/-- `takeInterrupt` puts one idle frame on the stack (R165). -/
theorem frames_takeInterrupt (s : State) (p : Pin) (hid : Hid) :
    (takeInterrupt p hid s).frames = Frame.idle (handlerBody s.cfg hid p) :: s.frames := rfl

/-- Popping a handler frame leaves the frames under it (R144). -/
theorem frames_pop {s : State} {x : HandlerFrame} {xs : List HandlerFrame} (h : s.handlers = x :: xs) :
    ({ s with handlers := xs } : State).frames = s.below := by
  simp [State.below, State.frames, h]

/-- A step of an operation leaves the frames under the running one alone (R39, R40). -/
theorem StepKeeps.below {s s' : State} (h : StepKeeps s s') : s'.below = s.below := by
  have hs := h.shape
  have ht := h.tail
  have hm := h.main
  unfold State.below State.frames
  cases h1 : s.handlers <;> cases h2 : s'.handlers <;> simp_all

theorem StepKeeps.length_handlers {s s' : State} (h : StepKeeps s s') : s'.handlers.length = s.handlers.length := by
  simpa using congrArg List.length h.shape

/-- Sampling a pad changes `IN` and at most the pending bit of a bound pin, and logs the event (R161). -/
theorem padLevel_cases (p : Pin) (lvl : Bool) (s : State) :
    ∃ s', (s' = s ∨ (s' = s.setPend p true ∧ (s.bindAt p).state = .bound)) ∧
      padLevel p lvl s = ({ s' with inp := putBit s.inp p.toNat lvl } : State).logEvent (.padLevel p lvl) := by
  unfold padLevel
  rcases latchEdge_cases p (s.inp.getLsbD p.toNat) lvl { s with inp := putBit s.inp p.toNat lvl } with h | ⟨h, hb⟩
  · exact ⟨s, .inl rfl, by rw [h]⟩
  · exact ⟨s.setPend p true, .inr ⟨rfl, hb⟩, by rw [h]; rfl⟩

end Sys2Proof.Machine
end


section
/-! SUPPORT. What one step of the machine does to the parameters, the GPIO registers, `LOG` and the frames, said once. -/

namespace Sys2Proof.Machine

/-! ## The step of the running frame -/

/-- The state in which the step of the running frame is taken: the choice used up, and of the frame's program `rest` left
(R39). -/
def State.fetched (s : State) (rest : List Request) : State := s.popChoice.setTop { s.top with prog := rest }

section
variable (s : State) (rest : List Request)
@[simp] theorem fetched_cfg : (s.fetched rest).cfg = s.cfg := rfl
@[simp] theorem fetched_out : (s.fetched rest).out = s.out := rfl
@[simp] theorem fetched_enable : (s.fetched rest).enable = s.enable := rfl
@[simp] theorem fetched_log : (s.fetched rest).log = s.log := rfl
@[simp] theorem fetched_who : (s.fetched rest).who = s.who := who_setTop _ _
@[simp] theorem fetched_top : (s.fetched rest).top = { s.top with prog := rest } := top_setTop _ _
@[simp] theorem fetched_below : (s.fetched rest).below = s.below := below_setTop _ _
@[simp] theorem fetched_length_handlers : (s.fetched rest).handlers.length = s.handlers.length :=
  length_handlers_setTop _ _
end

/-! ## The effect of a step -/

/-- The parameters stay; `LOG` grows, by at most one transaction; `OUT` and `ENABLE` change only by one that writes them
(R23, R24, R42, R43, R80). -/
structure Effect (s t : State) : Prop where
  cfg : t.cfg = s.cfg
  log : ∃ es, t.log = s.log ++ es ∧ (es.filter (fun ev => (txnOf ev).isSome)).length ≤ 1
  out : t.out = s.out ∨
    ∃ w, ∃ off ∈ [(0x04 : Word), 0x08, 0x0C], .txn s.who .write (s.cfg.bG + off) w ∈ t.log.drop s.log.length
  enable : t.enable = s.enable ∨
    ∃ w, ∃ off ∈ [(0x20 : Word), 0x24, 0x28], .txn s.who .write (s.cfg.bG + off) w ∈ t.log.drop s.log.length

/-- A step that keeps what an operation's step keeps, with events besides that are no transactions. -/
theorem StepKeeps.effect {s s' t : State} (hk : StepKeeps s s') {es : List Event} (cfg : t.cfg = s'.cfg)
    (out : t.out = s'.out) (enable : t.enable = s'.enable) (log : t.log = s'.log ++ es)
    (hes : es.filter (fun ev => (txnOf ev).isSome) = []) : Effect s t where
  cfg := cfg.trans hk.cfg
  log := by
    rcases hk.log with hl | ⟨d, a, w, hl⟩
    · exact ⟨es, by rw [log, hl], by simp [hes]⟩
    · exact ⟨.txn s.who d a w :: es, by simp [log, hl], by rw [List.filter_cons_of_pos rfl, hes]; rfl⟩
  out := hk.out.imp out.trans fun ⟨w, off, hoff, hl⟩ => ⟨w, off, hoff, by simp [log, hl]⟩
  enable := hk.enable.imp enable.trans fun ⟨w, off, hoff, hl⟩ => ⟨w, off, hoff, by simp [log, hl]⟩

theorem exec_effect {i : Instr} {s t : State} (h : exec i s = .next t) : Effect s t := by
  rcases exec_cases h with ⟨-, x, xs, -, rfl⟩ | ⟨-, s', hk, rfl | rfl | ⟨r, rfl⟩⟩
  · exact (StepKeeps.refl s).effect rfl rfl rfl rfl rfl
  · exact hk.effect rfl rfl rfl (List.append_nil _).symm rfl
  · exact hk.effect rfl rfl rfl (List.append_nil _).symm rfl
  · exact hk.effect rfl rfl rfl rfl rfl

theorem Effect.of_fetched {s t : State} {rest : List Request} (h : Effect (s.fetched rest) t) : Effect s t where
  cfg := h.cfg
  log := h.log
  out := by simpa using h.out
  enable := by simpa using h.enable

theorem step_effect {s t : State} (h : step s = .next t) : Effect s t := by
  have keeps := StepKeeps.refl s
  rcases step_cases h with ⟨i, rest, -, he⟩ | rfl | ⟨p, d, cs, -, -, rfl⟩ | ⟨p, lvl, cs, -, -, -, rfl⟩ |
    ⟨p, hid, x, -, rfl⟩ | ⟨rest, -, ht⟩
  · exact (exec_effect he).of_fetched
  · exact keeps.effect rfl rfl rfl (List.append_nil _).symm rfl
  · exact keeps.effect (es := [.padDrive p d]) rfl rfl rfl rfl rfl
  · obtain ⟨s', rfl | ⟨rfl, -⟩, he⟩ := padLevel_cases p lvl s.popChoice <;> rw [he] <;>
      exact keeps.effect (es := [.padLevel p lvl]) rfl rfl rfl rfl rfl
  · exact keeps.effect (es := [.invoke hid p]) rfl rfl rfl rfl rfl
  · exact Effect.of_fetched (ht.keeps.effect rfl rfl rfl (List.append_nil _).symm rfl)

/-- Settles O53: OUT and ENABLE are written by the running frame's one transaction or not at all. -/
theorem outAndEnableHaveThreeWritersEach : Obligations.OutAndEnableHaveThreeWritersEach := fun _ _ h =>
  ⟨(step_effect h).out.resolve_left, (step_effect h).enable.resolve_left⟩

/-- Settles O55: the events of a step are appended. -/
theorem logOnlyGrows : Obligations.LogOnlyGrows := fun _ _ h => (step_effect h).log

/-- Settles O56: no step writes `cfg`. -/
theorem parametersNeverChange : Obligations.ParametersNeverChange := fun _ _ h => (step_effect h).cfg

/-! ## IN -/

/-- Settles O52: only the sampling of a pad writes `IN`, and it writes that pad's bit. -/
theorem inChangesOnlyByPadLevel : Obligations.InChangesOnlyByPadLevel := by
  refine ⟨fun i s t h => (exec_inp h).1, fun s t h hne => ?_⟩
  rcases step_cases h with ⟨i, rest, -, he⟩ | rfl | ⟨p, d, cs, -, -, rfl⟩ | ⟨p, lvl, cs, hs, -, -, rfl⟩ |
    ⟨p, hid, x, -, rfl⟩ | ⟨rest, -, ht⟩
  · exact absurd (exec_inp he).1 hne
  · exact absurd rfl hne
  · exact absurd rfl hne
  · obtain ⟨s', -, he⟩ := padLevel_cases p lvl s.popChoice
    exact ⟨p, lvl, cs, hs, by rw [he]; rfl⟩
  · exact absurd rfl hne
  · exact absurd ht.keeps.inp hne

/-! ## The frames -/

theorem exec_frames {i : Instr} {s t : State} (h : exec i s = .next t) :
    (∃ f, t.frames = f :: s.below) ∨ t.frames = s.below := by
  rcases exec_cases h with ⟨-, x, xs, hx, rfl⟩ | ⟨-, s', hk, hr⟩
  · exact .inr (frames_pop hx)
  · refine .inl ⟨t.top, ?_⟩
    rcases hr with rfl | rfl | ⟨r, rfl⟩ <;> rw [frames_eq] <;> simp [hk.below]

/-- Settles O54: an operation's step changes the running frame or pops it, a dispatch pushes one, and an event leaves the
stack as it is. -/
theorem otherFramesAreUntouched : Obligations.OtherFramesAreUntouched := by
  intro s t h
  have same : ∀ u : State, u.frames = s.frames → ∃ f, u.frames = f :: s.frames.tail := fun u hu =>
    ⟨s.top, by rw [hu, frames_eq]; rfl⟩
  rcases step_cases h with ⟨i, rest, -, he⟩ | rfl | ⟨p, d, cs, -, -, rfl⟩ | ⟨p, lvl, cs, -, -, -, rfl⟩ |
    ⟨p, hid, x, -, rfl⟩ | ⟨rest, -, ht⟩
  · have hb : (s.fetched rest).below = s.below := fetched_below s rest
    rcases exec_frames he with ⟨f, hf⟩ | hf
    · exact .inl ⟨f, hf.trans (congrArg _ hb)⟩
    · exact .inr (.inr (hf.trans hb))
  · exact .inl (same _ rfl)
  · exact .inl (same _ rfl)
  · obtain ⟨s', rfl | ⟨rfl, -⟩, he⟩ := padLevel_cases p lvl s.popChoice <;> rw [he] <;> exact .inl (same _ rfl)
  · exact .inr (.inl ⟨_, rfl⟩)
  · have hb : (s.fetched rest).below = s.below := fetched_below s rest
    exact .inl ⟨t.top, by rw [frames_eq, ht.keeps.below]; exact congrArg _ hb⟩

end Sys2Proof.Machine
end

section
/-! SUPPORT. The state after reset (R47 to R52), and which request a step of the running frame executes (R39). -/

namespace Sys2Proof.Machine

/-! ## The state after reset -/

theorem bindAt_reset (p : Pin) : State.reset.bindAt p = Binding.reset := by
  by_cases h : p.toNat < 32 <;> simp [State.bindAt, State.reset, h]

theorem pendAt_reset (p : Pin) : State.reset.pendAt p = false := by
  by_cases h : p.toNat < 32 <;> simp [State.pendAt, State.reset, h]

/-- Settles O57: the reset values of R47 to R52. -/
theorem resetState : Obligations.ResetState :=
  ⟨bindAt_reset, pendAt_reset, rfl, rfl, rfl, rfl, rfl⟩

theorem wellFormed_ref : Config.ref.wellFormed = true := by decide

/-- Settles O58: no pin is bound or configured, and no request is in progress. -/
theorem resetSatisfiesTheInv : Obligations.ResetSatisfiesTheInv where
  config := wellFormed_ref
  nesting _ _ := Nat.zero_le _
  frames f hf pr hpr := by
    obtain rfl : f = Frame.idle [] := List.mem_singleton.1 hf
    cases hpr
  owners := List.nodup_nil
  registry p := by simp [BindingOk, bindAt_reset, pendAt_reset, Binding.reset]
  owned p hp := by simp [bindAt_reset, Binding.reset] at hp

/-! ## The request a step executes -/

theorem mainIdle_of_cur {s : State} {pr : Progress} (h : s.top.cur = some pr) : mainIdle s = false := by
  unfold mainIdle
  cases hh : s.handlers with
  | nil => simp [State.top, hh] at h; simp [h]
  | cons => simp

/-- The step that goes on with the request in progress (R39). -/
theorem step_at {s s₀ : State} {i : Instr} {k : Nat} (h : s.At i k) (hm : FrameMoves s s₀) : step s = exec i s₀ := by
  have hc : s.top.cur = some { instr := i, label := k } := h
  rcases hm with ⟨hs, rfl⟩ | ⟨cs, hs, rfl⟩
  · simp [step, nextStep, hs, mainIdle_of_cur hc, frameStep, hc]
  · have e : s.popChoice = { s with inputs := { s.inputs with sched := cs } } := by simp [State.popChoice, hs]
    have et : ({ s with inputs := { s.inputs with sched := cs } } : State).top = s.top := rfl
    simp only [step, nextStep, hs, takeChoice, e, frameStep, et, hc]

/-- Settles O49: the frame's request in progress is what its step executes. -/
theorem stepContinuesTheRequest : Obligations.StepContinuesTheRequest := fun _ _ _ h =>
  ⟨fun hs => step_at h (.inl ⟨hs, rfl⟩), fun cs hs => step_at h (.inr ⟨cs, hs, rfl⟩)⟩

/-- Settles O48: the step fetches the next request, and what it decodes to says what is executed. -/
theorem stepRunsTheDecodedInstr : Obligations.StepRunsTheDecodedInstr := by
  refine ⟨fun s r rest i hi hp hd => ?_, fun s s₀ s₁ rest off d a hi hm hs ha => ?_⟩
  · have hb : ∀ u, beginRequest r u = exec i u := fun u => by rw [beginRequest, hd]
    exact ⟨fun h => (step_fetch hi (.inl ⟨h, rfl⟩) hp).trans (hb _),
      fun cs h => (step_fetch hi (.inr ⟨cs, h, rfl⟩) hp).trans (hb _)⟩
  · have hc : s₁.cfg = s.cfg := by
      rcases hm with ⟨-, rfl⟩ | ⟨cs, -, rfl⟩ <;> rw [hs] <;> rfl
    have ha : gpioAddr s₁.cfg (off.setWidth 32) = a := by rw [hc, ha, gpioAddr]
    refine ⟨fun hp hoff => ?_, fun hp hoff => ?_⟩
    · have he : step s = readOnce a s₁ := by
        rw [step_fetch hi hm hp, ← hs, beginRequest, decode_gpioRead off d hoff, ← ha]
      rw [he, readOnce]
      exact ⟨fun w t h => by rw [h], fun f h => by rw [h]⟩
    · have he : step s = writeOnce a d s₁ := by
        rw [step_fetch hi hm hp, ← hs, beginRequest, decode_gpioWrite off d hoff, ← ha]
      rw [he, writeOnce]
      exact ⟨fun t h => by rw [h], fun f h => by rw [h]⟩

end Sys2Proof.Machine
end

section
/-! SUPPORT. The steps of a sequence as the invariant needs them: which leave the bindings alone, that the last never goes
on, and what the first checks (R39, R106, R136). -/

namespace Sys2Proof.Machine

/-! ## Steps that leave the bindings alone -/

/-- Every state the step leaves has the bindings it found. -/
def KeepsBind (f : StepFn) : Prop := ∀ s s', (f s).Leaves s' → s'.bind = s.bind

/-- The step is a bus transaction: it goes on with the bindings it found, or faults. -/
def Transfers (f : StepFn) : Prop := ∀ s, (∃ s', f s = .go s' ∧ s'.bind = s.bind) ∨ ∃ x, f s = .fault x

theorem Transfers.load {a : Word} {keep : State → Word → State} (hk : ∀ s w, (keep s w).bind = s.bind) :
    Transfers (loadStep a keep) := by
  intro s
  unfold loadStep
  split
  · rename_i x hx
    exact .inl ⟨_, rfl, (hk _ _).trans (memRead_busOnly hx).1.bind⟩
  · exact .inr ⟨_, rfl⟩

theorem Transfers.storeOf (a : Word) (g : State → Word) : Transfers (fun s => storeStep a (g s) s) := by
  intro s
  simp only [storeStep]
  split
  · rename_i hx
    exact .inl ⟨_, rfl, (memWrite_busOnly hx).1.bind⟩
  · exact .inr ⟨_, rfl⟩

theorem Transfers.store (a w : Word) : Transfers (storeStep a w) := Transfers.storeOf a fun _ => w

theorem Transfers.rmw (a : Word) (g : Word → Word) : ∀ f ∈ Machine.rmw a g, Transfers f :=
  List.forall_mem_cons.2 ⟨Transfers.load fun _ _ => rfl, List.forall_mem_singleton.2 (Transfers.storeOf a _)⟩

theorem Transfers.twoRmws (a : Word) (g g' : Word → Word) :
    ∀ f ∈ Machine.rmw a g ++ Machine.rmw a g', Transfers f :=
  List.forall_mem_append.2 ⟨Transfers.rmw a g, Transfers.rmw a g'⟩

theorem Transfers.keepsBind {f : StepFn} (h : Transfers f) : KeepsBind f := by
  intro s s' hs
  rcases h s with ⟨u, hf, hb⟩ | ⟨x, hf⟩ <;> rw [hf] at hs
  · cases hs
    exact hb
  · exact hs.elim

theorem KeepsBind.endWith {r : Option Result} {f : StepFn} (h : KeepsBind f) : KeepsBind (endWith r f) := by
  intro s s' hs
  apply h
  unfold Machine.endWith at hs
  cases hf : f s <;> simp only [hf] at hs <;> exact hs

/-- A sequence of transactions keeps the bindings to its end. -/
theorem KeepsBind.lastEnds {r : Option Result} : ∀ {fs : List StepFn}, (∀ f ∈ fs, Transfers f) →
    ∀ f ∈ lastEnds r fs, KeepsBind f
  | [], _ => List.forall_mem_nil _
  | [_], h => List.forall_mem_singleton.2 (h _ (by simp)).keepsBind.endWith
  | _ :: g :: fs, h => List.forall_mem_cons.2 ⟨(h _ (by simp)).keepsBind,
      KeepsBind.lastEnds (fs := g :: fs) fun x hx => h x (List.mem_cons_of_mem _ hx)⟩

/-- A step that answers without changing the state, or stops. -/
theorem KeepsBind.check {f : StepFn} (h : ∀ s, f s = .go s ∨ (∃ r, f s = .ret r s) ∨ (∃ x, f s = .fault x) ∨
    ∃ x, f s = .refuse x) : KeepsBind f := fun s s' hs => by
  rcases h s with h | ⟨r, h⟩ | ⟨x, h⟩ | ⟨x, h⟩ <;> rw [h] at hs
  · exact hs ▸ rfl
  · exact hs ▸ rfl
  · exact hs.elim
  · exact hs.elim

theorem KeepsBind.regReadStep (a : Word) : KeepsBind (regReadStep a) := by
  intro s s' h
  unfold Machine.regReadStep at h
  split at h
  · rename_i hx
    cases h
    exact (memRead_busOnly hx).1.bind
  · exact h.elim

theorem KeepsBind.readLevel (p : Pin) : KeepsBind (readLevel p) := by
  intro s s' h
  unfold Machine.readLevel at h
  split at h
  · rename_i hx
    cases h
    exact (memRead_busOnly hx).1.bind
  · exact h.elim

theorem KeepsBind.initCheck (p : Pin) (arg : BitVec 4) : KeepsBind (initCheck p arg) := KeepsBind.check fun s => by
  unfold Machine.initCheck
  repeat' split
  all_goals simp

theorem KeepsBind.writeCheck (p : Pin) (arg : BitVec 4) : KeepsBind (writeCheck p arg) := KeepsBind.check fun s => by
  unfold Machine.writeCheck
  repeat' split
  all_goals simp

theorem KeepsBind.setBitsSteps (c : Config) (a m : Word) : ∀ f ∈ setBitsSteps c a m, KeepsBind f := by
  unfold Machine.setBitsSteps
  split
  · exact KeepsBind.lastEnds (List.forall_mem_singleton.2 (Transfers.store _ _))
  · exact KeepsBind.lastEnds (Transfers.rmw _ _)
  all_goals exact List.forall_mem_singleton.2 (KeepsBind.check fun s => by simp)

theorem KeepsBind.clearBitsSteps (c : Config) (a m : Word) : ∀ f ∈ clearBitsSteps c a m, KeepsBind f := by
  unfold Machine.clearBitsSteps
  split
  · exact KeepsBind.lastEnds (List.forall_mem_singleton.2 (Transfers.store _ _))
  · exact KeepsBind.lastEnds (Transfers.rmw _ _)
  all_goals exact List.forall_mem_singleton.2 (KeepsBind.check fun s => by simp)

theorem KeepsBind.pull (p : Pin) (c : Config) (m m' : Word) :
    ∀ f ∈ pullCheck p :: Machine.lastEnds none (pullSteps c p m m'), KeepsBind f :=
  List.forall_mem_cons.2 ⟨KeepsBind.check fun s => by unfold pullCheck; split <;> simp,
    KeepsBind.lastEnds (Transfers.twoRmws _ _ _)⟩

/-- Only `CONFIG_INTERRUPTION` and `EXCLUDE_INTERRUPTION` have steps that change a binding (R136, R139). -/
theorem keepsBind_stepsOf (c : Config) (i : Instr) (hx : ∀ p, i ≠ .excludeInterruption p)
    (hc : ∀ p arg hid, i ≠ .configInterruption p arg hid) : ∀ f ∈ stepsOf c i, KeepsBind f := by
  have one : ∀ f : StepFn, KeepsBind f → ∀ g ∈ [f], KeepsBind g := fun f h => List.forall_mem_singleton.2 h
  cases i <;> simp only [stepsOf]
  case excludeInterruption p => exact absurd rfl (hx p)
  case configInterruption p arg hid => exact absurd rfl (hc p arg hid)
  case setBits => exact KeepsBind.setBitsSteps _ _ _
  case clearBits => exact KeepsBind.clearBitsSteps _ _ _
  case regRead => exact one _ (KeepsBind.regReadStep _)
  case init p arg =>
    exact List.forall_mem_cons.2 ⟨KeepsBind.initCheck p arg,
      KeepsBind.lastEnds (List.forall_mem_cons.2 ⟨Transfers.store _ _, Transfers.twoRmws _ _ _⟩)⟩
  case write p arg =>
    exact List.forall_mem_cons.2 ⟨KeepsBind.writeCheck p arg, one _ (Transfers.store _ _).keepsBind.endWith⟩
  case read p =>
    exact List.forall_mem_cons.2 ⟨KeepsBind.check fun s => by unfold readCheck; split <;> simp,
      List.forall_mem_cons.2 ⟨(Transfers.load (keep := State.setE) fun _ _ => rfl).keepsBind,
        one _ (KeepsBind.readLevel p)⟩⟩
  case enablePullup => exact KeepsBind.pull _ _ _ _
  case enablePulldown => exact KeepsBind.pull _ _ _ _
  case gpioBit => exact one _ (KeepsBind.check fun s => by simp)
  case iomuxAddr => exact one _ (KeepsBind.check fun s => by simp)
  case irqDisable => exact one _ fun s s' h => by cases h; rfl
  case irqEnable => exact one _ fun s s' h => by cases h; rfl
  case hret => exact List.forall_mem_nil _
  case rdOut | rdEnable | rdIn | rdMux =>
    exact KeepsBind.lastEnds (List.forall_mem_singleton.2 (Transfers.load fun _ _ => rfl))
  all_goals exact KeepsBind.lastEnds (List.forall_mem_singleton.2 (Transfers.store _ _))

/-! ## CONFIG_INTERRUPTION, label by label -/

/-- Step `c0` checks, `c1` to `c9` are transactions, and `c10` to `c12` make the binding (R136). -/
theorem configSteps_cases {c : Config} {p : Pin} {arg : BitVec 4} {hid : Hid} {k : Nat} {f : StepFn}
    (h : (configSteps c p arg hid)[k]? = some f) :
    (k = 0 ∧ f = configCheck p) ∨ (0 < k ∧ k < 10 ∧ Transfers f) ∨ (k = 10 ∧ f = configEdge p arg) ∨
      (k = 11 ∧ f = configService p) ∨ (k = 12 ∧ f = configAttach p hid) := by
  have hbus : ∀ f ∈ enableStep c p (some .input) :: (routeSteps c p ++ pullSteps c p (puMask c) (pdMask c)),
      Transfers f := List.forall_mem_cons.2 ⟨Transfers.store _ _,
        List.forall_mem_append.2 ⟨Transfers.twoRmws _ _ _, Transfers.twoRmws _ _ _⟩⟩
  by_cases hlt : k < 10
  · rcases k with _ | k
    · cases h
      exact .inl ⟨rfl, rfl⟩
    · refine .inr (.inl ⟨k.succ_pos, hlt, hbus f (List.mem_of_getElem? (i := k) ?_)⟩)
      rw [← h, configSteps, List.getElem?_cons_succ, ← List.cons_append]
      exact (List.getElem?_append_left (by simp [routeSteps, pullSteps, rmw]; omega)).symm
  · have hk : k < 13 := (List.getElem?_eq_some_iff.1 h).1
    obtain rfl | rfl | rfl : k = 10 ∨ k = 11 ∨ k = 12 := by omega
    all_goals cases h; simp

/-! ## The end of a sequence -/

/-- The last step of the sequence does not go on. -/
def EndsLast (fs : List StepFn) : Prop := ∀ f, fs.getLast? = some f → ∀ s s', f s ≠ .go s'

/-- A step that goes on has another after it. -/
theorem EndsLast.succ_lt {fs : List StepFn} (h : EndsLast fs) {k : Nat} {f : StepFn} {s s' : State}
    (hf : fs[k]? = some f) (hg : f s = .go s') : k + 1 < fs.length := by
  obtain ⟨hk, -⟩ := List.getElem?_eq_some_iff.1 hf
  by_contra hn
  obtain rfl : k = fs.length - 1 := by omega
  exact h f (by rw [List.getLast?_eq_getElem?, hf]) s s' hg

theorem endWith_ne_go (r : Option Result) (f : StepFn) (s s' : State) : endWith r f s ≠ .go s' := by
  unfold endWith
  cases f s <;> simp_all

theorem regReadStep_ne_go (a : Word) (s s' : State) : regReadStep a s ≠ .go s' := by
  unfold regReadStep
  split <;> simp

theorem readLevel_ne_go (p : Pin) (s s' : State) : readLevel p s ≠ .go s' := by
  unfold readLevel
  split <;> simp

theorem excludeStep_ne_go (p : Pin) (s s' : State) : excludeStep p s ≠ .go s' := by
  unfold excludeStep
  split <;> simp

theorem configAttach_ne_go (p : Pin) (hid : Hid) (s s' : State) : configAttach p hid s ≠ .go s' := by
  unfold configAttach configFails
  split <;> simp

theorem endsLast_setBitsSteps (c : Config) (a m : Word) : EndsLast (setBitsSteps c a m) := by
  intro f hf s s'
  unfold setBitsSteps at hf
  split at hf <;> cases hf
  case h_1 | h_2 => exact endWith_ne_go _ _ _ _
  all_goals simp

theorem endsLast_clearBitsSteps (c : Config) (a m : Word) : EndsLast (clearBitsSteps c a m) := by
  intro f hf s s'
  unfold clearBitsSteps at hf
  split at hf <;> cases hf
  case h_1 | h_2 => exact endWith_ne_go _ _ _ _
  all_goals simp

theorem endsLast_stepsOf (c : Config) (i : Instr) : EndsLast (stepsOf c i) := by
  intro f hf s s'
  cases i
  case setBits a m => exact endsLast_setBitsSteps c a m f hf s s'
  case clearBits a m => exact endsLast_clearBitsSteps c a m f hf s s'
  all_goals cases hf
  case regRead => exact regReadStep_ne_go _ _ _
  case read => exact readLevel_ne_go _ _ _
  case configInterruption => exact configAttach_ne_go _ _ _ _
  case excludeInterruption => exact excludeStep_ne_go _ _ _
  case gpioBit | iomuxAddr | irqDisable | irqEnable => simp
  all_goals exact endWith_ne_go _ _ _ _

/-- The sequence of an operation has the steps R106 counts. -/
theorem length_stepsOf (c : Config) {i : Instr} (hi : i ≠ .hret) : (stepsOf c i).length = stepCount c i := by
  cases i
  case hret => exact absurd rfl hi
  case setBits a m =>
    simp only [stepsOf, setBitsSteps, stepCount]
    split <;> simp_all [rmw, lastEnds]
  case clearBits a m =>
    simp only [stepsOf, clearBitsSteps, stepCount]
    split <;> simp_all [rmw, lastEnds]
  all_goals rfl

/-- A step that goes on leaves a label within the sequence. -/
theorem succ_lt_stepCount {c : Config} {i : Instr} {k : Nat} {f : StepFn} {s s' : State} (hi : i ≠ .hret)
    (hf : (stepsOf c i)[k]? = some f) (hg : f s = .go s') : k + 1 < stepCount c i :=
  length_stepsOf c hi ▸ (endsLast_stepsOf c i).succ_lt hf hg

/-! ## The first step -/

/-- A first step that goes on has passed its check (R120, R122, R124, R128, R129, R136). -/
theorem checkPasses_of_go {i : Instr} {f : StepFn} {s s' : State} (hf : (stepsOf s.cfg i)[0]? = some f)
    (hg : f s = .go s') : checkPasses s.cfg i = true := by
  cases i
  case init p arg =>
    cases hf
    unfold initCheck at hg
    repeat' split at hg
    all_goals simp_all [checkPasses]
  case write p arg =>
    cases hf
    unfold writeCheck at hg
    repeat' split at hg
    all_goals simp_all [checkPasses]
  case read p =>
    cases hf
    unfold readCheck at hg
    split at hg <;> simp_all [checkPasses]
  case enablePullup p | enablePulldown p =>
    cases hf
    unfold pullCheck at hg
    split at hg <;> simp_all [checkPasses]
  case configInterruption p arg hid =>
    cases hf
    unfold configCheck at hg
    split at hg <;> simp_all [checkPasses]
  all_goals rfl

end Sys2Proof.Machine
end

section
/-! SUPPORT. The invariant of the block (R33, R39, R138) under what one step can change: the frames and flags alone, or the
binding of one pin as well. -/

namespace Sys2Proof.Machine

/-! ## The pins being configured -/

theorem configuringPin_of_cur {f : Frame} {p : Pin} {arg : BitVec 4} {hid : Hid} {k : Nat}
    (h : f.cur = some { instr := .configInterruption p arg hid, label := k }) : configuringPin f = some p := by
  simp [configuringPin, h]

theorem configuringPin_of_none {f : Frame} (h : f.cur = none) : configuringPin f = none := by
  simp [configuringPin, h]

/-- Only `CONFIG_INTERRUPTION` configures a pin. -/
theorem configuringPin_of_other {f : Frame} {i : Instr} {k : Nat} (h : f.cur = some { instr := i, label := k })
    (hi : ∀ p arg hid, i ≠ .configInterruption p arg hid) : configuringPin f = none := by
  unfold configuringPin
  rw [h]
  split
  · rename_i p arg hid _ he
    cases he
    exact absurd rfl (hi p arg hid)
  · rfl

theorem cur_of_configuringPin {f : Frame} {p : Pin} (h : configuringPin f = some p) :
    ∃ arg hid k, f.cur = some { instr := .configInterruption p arg hid, label := k } := by
  unfold configuringPin at h
  split at h
  · rename_i hc
    cases h
    exact ⟨_, _, _, hc⟩
  · cases h

/-- The pins the frames under the running one configure. -/
def State.ownedBelow (s : State) : List Pin := s.below.filterMap configuringPin

theorem owners_eq (s : State) :
    s.frames.filterMap configuringPin = (configuringPin s.top).toList ++ s.ownedBelow := by
  rw [frames_eq, List.filterMap_cons, State.ownedBelow]
  cases configuringPin s.top <;> rfl

/-- A frame's pin being configured is in `Configuring`. -/
theorem FrameOk.configuring {s : State} {f : Frame} {p : Pin} (h : FrameOk s f) (hp : configuringPin f = some p) :
    (s.bindAt p).state = .configuring := by
  obtain ⟨arg, hid, k, hc⟩ := cur_of_configuringPin hp
  obtain ⟨-, -, -, hb⟩ := h _ hc
  exact (hb p arg hid rfl).1

theorem Inv.configuring_of_owned {s : State} (h : Inv s) {p : Pin} (hp : p ∈ s.frames.filterMap configuringPin) :
    (s.bindAt p).state = .configuring := by
  obtain ⟨f, hf, hfp⟩ := List.mem_filterMap.1 hp
  exact (h.frames f hf).configuring hfp

theorem Inv.configuring_of_ownedBelow {s : State} (h : Inv s) {p : Pin} (hp : p ∈ s.ownedBelow) :
    (s.bindAt p).state = .configuring :=
  h.configuring_of_owned (by rw [owners_eq]; exact List.mem_append_right _ hp)

/-! ## Frames -/

theorem FrameOk.of_cur_none {s : State} {f : Frame} (h : f.cur = none) : FrameOk s f := fun pr hpr => by
  rw [h] at hpr
  cases hpr

/-- A frame depends on the parameters, on the binding it makes and on the service alone. -/
theorem FrameOk.mono {s t : State} {f : Frame} (h : FrameOk s f) (cfg : t.cfg = s.cfg)
    (bind : ∀ p, configuringPin f = some p → t.bindAt p = s.bindAt p) (svc : s.svc = true → t.svc = true) :
    FrameOk t f := by
  intro pr hpr
  obtain ⟨hpos, hlt, hcheck, hconf⟩ := h pr hpr
  rw [cfg]
  refine ⟨hpos, hlt, hcheck, fun p arg hid hi => ?_⟩
  obtain ⟨hstate, hedge, hsvc⟩ := hconf p arg hid hi
  rw [bind p (configuringPin_of_cur (k := pr.label) (hpr.trans (by rw [← hi])))]
  exact ⟨hstate, hedge, fun hl => svc (hsvc hl)⟩

theorem Inv.top_ok {s : State} (h : Inv s) : FrameOk s s.top := h.frames _ (by rw [frames_eq]; simp)

/-! ## A step that changes no binding -/

theorem BindingOk.mono {s t : State} {p : Pin} (h : BindingOk s p) (bind : t.bindAt p = s.bindAt p)
    (svc : s.svc = true → t.svc = true)
    (pend : t.pendAt p = true → s.pendAt p = true ∨ (s.bindAt p).state = .bound) : BindingOk t p := by
  unfold BindingOk at *
  rw [bind]
  split at h
  · rename_i hb
    rw [if_pos hb]
    exact ⟨h.1, h.2.1, svc h.2.2⟩
  · rename_i hb
    rw [if_neg hb]
    refine ⟨h.1, Bool.eq_false_iff.2 fun ht => ?_⟩
    rcases pend ht with hp | hp
    · simp [h.2] at hp
    · exact hb hp

/-- The invariant over a step that changes no binding: it may set the pending bit of a bound pin and clear any, change
frames, and push or pop one that configures nothing. -/
theorem Inv.of_same_bindings {s t : State} (h : Inv s) (cfg : t.cfg = s.cfg) (nesting : NestingOk t)
    (bind : t.bind = s.bind) (svc : s.svc = true → t.svc = true)
    (pend : ∀ p, t.pendAt p = true → s.pendAt p = true ∨ (s.bindAt p).state = .bound)
    (frames : ∀ f ∈ t.frames, f ∈ s.frames ∨ FrameOk t f)
    (owners : t.frames.filterMap configuringPin = s.frames.filterMap configuringPin) : Inv t where
  config := cfg ▸ h.config
  nesting := nesting
  frames f hf := (frames f hf).elim (fun hs => (h.frames f hs).mono cfg (fun p _ => bindAt_congr bind p) svc) id
  owners := owners ▸ h.owners
  registry p := (h.registry p).mono (bindAt_congr bind p) svc (pend p)
  owned p hp := owners ▸ h.owned p (bindAt_congr bind p ▸ hp)

theorem NestingOk.mono {s t : State} (h : NestingOk s) (cfg : t.cfg = s.cfg)
    (depth : t.handlers.length ≤ s.handlers.length) : NestingOk t := fun n hn =>
  depth.trans (h n (cfg ▸ hn))

/-- A step that leaves the frames as they are. -/
theorem Inv.of_same_frames {s t : State} (h : Inv s) (cfg : t.cfg = s.cfg) (frames : t.frames = s.frames)
    (depth : t.handlers.length = s.handlers.length) (bind : t.bind = s.bind) (svc : t.svc = s.svc)
    (pend : ∀ p, t.pendAt p = true → s.pendAt p = true ∨ (s.bindAt p).state = .bound) : Inv t :=
  h.of_same_bindings cfg (h.nesting.mono cfg depth.le) bind svc.trans pend (fun _ hf => .inl (frames ▸ hf))
    (by rw [frames])

/-! ## The end of an operation's step -/

/-- `t` is `s'`, the state an operation's step from `s` left, with `cur` as the running frame's request in progress. -/
structure Advances (s s' : State) (cur : Option Progress) (t : State) : Prop where
  cfg : t.cfg = s.cfg
  depth : t.handlers.length = s.handlers.length
  below : t.below = s.below
  cur : t.top.cur = cur
  bind : t.bind = s'.bind
  pend : t.pend = s'.pend
  svc : t.svc = s'.svc
  svcKept : s.svc = true → t.svc = true

theorem StepKeeps.advances_goOn {s s' : State} (hk : StepKeeps s s') (i : Instr) (k : Nat) :
    Advances s s' (some { instr := i, label := k }) (s'.goOn i k) :=
  ⟨hk.cfg, by simp [hk.length_handlers], by simp [hk.below], by simp, rfl, rfl, rfl, hk.svc⟩

theorem StepKeeps.advances_finish {s s' : State} (hk : StepKeeps s s') : Advances s s' none s'.finish :=
  ⟨hk.cfg, by simp [hk.length_handlers], by simp [hk.below], by simp, rfl, rfl, rfl, hk.svc⟩

theorem Advances.logEvent {s s' t : State} {cur : Option Progress} (a : Advances s s' cur t) (ev : Event) :
    Advances s s' cur (t.logEvent ev) :=
  ⟨a.cfg, a.depth, a.below, a.cur, a.bind, a.pend, a.svc, a.svcKept⟩

/-- A step of an operation but `HRET`: the step function at the label, and whether it goes on or ends. -/
theorem exec_advances {i : Instr} {s t : State} (hi : i ≠ .hret) (h : exec i s = .next t) :
    ∃ f s', (stepsOf s.cfg i)[s.labelOf i]? = some f ∧
      ((f s = .go s' ∧ Advances s s' (some { instr := i, label := s.labelOf i + 1 }) t) ∨
        ∃ r, f s = .ret r s' ∧ Advances s s' none t) := by
  rw [exec_eq hi] at h
  obtain ⟨f, hf, hr⟩ := runSteps_cases h
  have keeps : ∀ s', (f s).Leaves s' → StepKeeps s s' := allKeep_stepsOf _ _ f (List.mem_of_getElem? hf) s
  rcases hr with ⟨s', hs, rfl⟩ | ⟨s', hs, rfl⟩ | ⟨s', r, hs, rfl⟩ <;> have hk := keeps s' (by rw [hs]; rfl)
  · exact ⟨f, s', hf, .inl ⟨hs, hk.advances_goOn _ _⟩⟩
  · exact ⟨f, s', hf, .inr ⟨none, hs, hk.advances_finish⟩⟩
  · exact ⟨f, s', hf, .inr ⟨some r, hs, hk.advances_finish.logEvent _⟩⟩

theorem Advances.mem_frames {s s' t : State} {cur : Option Progress} (a : Advances s s' cur t) {f : Frame}
    (hf : f ∈ t.frames) : f = t.top ∨ f ∈ s.below := by
  rw [frames_eq, a.below] at hf
  exact List.mem_cons.1 hf

theorem Advances.owners {s s' t : State} {cur : Option Progress} (a : Advances s s' cur t) :
    t.frames.filterMap configuringPin = (configuringPin t.top).toList ++ s.ownedBelow := by
  rw [owners_eq, State.ownedBelow, a.below, State.ownedBelow]

theorem mem_frames_of_below {s : State} {f : Frame} (h : f ∈ s.below) : f ∈ s.frames := by
  rw [frames_eq]
  exact List.mem_cons_of_mem _ h

/-- A step of an operation that changes no binding and no pending bit. -/
theorem Inv.of_advances {s s' t : State} {cur : Option Progress} (h : Inv s) (a : Advances s s' cur t)
    (bind : s'.bind = s.bind) (pend : s'.pend = s.pend) (top : FrameOk t t.top)
    (owner : configuringPin t.top = configuringPin s.top) : Inv t := by
  refine h.of_same_bindings a.cfg (h.nesting.mono a.cfg a.depth.le) (a.bind.trans bind) a.svcKept
    (fun p hp => .inl ?_) (fun f hf => ?_) (by rw [a.owners, owner, ← owners_eq])
  · rwa [← pendAt_congr (a.pend.trans pend) p]
  · exact (a.mem_frames hf).elim (fun e => .inr (e ▸ top)) fun hb => .inl (mem_frames_of_below hb)

/-! ## A step that changes one pin's binding -/

theorem Advances.bindAt {s s' t : State} {cur : Option Progress} (a : Advances s s' cur t) {p : Pin} {b : Binding}
    (bind : s'.bind = (s.setBind p b).bind) (hp : p.toNat < 32) (q : Pin) :
    t.bindAt q = if q = p then b else s.bindAt q := by
  simp [bindAt_congr (a.bind.trans bind), bindAt_setBind, hp]

/-- The invariant over a step of an operation that makes `b` the binding of `p`, a pin that no other frame configures. -/
theorem Inv.of_rebinding {s s' t : State} {cur : Option Progress} {p : Pin} {b : Binding} (h : Inv s)
    (a : Advances s s' cur t) (hp : p.toNat < 32) (bind : s'.bind = (s.setBind p b).bind)
    (pend : ∀ q, q ≠ p → s'.pendAt q = s.pendAt q) (notBelow : p ∉ s.ownedBelow)
    (before : ∀ q, configuringPin s.top = some q → q = p) (top : FrameOk t t.top)
    (registry : if b.state = .bound then b.handler.isSome = true ∧ b.edge.isSome = true ∧ t.svc = true
      else b.handler = none ∧ s'.pendAt p = false)
    (after : configuringPin t.top = if b.state = .configuring then some p else none) : Inv t := by
  have hbind := a.bindAt bind hp
  have other : ∀ q, q ≠ p → t.bindAt q = s.bindAt q := fun q hq => by rw [hbind, if_neg hq]
  have howners := h.owners
  rw [owners_eq] at howners
  refine ⟨a.cfg ▸ h.config, h.nesting.mono a.cfg a.depth.le, fun f hf => ?_, ?_, fun q => ?_, fun q hq => ?_⟩
  · rcases a.mem_frames hf with rfl | hb
    · exact top
    · refine (h.frames f (mem_frames_of_below hb)).mono a.cfg (fun q hq => other q ?_) a.svcKept
      rintro rfl
      exact notBelow (List.mem_filterMap.2 ⟨f, hb, hq⟩)
  · have hbelow : s.ownedBelow.Nodup := (List.nodup_append.1 howners).2.1
    rw [a.owners, after]
    split
    · exact List.nodup_cons.2 ⟨notBelow, hbelow⟩
    · exact hbelow
  · by_cases hq : q = p
    · subst hq
      rwa [BindingOk, hbind, if_pos rfl, pendAt_congr a.pend]
    · exact (h.registry q).mono (other q hq) a.svcKept fun ht => .inl (by
        rwa [pendAt_congr a.pend, pend q hq] at ht)
  · rw [a.owners]
    by_cases hqp : q = p
    · subst hqp
      rw [hbind, if_pos rfl] at hq
      simp [after, hq]
    · rw [other q hqp] at hq
      have ho := h.owned q hq
      rw [owners_eq] at ho
      rcases List.mem_append.1 ho with ho | ho
      · exact absurd (before q (Option.mem_toList.1 ho)) hqp
      · exact List.mem_append_right _ ho

end Sys2Proof.Machine
end

section
/-! SUPPORT. Every step of every agent keeps the invariant of the block (R33). -/

namespace Sys2Proof.Machine

/-! ## Where the running frame is -/

/-- The running frame takes its next step in `i`: the first, with no request in progress, or one of `i` in progress. -/
def State.Executing (s : State) (i : Instr) : Prop := s.Idle ∨ ∃ k, s.At i k

/-- What the invariant says of the running frame: it is at the first step, or past the check and before the end. -/
theorem Inv.executing_cases {s : State} {i : Instr} (h : Inv s) (he : s.Executing i) :
    (s.top.cur = none ∧ s.labelOf i = 0) ∨
      ∃ k, s.top.cur = some { instr := i, label := k } ∧ s.labelOf i = k ∧ 0 < k ∧ k < stepCount s.cfg i ∧
        checkPasses s.cfg i = true ∧
        ∀ p arg hid, i = .configInterruption p arg hid → (s.bindAt p).state = .configuring ∧
          (11 ≤ k → (s.bindAt p).edge.isSome = true) ∧ (12 ≤ k → s.svc = true) := by
  rcases he with hc | ⟨k, hc⟩
  · exact .inl ⟨hc, labelOf_idle hc i⟩
  · exact .inr ⟨k, hc, labelOf_at hc, h.top_ok _ hc⟩

theorem Inv.configuringPin_top {s : State} {i : Instr} (he : s.Executing i)
    (hi : ∀ p arg hid, i ≠ .configInterruption p arg hid) : configuringPin s.top = none := by
  rcases he with hc | ⟨k, hc⟩
  · exact configuringPin_of_none hc
  · exact configuringPin_of_other hc hi

/-- The running frame after a step that goes on: past the check and before the end, and if it configures a pin, with that
pin as its label asks. -/
theorem Inv.frameOk_goOn {s s' t : State} {i : Instr} {f : StepFn} (h : Inv s) (he : s.Executing i) (hi : i ≠ .hret)
    (hf : (stepsOf s.cfg i)[s.labelOf i]? = some f) (hg : f s = .go s')
    (a : Advances s s' (some { instr := i, label := s.labelOf i + 1 }) t)
    (config : ∀ p arg hid, i = .configInterruption p arg hid → (t.bindAt p).state = .configuring ∧
      (11 ≤ s.labelOf i + 1 → (t.bindAt p).edge.isSome = true) ∧ (12 ≤ s.labelOf i + 1 → t.svc = true)) :
    FrameOk t t.top := by
  intro pr hpr
  rw [a.cur] at hpr
  cases hpr
  rw [a.cfg]
  refine ⟨Nat.succ_pos _, succ_lt_stepCount hi hf hg, ?_, config⟩
  rcases h.executing_cases he with ⟨-, hk⟩ | ⟨k, -, -, -, -, hcheck, -⟩
  · rw [hk] at hf
    exact checkPasses_of_go hf hg
  · exact hcheck

/-! ## The operations -/

/-- `HRET` pops a frame that configures nothing (R144). -/
theorem Inv.exec_hret {s t : State} (h : Inv s) (he : s.Executing .hret) (ht : exec .hret s = .next t) : Inv t := by
  rcases exec_cases ht with ⟨-, x, xs, hx, rfl⟩ | ⟨hne, -⟩
  · have hframes := frames_pop hx
    refine h.of_same_bindings rfl (h.nesting.mono rfl (by simp [hx])) rfl id (fun p hp => .inl hp) (fun f hf => ?_) ?_
    · exact .inl (mem_frames_of_below (hframes ▸ hf))
    · rw [owners_eq s, Inv.configuringPin_top he (by simp)]
      exact congrArg _ hframes
  · exact absurd rfl hne

/-- An operation with no step that changes a binding. -/
theorem Inv.exec_keepsBind {i : Instr} {s t : State} (h : Inv s) (he : s.Executing i) (hi : i ≠ .hret)
    (hx : ∀ p, i ≠ .excludeInterruption p) (hc : ∀ p arg hid, i ≠ .configInterruption p arg hid)
    (ht : exec i s = .next t) : Inv t := by
  have htop := Inv.configuringPin_top he hc
  obtain ⟨f, s', hf, hr⟩ := exec_advances hi ht
  have hm := List.mem_of_getElem? hf
  rcases hr with ⟨hg, a⟩ | ⟨r, hg, a⟩ <;>
    have hL : (f s).Leaves s' := by rw [hg]; rfl
  · exact h.of_advances a (keepsBind_stepsOf _ _ hx hc f hm _ _ hL) (allKeepPend_stepsOf _ _ hx hc f hm _ _ hL)
      (h.frameOk_goOn he hi hf hg a fun p arg hid e => absurd e (hc p arg hid))
      (by rw [htop, configuringPin_of_other a.cur hc])
  · exact h.of_advances a (keepsBind_stepsOf _ _ hx hc f hm _ _ hL) (allKeepPend_stepsOf _ _ hx hc f hm _ _ hL)
      (FrameOk.of_cur_none a.cur) (by rw [htop, configuringPin_of_none a.cur])

theorem toNat_lt_of_gpioValid {c : Config} {p : Pin} (h : gpioValid c p = true) : p.toNat < 32 := by
  simp only [gpioValid, Bool.and_eq_true, decide_eq_true_eq] at h
  omega

/-- `EXCLUDE_INTERRUPTION` detaches a bound pin, which no frame configures (R139). -/
theorem Inv.exec_exclude {p : Pin} {s t : State} (h : Inv s) (he : s.Executing (.excludeInterruption p))
    (ht : exec (.excludeInterruption p) s = .next t) : Inv t := by
  have htop := Inv.configuringPin_top he (by simp)
  obtain ⟨f, s', hf, hr⟩ := exec_advances (by simp) ht
  obtain rfl : f = excludeStep p := by simpa [stepsOf] using List.mem_of_getElem? hf
  rcases hr with ⟨hg, -⟩ | ⟨r, hg, a⟩
  · exact absurd hg (excludeStep_ne_go p s s')
  have hok := FrameOk.of_cur_none (s := t) a.cur
  have hpin := configuringPin_of_none a.cur
  have same : s' = s → Inv t := fun e => h.of_advances a (by rw [e]) (by rw [e]) hok (by rw [htop, hpin])
  unfold excludeStep at hg
  split at hg
  · rename_i hv
    obtain ⟨-, rfl⟩ := StepEnd.ret.inj hg
    by_cases hb : (s.bindAt p).state = .bound
    · have hp := toNat_lt_of_gpioValid hv
      have hs : detachHandler p s =
          (s.setBind p { s.bindAt p with state := .unbound, handler := none }).setPend p false := by
        rw [detachHandler, if_pos hb]
      refine h.of_rebinding (b := { s.bindAt p with state := .unbound, handler := none }) a hp
        (by rw [hs]; rfl) (fun q hq => ?_) (fun hm => ?_) (by simp [htop]) hok ?_ hpin
      · rw [hs, pendAt_setPend, if_neg fun x => hq x.1, pendAt_congr (setBind_pend _ _ _)]
      · simp [h.configuring_of_ownedBelow hm] at hb
      · exact ⟨rfl, by rw [hs, pendAt_setPend, if_pos ⟨rfl, hp⟩]⟩
    · exact same (by rw [detachHandler, if_neg hb])
  · exact same (StepEnd.ret.inj hg).2.symm

/-! ## CONFIG_INTERRUPTION (R136) -/

/-- What the invariant says while the running frame is past `c0` of a configuration of `p`: `p` is its alone, not bound,
with no handler and nothing pending (R135, R138). -/
structure Configures (s : State) (p : Pin) : Prop where
  inv : Inv s
  lt : p.toNat < 32
  owner : configuringPin s.top = some p
  notBelow : p ∉ s.ownedBelow
  state : (s.bindAt p).state = .configuring
  handler : (s.bindAt p).handler = none
  pend : s.pendAt p = false

/-- A pin not bound has no handler and nothing pending (R33). -/
theorem Inv.not_bound {s : State} (h : Inv s) {p : Pin} (hb : (s.bindAt p).state ≠ .bound) :
    (s.bindAt p).handler = none ∧ s.pendAt p = false := by
  simpa [BindingOk, hb] using h.registry p

theorem Inv.configures {s : State} (h : Inv s) {p : Pin} (hv : gpioValid s.cfg p = true)
    (hp : configuringPin s.top = some p) : Configures s p := by
  have hstate := h.top_ok.configuring hp
  have hn := h.owners
  rw [owners_eq, hp] at hn
  obtain ⟨hhandler, hpend⟩ := h.not_bound (p := p) (by simp [hstate])
  exact ⟨h, toNat_lt_of_gpioValid hv, hp, (List.nodup_cons.1 hn).1, hstate, hhandler, hpend⟩

theorem Configures.before {s : State} {p : Pin} (h : Configures s p) (q : Pin) (hq : configuringPin s.top = some q) :
    q = p := Option.some.inj (hq.symm.trans h.owner)

/-- A configuration that fails leaves its pin unbound (R137). -/
theorem Configures.fails {s u s' t : State} {p : Pin} {r : Option Result} (h : Configures s p) (bind : u.bind = s.bind)
    (pend : u.pend = s.pend) (hr : configFails p u = .ret r s') (a : Advances s s' none t) : Inv t := by
  obtain ⟨-, rfl⟩ := StepEnd.ret.inj hr
  exact h.inv.of_rebinding (b := { s.bindAt p with state := .unbound }) a h.lt
    (by rw [← bindAt_congr bind p]; simp [State.setBindState, State.setBind, bind])
    (fun q _ => pendAt_congr pend q) h.notBelow h.before (FrameOk.of_cur_none a.cur)
    ⟨h.handler, (pendAt_congr pend p).trans h.pend⟩ (configuringPin_of_none a.cur)

/-! What each step of the configuration that is no transaction can do. -/

theorem configCheck_go {p : Pin} {s s' : State} (h : configCheck p s = .go s') :
    gpioValid s.cfg p = true ∧ (s.bindAt p).state = .unbound ∧ s' = s.setBindState p .configuring := by
  unfold configCheck at h
  split at h <;> cases h
  rename_i hv
  simp only [Bool.and_eq_true, decide_eq_true_eq] at hv
  exact ⟨hv.1.1, hv.2, rfl⟩

theorem configCheck_ret {p : Pin} {s s' : State} {r : Option Result} (h : configCheck p s = .ret r s') : s' = s := by
  unfold configCheck at h
  split at h <;> cases h
  rfl

theorem configEdge_go {p : Pin} {arg : BitVec 4} {s s' : State} (h : configEdge p arg s = .go s') :
    ∃ e, s' = s.setBind p { s.bindAt p with edge := some e } := by
  unfold configEdge at h
  split at h <;> cases h
  exact ⟨_, rfl⟩

theorem configEdge_ret {p : Pin} {arg : BitVec 4} {s s' : State} {r : Option Result}
    (h : configEdge p arg s = .ret r s') : configFails p s = .ret r s' := by
  unfold configEdge at h
  split at h
  · cases h
  · exact h

theorem configService_go {p : Pin} {s s' : State} (h : configService p s = .go s') :
    s'.bind = s.bind ∧ s'.pend = s.pend ∧ s'.svc = true := by
  unfold configService at h
  repeat' split at h
  all_goals cases h
  · exact ⟨rfl, rfl, ‹_›⟩
  · simp

theorem configService_ret {p : Pin} {s s' : State} {r : Option Result} (h : configService p s = .ret r s') :
    configFails p (askIntCtl s).2 = .ret r s' := by
  unfold configService at h
  repeat' split at h
  · cases h
  · cases h
  · exact h

theorem configAttach_ret {p : Pin} {hid : Hid} {s s' : State} {r : Option Result} (h : configAttach p hid s = .ret r s') :
    s' = attachHandler p hid (askIntCtl s).2 ∨ configFails p (askIntCtl s).2 = .ret r s' := by
  unfold configAttach at h
  split at h
  · exact .inl (StepEnd.ret.inj h).2.symm
  · exact .inr h

/-- Step `c0` takes an unbound pin, which no frame configures (R138). -/
theorem Inv.takes {s s' t : State} {p : Pin} {arg : BitVec 4} {hid : Hid} {k : Nat} (h : Inv s)
    (hc : s.top.cur = none) (hg : configCheck p s = .go s')
    (a : Advances s s' (some { instr := .configInterruption p arg hid, label := k }) t)
    (top : (t.bindAt p).state = .configuring → FrameOk t t.top) : Inv t := by
  obtain ⟨hvalid, hunbound, rfl⟩ := configCheck_go hg
  have hp := toNat_lt_of_gpioValid hvalid
  refine h.of_rebinding (b := { s.bindAt p with state := .configuring }) a hp rfl (fun _ _ => rfl) (fun hm => ?_)
    (by simp [configuringPin_of_none hc]) (top ?_) (h.not_bound (by simp [hunbound])) (configuringPin_of_cur a.cur)
  · simp [h.configuring_of_ownedBelow hm] at hunbound
  · rw [a.bindAt rfl hp, if_pos rfl]

/-- Step `c10` programs the edge type. -/
theorem Configures.programs {s s' t : State} {p : Pin} {arg : BitVec 4} {hid : Hid} {k : Nat} (h : Configures s p)
    (hg : configEdge p arg s = .go s')
    (a : Advances s s' (some { instr := .configInterruption p arg hid, label := k }) t)
    (top : (t.bindAt p).state = .configuring → (t.bindAt p).edge.isSome = true → FrameOk t t.top) : Inv t := by
  obtain ⟨e, rfl⟩ := configEdge_go hg
  have hb : t.bindAt p = { s.bindAt p with edge := some e } := by rw [a.bindAt rfl h.lt, if_pos rfl]
  refine h.inv.of_rebinding (b := { s.bindAt p with edge := some e }) a h.lt rfl (fun _ _ => rfl) h.notBelow h.before
    (top (by rw [hb, ← h.state]) (by rw [hb]; rfl)) ?_ ?_
  · simpa [h.state] using ⟨h.handler, h.pend⟩
  · simpa [h.state] using configuringPin_of_cur a.cur

/-- Step `c12` binds the pin, with the edge type and the service in place (R33, R136). -/
theorem Configures.attaches {s t : State} {p : Pin} {hid : Hid} (h : Configures s p)
    (edge : (s.bindAt p).edge.isSome = true) (svc : s.svc = true)
    (a : Advances s (attachHandler p hid (askIntCtl s).2) none t) : Inv t := by
  refine h.inv.of_rebinding (b := { s.bindAt p with state := .bound, handler := some hid }) a h.lt ?_ (fun q hq => ?_)
    h.notBelow h.before (FrameOk.of_cur_none a.cur) ⟨rfl, edge, a.svcKept svc⟩ (configuringPin_of_none a.cur)
  · rw [← bindAt_congr (askIntCtl_bind s) p]
    simp [attachHandler, State.setBind]
  · rw [attachHandler, pendAt_setPend, if_neg fun x => hq x.1]
    exact pendAt_congr (by simp) q

/-- A step of the configuration of `p` that goes on and leaves every binding as it was. -/
theorem Configures.goes {s s' t : State} {p : Pin} {arg : BitVec 4} {hid : Hid} {k : Nat} (h : Configures s p)
    (a : Advances s s' (some { instr := .configInterruption p arg hid, label := k }) t) (bind : s'.bind = s.bind)
    (pend : s'.pend = s.pend) (top : t.bindAt p = s.bindAt p → FrameOk t t.top) : Inv t :=
  h.inv.of_advances a bind pend (top (bindAt_congr (a.bind.trans bind) p))
    (by rw [h.owner, configuringPin_of_cur a.cur])

/-- The running frame after step `k` of a configuration that goes on. -/
theorem Inv.frameOk_config {s s' t : State} {p : Pin} {arg : BitVec 4} {hid : Hid} {k : Nat} {f : StepFn} (h : Inv s)
    (he : s.Executing (.configInterruption p arg hid)) (hk : s.labelOf (.configInterruption p arg hid) = k)
    (hf : (configSteps s.cfg p arg hid)[k]? = some f) (hg : f s = .go s')
    (a : Advances s s' (some { instr := .configInterruption p arg hid, label := k + 1 }) t)
    (state : (t.bindAt p).state = .configuring) (edge : 11 ≤ k + 1 → (t.bindAt p).edge.isSome = true)
    (svc : 12 ≤ k + 1 → t.svc = true) : FrameOk t t.top := by
  subst hk
  refine h.frameOk_goOn he (by simp) hf hg a fun p' arg' hid' e => ?_
  obtain ⟨rfl, -, -⟩ := Instr.configInterruption.inj e
  exact ⟨state, edge, svc⟩

/-- Every step of `CONFIG_INTERRUPTION`, in the order of its sequence. -/
theorem Inv.exec_config {p : Pin} {arg : BitVec 4} {hid : Hid} {s t : State} (h : Inv s)
    (he : s.Executing (.configInterruption p arg hid)) (ht : exec (.configInterruption p arg hid) s = .next t) :
    Inv t := by
  obtain ⟨f, s', hf, hr⟩ := exec_advances (by simp) ht
  rcases h.executing_cases he with ⟨hc, hk⟩ | ⟨k, hc, hk, hpos, -, hcheck, hconf⟩ <;> rw [hk] at hf hr
  · obtain rfl : configCheck p = f := Option.some.inj hf
    rcases hr with ⟨hg, a⟩ | ⟨r, hg, a⟩
    · exact h.takes hc hg a fun hstate => h.frameOk_config he hk hf hg a hstate (by simp) (by simp)
    · obtain rfl := configCheck_ret hg
      exact h.of_advances a rfl rfl (FrameOk.of_cur_none a.cur)
        (by rw [configuringPin_of_none a.cur, configuringPin_of_none hc])
  · obtain ⟨hstate, hedge, hsvc⟩ := hconf p arg hid rfl
    have hp : Configures s p := by
      refine h.configures ?_ (configuringPin_of_cur hc)
      simp only [checkPasses, Bool.and_eq_true] at hcheck
      exact hcheck.1
    rcases configSteps_cases hf with ⟨rfl, -⟩ | ⟨-, hlt, hbus⟩ | ⟨rfl, rfl⟩ | ⟨rfl, rfl⟩ | ⟨rfl, rfl⟩
    · exact absurd hpos (lt_irrefl 0)
    · rcases hr with ⟨hg, a⟩ | ⟨r, hg, -⟩
      · have hL : (f s).Leaves s' := by rw [hg]; rfl
        exact hp.goes a (hbus.keepsBind s s' hL) (KeepsPend.configSteps hf (by omega) s s' hL) fun hb =>
          h.frameOk_config he hk hf hg a (hb ▸ hstate) (by omega) (by omega)
      · rcases hbus s with ⟨u, hu, -⟩ | ⟨x, hu⟩ <;> simp [hu] at hg
    · rcases hr with ⟨hg, a⟩ | ⟨r, hg, a⟩
      · exact hp.programs hg a fun hstate hedge => h.frameOk_config he hk hf hg a hstate (fun _ => hedge) (by simp)
      · exact hp.fails rfl rfl (configEdge_ret hg) a
    · rcases hr with ⟨hg, a⟩ | ⟨r, hg, a⟩
      · obtain ⟨hbind, hpend, hs'⟩ := configService_go hg
        exact hp.goes a hbind hpend fun hb =>
          h.frameOk_config he hk hf hg a (hb ▸ hstate) (fun _ => hb ▸ hedge (by simp)) fun _ => a.svc.trans hs'
      · exact hp.fails (by simp) (by simp) (configService_ret hg) a
    · rcases hr with ⟨hg, -⟩ | ⟨r, hg, a⟩
      · exact absurd hg (configAttach_ne_go p hid s s')
      · rcases configAttach_ret hg with rfl | hfail
        · exact hp.attaches (hedge (by simp)) (hsvc (by simp)) a
        · exact hp.fails (by simp) (by simp) hfail a

/-! ## Any step -/

theorem Inv.exec {i : Instr} {s t : State} (h : Inv s) (he : s.Executing i) (ht : exec i s = .next t) : Inv t := by
  cases i
  case hret => exact h.exec_hret he ht
  case excludeInterruption => exact h.exec_exclude he ht
  case configInterruption => exact h.exec_config he ht
  all_goals exact h.exec_keepsBind he (by simp) (by simp) (by simp) ht

/-- Fetching a request keeps the invariant: it looks at the request in progress alone. -/
theorem Inv.fetched {s : State} (h : Inv s) (rest : List Request) : Inv (s.fetched rest) := by
  have htop : (s.fetched rest).frames = { s.top with prog := rest } :: s.below := frames_setTop _ _
  refine h.of_same_bindings rfl (h.nesting.mono rfl (by simp)) rfl id (fun p hp => .inl hp) (fun f hf => ?_) ?_
  · rw [htop] at hf
    rcases List.mem_cons.1 hf with rfl | hf
    · exact .inr fun pr hpr => h.top_ok pr hpr
    · exact .inl (mem_frames_of_below hf)
  · rw [htop, frames_eq]
    rfl

theorem Fetches.executing {s : State} {i : Instr} {rest : List Request} (h : Fetches s i rest) :
    (s.fetched rest).Executing i := by
  rcases h with ⟨k, hc, -⟩ | ⟨hc, -⟩
  · exact .inr ⟨k, by rw [State.At, fetched_top, hc]⟩
  · exact .inl (by rw [State.Idle, fetched_top, hc])

theorem Inv.transacts {s t : State} (h : Inv s) (ht : Transacts s t) : Inv t :=
  have hb := ht.busOnly
  h.of_same_frames hb.cfg (frames_congr hb.main hb.handlers) (by rw [hb.handlers]) hb.bind hb.svc
    fun p hp => .inl (by rwa [← pendAt_congr hb.pend])

/-- Sampling a pad sets at most the pending bit of a bound pin (R161). -/
theorem Inv.padLevel {s : State} (h : Inv s) (p : Pin) (lvl : Bool) : Inv (padLevel p lvl s) := by
  obtain ⟨s', rfl | ⟨rfl, hb⟩, he⟩ := padLevel_cases p lvl s <;> rw [he]
  · exact h.of_same_frames rfl rfl rfl rfl rfl fun q hq => .inl hq
  · refine h.of_same_frames rfl rfl rfl rfl rfl fun q hq => ?_
    have hq : (s.setPend p true).pendAt q = true := hq
    rw [pendAt_setPend] at hq
    split at hq
    · rename_i hqp
      exact .inr (hqp.1 ▸ hb)
    · exact .inl hq

/-- A dispatch stacks a frame with no request in progress, below the limit (R165, R169). -/
theorem Inv.takeInterrupt {s : State} (h : Inv s) {p : Pin} {hid : Hid} (hd : dispatchable s p = some hid) (x : Inputs) :
    Inv (takeInterrupt p hid { s with inputs := x }) := by
  refine h.of_same_bindings rfl (fun n hn => ?_) rfl id (fun q hq => .inl ?_) (fun f hf => ?_) rfl
  · have hn : s.cfg.maxNest = some n := hn
    unfold dispatchable at hd
    split at hd
    · rename_i hc
      simp only [Bool.and_eq_true, nestingAllowed, hn, decide_eq_true_eq] at hc
      exact hc.2
    · cases hd
  · have hq : (s.setPend p false).pendAt q = true := hq
    rw [pendAt_setPend] at hq
    split at hq
    · cases hq
    · exact hq
  · rw [frames_takeInterrupt] at hf
    rcases List.mem_cons.1 hf with rfl | hf
    · exact .inr (FrameOk.of_cur_none rfl)
    · exact .inl hf

/-- Settles O59: by the agent that moves, and for the running frame by the operation and its label. -/
theorem everyStepKeepsTheInv : Obligations.EveryStepKeepsTheInv := by
  intro s t h hstep
  have same : ∀ p : Pin, s.pendAt p = true → s.pendAt p = true ∨ (s.bindAt p).state = .bound := fun _ => .inl
  have hpop : Inv s.popChoice := h.of_same_frames rfl rfl rfl rfl rfl same
  rcases step_cases hstep with ⟨i, rest, hf, he⟩ | rfl | ⟨p, d, cs, -, -, rfl⟩ | ⟨p, lvl, cs, -, -, -, rfl⟩ |
    ⟨p, hid, x, hd, rfl⟩ | ⟨rest, -, ht⟩
  · exact (h.fetched rest).exec hf.executing he
  · exact hpop
  · exact h.of_same_frames rfl rfl rfl rfl rfl same
  · exact hpop.padLevel p lvl
  · exact h.takeInterrupt hd x
  · exact (h.fetched rest).transacts ht

end Sys2Proof.Machine
end

section
/-! SUPPORT. The address map by discipline (R55 to R58): what stands where, which transactions fault, and that every legal
write is idempotent (R77, R81). -/

namespace Sys2Proof.Machine

/-! ## The address map -/

theorem gpioReg_eq_none {d : Word} (h : d ∉ [(0x04 : Word), 0x08, 0x0C, 0x20, 0x24, 0x28, 0x3C]) : gpioReg d = none := by
  simp only [List.mem_cons, List.not_mem_nil, or_false, not_or] at h
  obtain ⟨hOut, hOutSet, hOutClear, hEnable, hEnableSet, hEnableClear, hIn⟩ := h
  rw [gpioReg, if_neg hOut, if_neg hOutSet, if_neg hOutClear, if_neg hEnable, if_neg hEnableSet, if_neg hEnableClear,
    if_neg hIn]

/-- Settles O11: the GPIO registers by their offsets, the IO-MUX registers by the table of the pins. -/
theorem addressMap : Obligations.AddressMap :=
  ⟨fun c => ⟨regAt_out c, regAt_outSet c, regAt_outClear c, regAt_enable c, regAt_enableSet c, regAt_enableClear c,
      regAt_inp c⟩,
    fun _ h => ⟨fun _ hlt hn => regAt_gpio_unmapped h hlt (gpioReg_eq_none hn), fun _ hn => regAt_iomux_unmapped h hn,
      fun _ _ hp => regAt_of_iomuxOff h hp⟩⟩

/-! ## Disciplines -/

theorem disc_of_regAt {c : Config} {a : Word} {r : Reg} (h : regAt c a = some r) : disc c a = some (discipline r) := by
  rw [disc, h]
  rfl

theorem disc_of_unmapped {c : Config} {a : Word} (h : regAt c a = none) : disc c a = none := by
  rw [disc, h]
  rfl

/-- Below 0x40 the discipline of a GPIO address is that of the register of its offset, if there is one (R55, R57). -/
theorem disc_gpioAddr {c : Config} (h : c.wellFormed = true) {off : Word} (hlt : off.toNat < 0x40) :
    disc c (gpioAddr c off) = (gpioReg off).map discipline := by
  cases hr : gpioReg off with
  | none => exact disc_of_unmapped (regAt_gpio_unmapped h hlt hr)
  | some r => exact disc_of_regAt (regAt_gpioAddr c hr)

theorem setWidth_off_ne {off : Off} {os : List Off} (hn : off ∉ os) {d : Word} (hd : d ∈ os.map (·.setWidth 32)) :
    off.setWidth 32 ≠ d := by
  obtain ⟨o, ho, rfl⟩ := List.mem_map.1 hd
  intro e
  have : off = o := by bv_omega
  exact hn (this ▸ ho)

/-- A GPIO offset below 0x40 that the table names for no read is unmapped or a set or clear port (R55, R103). -/
theorem disc_gpioAddr_unread {c : Config} (h : c.wellFormed = true) {off : Off} (hlt : off.toNat < 0x40)
    (hn : off ∉ [(0x04 : Off), 0x20, 0x3C]) :
    disc c (gpioAddr c (off.setWidth 32)) = none ∨ disc c (gpioAddr c (off.setWidth 32)) = some .setOnly ∨
      disc c (gpioAddr c (off.setWidth 32)) = some .clearOnly := by
  rw [disc_gpioAddr h (by simpa using by omega)]
  cases hr : gpioReg (off.setWidth 32) with
  | none => exact .inl rfl
  | some r =>
    rcases offset_of_gpioReg hr with ⟨rfl, hd⟩ | ⟨rfl, -⟩ | ⟨rfl, -⟩ | ⟨rfl, hd⟩ | ⟨rfl, -⟩ | ⟨rfl, -⟩ | ⟨rfl, hd⟩
    · exact absurd hd (setWidth_off_ne hn (by decide))
    · exact .inr (.inl rfl)
    · exact .inr (.inr rfl)
    · exact absurd hd (setWidth_off_ne hn (by decide))
    · exact .inr (.inl rfl)
    · exact .inr (.inr rfl)
    · exact absurd hd (setWidth_off_ne hn (by decide))

/-- A GPIO offset below 0x40 that the table names for no write is unmapped or that of `IN` (R55, R103). -/
theorem disc_gpioAddr_unwritten {c : Config} (h : c.wellFormed = true) {off : Off} (hlt : off.toNat < 0x40)
    (hn : off ∉ [(0x04 : Off), 0x08, 0x0C, 0x20, 0x24, 0x28]) :
    disc c (gpioAddr c (off.setWidth 32)) = none ∨ disc c (gpioAddr c (off.setWidth 32)) = some .readOnly := by
  rw [disc_gpioAddr h (by simpa using by omega)]
  cases hr : gpioReg (off.setWidth 32) with
  | none => exact .inl rfl
  | some r =>
    rcases offset_of_gpioReg hr with ⟨-, hd⟩ | ⟨-, hd⟩ | ⟨-, hd⟩ | ⟨-, hd⟩ | ⟨-, hd⟩ | ⟨-, hd⟩ | ⟨rfl, -⟩
    iterate 6
      · exact absurd hd (setWidth_off_ne hn (by decide))
    · exact .inr rfl

/-! ## Illegal transactions -/

/-- Settles O10: by the discipline of the address; a word that no row names is the transaction its step makes. -/
theorem illegalTransactionsFault : Obligations.IllegalTransactionsFault := by
  refine ⟨fun s off hoff => memRead_fault (.inr ?_),
    fun s w => memWrite_fault (.inr (disc_of_regAt (regAt_inp s.cfg))),
    fun s a w h => ⟨memRead_fault (.inl (disc_of_unmapped h)), memWrite_fault (.inl (disc_of_unmapped h))⟩,
    fun s rest off d hw hs hi hlt => ?_⟩
  · simp only [List.mem_cons, List.not_mem_nil, or_false] at hoff
    rcases hoff with rfl | rfl | rfl | rfl
    · exact .inl (disc_of_regAt (regAt_outSet s.cfg))
    · exact .inr (disc_of_regAt (regAt_outClear s.cfg))
    · exact .inl (disc_of_regAt (regAt_enableSet s.cfg))
    · exact .inr (disc_of_regAt (regAt_enableClear s.cfg))
  · obtain ⟨hread, hwrite⟩ := stepRunsTheDecodedInstr.2 s s _ rest off d _ hi (.inl ⟨hs, rfl⟩) rfl rfl
    exact ⟨fun hp hn => (hread hp hn).2 _ (memRead_fault (disc_gpioAddr_unread hw hlt hn)),
      fun hp hn => (hwrite hp hn).2 _ (memWrite_fault (disc_gpioAddr_unwritten hw hlt hn))⟩

/-! ## Writes done again -/

/-- A legal write is of a register that has a write rule, and logs its transaction (R65). -/
theorem memWrite_cases {s t : State} {a w : Word} (h : memWrite a w s = .ok t) :
    ∃ r s', regAt s.cfg a = some r ∧ writeReg r w s = some s' ∧ t = s'.logEvent (.txn s.who .write a w) := by
  unfold memWrite at h
  split at h
  · rename_i s' hs'
    cases h
    obtain ⟨r, hr, hw⟩ := Option.bind_eq_some_iff.1 hs'
    exact ⟨r, s', hr, hw, rfl⟩
  · cases h

/-- The write rule of a register, applied again, changes no register (R81). -/
theorem writeReg_again {r : Reg} {w : Word} {s s' : State} (h : writeReg r w s = some s') (ev : Event) :
    ∃ u, writeReg r w (s'.logEvent ev) = some u ∧ SameGpio s' u ∧ SameMux s' u := by
  cases r <;> cases h
  case out | enable => exact ⟨_, rfl, ⟨rfl, rfl, rfl⟩, rfl⟩
  case outSet => exact ⟨_, rfl, ⟨by simp [BitVec.or_assoc], rfl, rfl⟩, rfl⟩
  case outClear => exact ⟨_, rfl, ⟨by simp [BitVec.and_assoc], rfl, rfl⟩, rfl⟩
  case enableSet => exact ⟨_, rfl, ⟨rfl, by simp [BitVec.or_assoc], rfl⟩, rfl⟩
  case enableClear => exact ⟨_, rfl, ⟨rfl, by simp [BitVec.and_assoc], rfl⟩, rfl⟩
  case mux p => exact ⟨_, rfl, ⟨rfl, rfl, rfl⟩, by simp [SameMux, State.setMux]⟩

/-- Settles O12: the register is the same, since no write changes the address map, and its rule is idempotent. -/
theorem writesAreIdempotent : Obligations.WritesAreIdempotent := by
  intro s t a w h
  have hcfg : t.cfg = s.cfg := (memWrite_busOnly h).1.cfg
  obtain ⟨r, s', hr, hw, rfl⟩ := memWrite_cases h
  obtain ⟨u, hu, ⟨hout, henable, hinp⟩, hmux⟩ := writeReg_again hw (.txn s.who .write a w)
  exact ⟨_, memWrite_of_writeReg (hcfg ▸ hr) hu, hout, henable, hinp, hmux⟩

end Sys2Proof.Machine
end

section
/-! SUPPORT. The transactions of the B-port as whole requests (R66 to R76): what a B-format word spells, and what its one
step does in a frame with no request in progress. -/

namespace Sys2Proof

/-! ## The words (R88) -/

section
variable (off : Off) (d : Word)

theorem decode_gpio_read : decode (.bus (packBus 0 0 off d)) = decodeGpioRead off := by
  simp only [decode, decodeBus, packBus_off, packBus_we, packBus_blk]
  rfl

theorem decode_gpio_write : decode (.bus (packBus 1 0 off d)) = decodeGpioWrite off d := by
  simp only [decode, decodeBus, packBus_off, packBus_data, packBus_we, packBus_blk]
  rfl

theorem decode_mux_read : decode (.bus (packBus 0 1 off d)) = .instr (.rdMux off) := by
  simp only [decode, decodeBus, packBus_off, packBus_we, packBus_blk]
  rfl

theorem decode_mux_write : decode (.bus (packBus 1 1 off d)) = .instr (.wrMux off d) := by
  simp only [decode, decodeBus, packBus_off, packBus_data, packBus_we, packBus_blk]
  rfl
end

end Sys2Proof

namespace Sys2Proof.Machine

/-! ## A transaction as a whole request (R64, R65) -/

section
variable {s : State} {a w : Word}

theorem readOnce_of_readReg {r : Reg} {x : Word × State} (h : regAt s.cfg a = some r) (hr : readReg r s = some x) :
    readOnce a s = .next (x.2.logEvent (.txn s.who .read a x.1)) := by
  rw [readOnce, memRead_of_readReg h hr]

theorem writeOnce_of_writeReg {r : Reg} {s' : State} (h : regAt s.cfg a = some r) (hr : writeReg r w s = some s') :
    writeOnce a w s = .next (s'.logEvent (.txn s.who .write a w)) := by
  rw [writeOnce, memWrite_of_writeReg h hr]

theorem readOnce_of_unmapped (h : regAt s.cfg a = none) : readOnce a s = .fault (.badAccess a .read) := by
  rw [readOnce, memRead_fault (.inl (disc_of_unmapped h))]

theorem writeOnce_of_unmapped (h : regAt s.cfg a = none) : writeOnce a w s = .fault (.badAccess a .write) := by
  rw [writeOnce, memWrite_fault (.inl (disc_of_unmapped h))]

/-- A frame with no request in progress makes the whole read in one step, and has none after it (R5, R64). -/
theorem busRead_idle (i : Instr) (hs : s.Idle) : busRead i a s = readOnce a s := by
  rw [busRead, runSteps_eq (labelOf_idle hs i) rfl, readOnce]
  cases h : memRead a s with
  | error f => simp [endWith, loadStep, h, settle]
  | ok x =>
    have hidle : x.2.top.cur = none := by rw [(memRead_busOnly h).1.top, hs]
    simp [endWith, loadStep, h, settle, finish_of_idle hidle]

/-- A frame with no request in progress makes the whole write in one step, and has none after it (R5, R65). -/
theorem busWrite_idle (i : Instr) (hs : s.Idle) : busWrite i a w s = writeOnce a w s := by
  rw [busWrite, runSteps_eq (labelOf_idle hs i) rfl, writeOnce]
  cases h : memWrite a w s with
  | error f => simp [endWith, storeStep, h, settle]
  | ok s' =>
    have hidle : s'.top.cur = none := by rw [(memWrite_busOnly h).1.top, hs]
    simp [endWith, storeStep, h, settle, finish_of_idle hidle]
end

/-! ## The GPIO block (R66 to R74) -/

/-- Settles O4: each read is one transaction at the register's address. -/
theorem gpioReadsReturnTheRegister : Obligations.GpioReadsReturnTheRegister :=
  ⟨fun d => ⟨decode_gpio_read _ d, decode_gpio_read _ d, decode_gpio_read _ d⟩,
    fun s hs => ⟨(busRead_idle _ hs).trans (readOnce_of_readReg (regAt_out s.cfg) rfl),
      (busRead_idle _ hs).trans (readOnce_of_readReg (regAt_enable s.cfg) rfl),
      (busRead_idle _ hs).trans (readOnce_of_readReg (regAt_inp s.cfg) rfl)⟩⟩

/-- Settles O5: each write is one transaction, by the write rule of `OUT` or of its port. -/
theorem writesOfOut : Obligations.WritesOfOut :=
  ⟨fun v => ⟨decode_gpio_write _ v, decode_gpio_write _ v, decode_gpio_write _ v⟩,
    fun s _ hs => ⟨(busWrite_idle _ hs).trans (writeOnce_of_writeReg (regAt_out s.cfg) rfl),
      (busWrite_idle _ hs).trans (writeOnce_of_writeReg (regAt_outSet s.cfg) rfl),
      (busWrite_idle _ hs).trans (writeOnce_of_writeReg (regAt_outClear s.cfg) rfl)⟩⟩

/-- Settles O6: each write is one transaction, by the write rule of `ENABLE` or of its port. -/
theorem writesOfEnable : Obligations.WritesOfEnable :=
  ⟨fun v => ⟨decode_gpio_write _ v, decode_gpio_write _ v, decode_gpio_write _ v⟩,
    fun s _ hs => ⟨(busWrite_idle _ hs).trans (writeOnce_of_writeReg (regAt_enable s.cfg) rfl),
      (busWrite_idle _ hs).trans (writeOnce_of_writeReg (regAt_enableSet s.cfg) rfl),
      (busWrite_idle _ hs).trans (writeOnce_of_writeReg (regAt_enableClear s.cfg) rfl)⟩⟩

/-! ## The IO-MUX block (R75, R76) -/

/-- Settles O7: the word is the register's fields over the draw, and its layout reads the fields back. -/
theorem rdMuxReturnsTheFields : Obligations.RdMuxReturnsTheFields :=
  ⟨decode_mux_read, fun s _ hw hs =>
    ⟨fun p hp => ⟨muxRead s p, muxFields_muxRead hw p, fun _ hb hn => getLsbD_muxWord_unnamed _ _ hb hn,
        (busRead_idle _ hs).trans (readOnce_of_readReg (regAt_of_iomuxOff hw hp) rfl)⟩,
      fun hn => (busRead_idle _ hs).trans (readOnce_of_unmapped (regAt_iomux_unmapped hw hn))⟩⟩

/-- Settles O8: the write rule of the pin's register, which looks at the named bits of the word alone. -/
theorem wrMuxReplacesTheFields : Obligations.WrMuxReplacesTheFields :=
  ⟨decode_mux_write, fun s _ _ hw hs =>
    ⟨fun _ hp => ⟨(busWrite_idle _ hs).trans (writeOnce_of_writeReg (regAt_of_iomuxOff hw hp) rfl),
        fun _ hv => by rw [muxFields_congr hv]⟩,
      fun hn => (busWrite_idle _ hs).trans (writeOnce_of_unmapped (regAt_iomux_unmapped hw hn))⟩⟩

end Sys2Proof.Machine
end

section
/-! SUPPORT. The encoding (R87 to R103): decoding undoes encoding, and what the decoder calls reserved is what the
well-formedness check refuses. -/

namespace Sys2Proof

/-! ## Decoding a packed word (R89 to R92) -/

section
variable (addr mask : Word)

theorem decode_regRead : decode (.access (packAccess 1 addr 0)) = .instr (.regRead addr) := by
  simp [decode, decodeAccess, packAccess_aop, packAccess_addr, packAccess_mask]

theorem decode_setBits : decode (.access (packAccess 2 addr mask)) = .instr (.setBits addr mask) := by
  simp [decode, decodeAccess, packAccess_aop, packAccess_addr, packAccess_mask]

theorem decode_clearBits : decode (.access (packAccess 3 addr mask)) = .instr (.clearBits addr mask) := by
  simp [decode, decodeAccess, packAccess_aop, packAccess_addr, packAccess_mask]
end

/-- Settles O1: by port; the B-port and the A-port by the lemmas of their formats, the P-port by its fields. -/
theorem decodeEncodeRoundTrip : Obligations.DecodeEncodeRoundTrip := by
  intro i
  cases i with
  | rdOut | rdEnable | rdIn => exact decode_gpio_read _ _
  | wrOut | wrOutSet | wrOutClear | wrEnable | wrEnableSet | wrEnableClear => exact decode_gpio_write _ _
  | rdMux => exact decode_mux_read _ _
  | wrMux => exact decode_mux_write _ _
  | regRead => exact decode_regRead _
  | setBits => exact decode_setBits _ _
  | clearBits => exact decode_clearBits _ _
  | gpioBit | iomuxAddr | init | write | read | enablePullup | enablePulldown | configInterruption | excludeInterruption |
    irqDisable | irqEnable | hret =>
    simp [encode, decode, decodePin, packPin_pop, packPin_pin, packPin_arg, packPin_rsv, packPin_hid]

/-! ## Reserved words (R102, R103) -/

theorem decodeGpioRead_ne_reserved (off : Off) : decodeGpioRead off ≠ .reserved := by
  unfold decodeGpioRead
  split_ifs <;> simp

theorem decodeGpioWrite_ne_reserved (off : Off) (data : Word) : decodeGpioWrite off data ≠ .reserved := by
  unfold decodeGpioWrite
  split_ifs <;> simp

/-- No B-format word is reserved: an offset that no row names is a transaction (R103). -/
theorem decodeBus_ne_reserved (w : BitVec 46) : decodeBus w ≠ .reserved := by
  unfold decodeBus
  split
  · exact decodeGpioRead_ne_reserved _
  · exact decodeGpioWrite_ne_reserved _ _
  · simp
  · simp

/-- By the opcode: an operation for 1 to 3, of which `REG_READ` alone has a must-be-zero field (R92, R103). -/
theorem decodeAccess_eq_reserved_iff (w : BitVec 68) : decodeAccess w = .reserved ↔ accessWellFormed w = false := by
  simp only [decodeAccess, accessWellFormed]
  generalize w.extractLsb' 64 4 = aop
  split
  case h_1 h => obtain rfl : aop = 1 := BitVec.eq_of_toNat_eq h; simp
  case h_2 h => obtain rfl : aop = 2 := BitVec.eq_of_toNat_eq h; simp
  case h_3 h => obtain rfl : aop = 3 := BitVec.eq_of_toNat_eq h; simp
  case h_4 =>
    have hop : (decide (1 ≤ aop.toNat) && decide (aop.toNat ≤ 3)) = false := by grind
    simp [hop]

/-- By the opcode, once `rsv` is zero: the fields that each operation does not use (R91, R103). -/
theorem decodePin_eq_reserved_iff (w : BitVec 32) : decodePin w = .reserved ↔ pinWellFormed w = false := by
  simp only [decodePin, pinWellFormed]
  generalize (w.extractLsb' 28 4).toNat = pop
  by_cases hrsv : w.extractLsb' 16 2 = 0
  · rw [if_neg (not_not.2 hrsv), hrsv]
    split
    -- no opcode of the table
    case h_13 =>
      have hop : (decide (1 ≤ pop) && decide (pop ≤ 0xC)) = false := by grind
      simp [hop]
    -- the context operations, which use no pin either
    case h_10 | h_11 | h_12 => simp; tauto
    all_goals simp
  · rw [if_pos hrsv, beq_false_of_ne hrsv]
    simp

/-- Settles O2: port by port. -/
theorem reservedWordsAreTheIllFormedOnes : Obligations.ReservedWordsAreTheIllFormedOnes
  | .bus w => iff_of_false (decodeBus_ne_reserved w) (by simp [Request.wellFormed])
  | .access w => decodeAccess_eq_reserved_iff w
  | .pin w => decodePin_eq_reserved_iff w

end Sys2Proof

namespace Sys2Proof.Machine

/-- Settles O50: the decoder's verdict on the fetched word is the step's. -/
theorem reservedWordIsRefused : Obligations.ReservedWordIsRefused := by
  intro s r rest hs hi hp hw
  rw [step_fetch hi (.inl ⟨hs, rfl⟩) hp, beginRequest, (reservedWordsAreTheIllFormedOnes r).2 hw]

/-! ## The IO-MUX word (R99) -/

/-- Settles O9: a valid layout keeps the fields apart, and the draw fills the bits that none of them names. -/
theorem muxWordLayout : Obligations.MuxWordLayout := fun _ m u hw =>
  ⟨muxFields_muxWord (layoutOk_of_wellFormed hw) m u, fun _ hb hn => getLsbD_muxWord_unnamed m u hb hn⟩

end Sys2Proof.Machine
end

section
/-! SUPPORT. The RegisterAccess primitives of the A-port (R107 to R112): the sequence of each discipline, its steps, and a
masked update of an IO-MUX register run whole. -/

namespace Sys2Proof.Machine

/-! ## REG_READ (R108) -/

theorem regReadStep_eq {s : State} {a : Word} {x : Word × State} (h : memRead a s = .ok x) :
    regReadStep a s = .ret (some (okValue x.1)) x.2 := by
  simp [regReadStep, h]

theorem regReadStep_fault {s : State} {a : Word} {f : Fault} (h : memRead a s = .error f) :
    regReadStep a s = .fault f := by
  simp [regReadStep, h]

/-- An answered read is the whole of `REG_READ`: its value is the result, and the frame has no request after it (R108). -/
theorem exec_regRead_ok {s : State} {a : Word} {x : Word × State} (hs : s.Idle) (h : memRead a s = .ok x) :
    exec (.regRead a) s = .next (x.2.logEvent (.result s.who (okValue x.1))) := by
  have hbus : BusOnly s x.2 := (memRead_busOnly h).1
  have hidle : x.2.top.cur = none := by rw [hbus.top, hs]
  rw [exec_idle (by simp) hs rfl, regReadStep_eq h, settle, finish_of_idle hidle, hbus.who]

theorem exec_regRead_fault {s : State} {a : Word} {f : Fault} (hs : s.Idle) (h : memRead a s = .error f) :
    exec (.regRead a) s = .fault f := by
  rw [exec_idle (by simp) hs rfl, regReadStep_fault h, settle]

/-- Settles O13: by the discipline of the address, the read answers or faults. -/
theorem regReadReturnsTheWord : Obligations.RegReadReturnsTheWord := by
  refine ⟨decode_regRead, fun s a hs => ⟨fun hd => ?_, fun hd => exec_regRead_fault hs (memRead_fault (by tauto))⟩⟩
  obtain ⟨x, hx⟩ := memRead_ok hd
  obtain ⟨hbus, hout, henable, hmux, hlog⟩ := memRead_busOnly hx
  exact ⟨x.1, x.2, hx, exec_regRead_ok hs hx, hlog, ⟨hout, henable, hbus.inp⟩, hmux,
    ⟨hbus.bind, hbus.pend, hbus.svc, hbus.irqEn⟩, ⟨hbus.cfg, hbus.ext, hbus.sched, hbus.answers⟩, hbus.main,
    hbus.handlers⟩

/-! ## The sequence of each discipline (R109, R110, R112) -/

section
variable {c : Config} {a mask : Word}

theorem setBitsSteps_setOnly (h : disc c a = some .setOnly) :
    setBitsSteps c a mask = lastEnds none [storeStep a mask] := by
  simp [setBitsSteps, h]

theorem setBitsSteps_direct (h : disc c a = some .direct) :
    setBitsSteps c a mask = lastEnds none (rmw a (setMask mask)) := by
  simp [setBitsSteps, h]

theorem setBitsSteps_misuse (h : disc c a = some .clearOnly ∨ disc c a = some .readOnly) :
    setBitsSteps c a mask = [fun _ => .refuse (.misuse .setBits a)] := by
  rcases h with h | h <;> simp [setBitsSteps, h]

theorem setBitsSteps_unmapped (h : disc c a = none) :
    setBitsSteps c a mask = [fun _ => .fault (.badAccess a .write)] := by
  simp [setBitsSteps, h]

theorem clearBitsSteps_clearOnly (h : disc c a = some .clearOnly) :
    clearBitsSteps c a mask = lastEnds none [storeStep a mask] := by
  simp [clearBitsSteps, h]

theorem clearBitsSteps_direct (h : disc c a = some .direct) :
    clearBitsSteps c a mask = lastEnds none (rmw a (clearMask mask)) := by
  simp [clearBitsSteps, h]

theorem clearBitsSteps_misuse (h : disc c a = some .setOnly ∨ disc c a = some .readOnly) :
    clearBitsSteps c a mask = [fun _ => .refuse (.misuse .clearBits a)] := by
  rcases h with h | h <;> simp [clearBitsSteps, h]

theorem clearBitsSteps_unmapped (h : disc c a = none) :
    clearBitsSteps c a mask = [fun _ => .fault (.badAccess a .write)] := by
  simp [clearBitsSteps, h]
end

/-! ## The steps of a sequence, whichever operation's -/

section
variable {i : Instr} {s : State} {a w : Word} {f : Word → Word}

/-- A sequence of one write is made whole in one step (R109, R110). -/
theorem exec_storeOnce (hi : i ≠ .hret) (hsteps : stepsOf s.cfg i = lastEnds none [storeStep a w]) (hs : s.Idle)
    (hd : disc s.cfg a = some .direct ∨ disc s.cfg a = some .setOnly ∨ disc s.cfg a = some .clearOnly) :
    ∃ t, memWrite a w s = .ok t ∧ exec i s = .next t := by
  obtain ⟨t, ht⟩ := memWrite_ok w hd
  have hexec : exec i s = writeOnce a w s := by rw [exec_eq hi, hsteps]; exact busWrite_idle i hs
  exact ⟨t, ht, by rw [hexec, writeOnce, ht]⟩

/-- The first step of a read-modify-write reads into `t` and goes on (R109, R110). -/
theorem exec_rmw_load (hi : i ≠ .hret) (hsteps : stepsOf s.cfg i = lastEnds none (rmw a f)) (hs : s.Idle)
    {x : Word × State} (hx : memRead a s = .ok x) : exec i s = .next ((x.2.setT x.1).goOn i 1) := by
  rw [exec_idle hi hs (by rw [hsteps]; rfl), loadStep_eq hx, settle]

/-- The second step of a read-modify-write writes what is made of `t`, and the request is finished (R109, R110). -/
theorem exec_rmw_store (hi : i ≠ .hret) (hsteps : stepsOf s.cfg i = lastEnds none (rmw a f)) (hs : s.At i 1)
    {t : State} (ht : memWrite a (f s.top.t) s = .ok t) : exec i s = .next t.finish := by
  rw [exec_at hi hs (by rw [hsteps]; rfl), endWith, storeStep_eq ht, settle]

/-- Both steps of a read-modify-write of a direct register answer (R64, R65). -/
theorem exec_rmw_direct (hi : i ≠ .hret) (hd : disc s.cfg a = some .direct)
    (hsteps : stepsOf s.cfg i = lastEnds none (rmw a f)) :
    (s.Idle → ∃ (w : Word) (s' : State), memRead a s = .ok (w, s') ∧ exec i s = .next ((s'.setT w).goOn i 1)) ∧
      (s.At i 1 → ∃ t, memWrite a (f s.top.t) s = .ok t ∧ exec i s = .next t.finish) := by
  obtain ⟨x, hx⟩ := memRead_ok (.inl hd)
  obtain ⟨t, ht⟩ := memWrite_ok (f s.top.t) (.inl hd)
  exact ⟨fun hs => ⟨x.1, x.2, hx, exec_rmw_load hi hsteps hs hx⟩, fun hs => ⟨t, ht, exec_rmw_store hi hsteps hs ht⟩⟩

theorem exec_refuses {r : Refusal} (hi : i ≠ .hret) (hsteps : stepsOf s.cfg i = [fun _ => .refuse r]) (hs : s.Idle) :
    exec i s = .refused r := by
  rw [exec_idle hi hs (by rw [hsteps]; rfl), settle]

theorem exec_faults {x : Fault} (hi : i ≠ .hret) (hsteps : stepsOf s.cfg i = [fun _ => .fault x]) (hs : s.Idle) :
    exec i s = .fault x := by
  rw [exec_idle hi hs (by rw [hsteps]; rfl), settle]
end

/-! ## SET_BITS and CLEAR_BITS (R109, R110) -/

/-- Settles O14: the discipline of the address gives the sequence, and the sequence its steps. -/
theorem setBitsByDiscipline : Obligations.SetBitsByDiscipline := by
  refine ⟨decode_setBits, fun s a mask => ?_⟩
  have hi : Instr.setBits a mask ≠ .hret := by simp
  have direct (hd : disc s.cfg a = some .direct) := exec_rmw_direct hi hd (setBitsSteps_direct hd)
  exact ⟨fun hd hs => exec_storeOnce hi (setBitsSteps_setOnly hd) hs (.inr (.inl hd)), fun hd => (direct hd).1,
    fun hd => (direct hd).2, fun hd => exec_refuses hi (setBitsSteps_misuse hd),
    fun hd => exec_faults hi (setBitsSteps_unmapped hd)⟩

/-- Settles O15: as for `SET_BITS`, with the sequences of `CLEAR_BITS`. -/
theorem clearBitsByDiscipline : Obligations.ClearBitsByDiscipline := by
  refine ⟨decode_clearBits, fun s a mask => ?_⟩
  have hi : Instr.clearBits a mask ≠ .hret := by simp
  have direct (hd : disc s.cfg a = some .direct) := exec_rmw_direct hi hd (clearBitsSteps_direct hd)
  exact ⟨fun hd hs => exec_storeOnce hi (clearBitsSteps_clearOnly hd) hs (.inr (.inr hd)), fun hd => (direct hd).1,
    fun hd => (direct hd).2, fun hd => exec_refuses hi (clearBitsSteps_misuse hd),
    fun hd => exec_faults hi (clearBitsSteps_unmapped hd)⟩

/-! ## A masked update of an IO-MUX register (R111) -/

/-- The fields after a mask is set or cleared depend on the fields before alone. -/
theorem muxFields_masked_congr {l : MuxLayout} (h : LayoutOk l) {w w' : Word} (hw : muxFields l w = muxFields l w')
    (mask : Word) :
    muxFields l (setMask mask w) = muxFields l (setMask mask w') ∧
      muxFields l (clearMask mask w) = muxFields l (clearMask mask w') := by
  constructor
  · rw [muxFields_setMask, muxFields_setMask, hw]
  · rw [muxFields_clearMask h, muxFields_clearMask h, hw]

/-- The word read of `MUX[p]` has the fields of the register's word over any other draw (R75, R99). -/
theorem muxFields_muxRead_eq_muxWord {s : State} (hw : s.cfg.wellFormed = true) (p : Pin) (u : Word) :
    muxFields s.cfg.muxf (muxRead s p) = muxFields s.cfg.muxf (muxWord s.cfg.muxf (s.muxAt p) u) := by
  rw [muxFields_muxRead hw, muxFields_muxWord (layoutOk_of_wellFormed hw)]

/-- A read-modify-write of `MUX[p]` that is a whole operation, run: both steps answer, and `MUX[p]` alone of the registers
is written (R109, R110, R113). -/
theorem exec_rmw_mux {i : Instr} {s : State} {p : Pin} {f : Word → Word} (hi : i ≠ .hret)
    (hw : s.cfg.wellFormed = true) (hp : muxValid s.cfg p = true) (hs : s.Idle)
    (hsteps : stepsOf s.cfg i = lastEnds none (rmw (muxAddr s.cfg p) f)) :
    ∃ s₁ t, exec i s = .next s₁ ∧ exec i s₁ = .next t ∧ t.Idle ∧
      t.muxAt p = muxFields s.cfg.muxf (f (muxRead s p)) ∧ MuxOnly p s t := by
  have hcfg : ((afterMuxLoad s p).goOn i 1).cfg = s.cfg := by simp
  have hload : exec i s = .next ((afterMuxLoad s p).goOn i 1) := exec_rmw_load hi hsteps hs (memRead_mux hw hp)
  have hstore : exec i ((afterMuxLoad s p).goOn i 1) = .next (afterRmw s p i 1 f).finish := by
    refine exec_rmw_store hi (hcfg ▸ hsteps) (at_goOn _ _ _) ?_
    rw [memWrite_mux (hcfg ▸ hw) (hcfg ▸ hp)]
    simp [afterRmw, afterMuxStore]
  exact ⟨_, _, hload, hstore, idle_finish _, afterRmw_muxAt s p i 1 f, ((MuxOnly.refl p s).rmw i 1 f).finish⟩

/-- Settles O16: one read-modify-write each, of a word with the register's fields. -/
theorem maskedUpdateOfAMuxRegister : Obligations.MaskedUpdateOfAMuxRegister := by
  intro s p mask hw hp hs
  have hd : disc s.cfg (muxAddr s.cfg p) = some .direct := disc_muxAddr hw hp
  obtain ⟨hset, hclear⟩ :=
    muxFields_masked_congr (layoutOk_of_wellFormed hw) (muxFields_muxRead_eq_muxWord hw p 0) mask
  constructor
  · obtain ⟨s₁, t, hload, hstore, hidle, hmux, only⟩ :=
      exec_rmw_mux (i := .setBits (muxAddr s.cfg p) mask) (by simp) hw hp hs (setBitsSteps_direct hd)
    exact ⟨s₁, t, hload, hstore, hidle, hmux.trans hset, only.mux, only.gpio, only.registry, only.world, only.context⟩
  · obtain ⟨s₁, t, hload, hstore, hidle, hmux, only⟩ :=
      exec_rmw_mux (i := .clearBits (muxAddr s.cfg p) mask) (by simp) hw hp hs (clearBitsSteps_direct hd)
    exact ⟨s₁, t, hload, hstore, hidle, hmux.trans hclear, only.mux, only.gpio, only.registry, only.world, only.context⟩

end Sys2Proof.Machine
end

section
/-! SUPPORT. The PinRegistry lookups (R114 to R118): a first step that answers at once, and the answer of each lookup for a
pin it knows and for one it does not. -/

namespace Sys2Proof.Machine

/-- An operation whose first step answers from the state it finds is over in that step, and logs the answer alone (R114). -/
theorem exec_answers {i : Instr} {s : State} {f : StepFn} {r : Result} (hi : i ≠ .hret) (hs : s.Idle)
    (hf : (stepsOf s.cfg i)[0]? = some f) (hr : f s = .ret (some r) s) :
    exec i s = .next (s.logEvent (.result s.who r)) := by
  rw [exec_idle hi hs hf, hr, settle, finish_of_idle hs]

/-! ## GPIO_BIT (R116, R118) -/

theorem gpioValid_iff {c : Config} {p : Pin} : gpioValid c p = true ↔ p ∈ c.validPins ∧ p.toNat ≤ 31 := by
  simp [gpioValid]

theorem gpioBitResult_valid {c : Config} {p : Pin} (h : gpioValid c p = true) :
    gpioBitResult c p = okValue (BitVec.ofNat 32 p.toNat) := by
  rw [gpioBitResult, if_pos h, BitVec.ofNat_toNat]

theorem gpioBitResult_invalid {c : Config} {p : Pin} (h : ¬ gpioValid c p = true) :
    gpioBitResult c p = errResult .invalidPin := if_neg h

theorem exec_gpioBit {s : State} (hs : s.Idle) (p : Pin) :
    exec (.gpioBit p) s = .next (s.logEvent (.result s.who (gpioBitResult s.cfg p))) :=
  exec_answers (by simp) hs rfl rfl

/-- Settles O18: the lookup answers at once, by whether the pin has a bit. -/
theorem gpioBitAnswers : Obligations.GpioBitAnswers := by
  intro s p hs
  rw [exec_gpioBit hs, ← gpioValid_iff]
  constructor <;> intro hv
  · rw [gpioBitResult_valid hv, okValue]
  · rw [gpioBitResult_invalid hv, errResult]

/-! ## IOMUX_ADDR (R117) -/

theorem iomuxAddrResult_some {c : Config} {p : Pin} {off : Off} (h : iomuxOff c p = some off) :
    iomuxAddrResult c p = okValue (iomuxAddrOf c off) := by
  simp [iomuxAddrResult, muxValid, muxAddr, h]

theorem iomuxAddrResult_none {c : Config} {p : Pin} (h : iomuxOff c p = none) :
    iomuxAddrResult c p = errResult .invalidPin := by
  simp [iomuxAddrResult, muxValid, h]

theorem exec_iomuxAddr {s : State} (hs : s.Idle) (p : Pin) :
    exec (.iomuxAddr p) s = .next (s.logEvent (.result s.who (iomuxAddrResult s.cfg p))) :=
  exec_answers (by simp) hs rfl rfl

/-- Settles O19: the word is the operation's encoding; the lookup answers at once, by whether the pin has an entry, and the
register at the entry's address is the pin's, which is direct. -/
theorem iomuxAddrAnswers : Obligations.IomuxAddrAnswers := by
  refine ⟨fun p => decodeEncodeRoundTrip (.iomuxAddr p), fun s p hs => ?_⟩
  rw [exec_iomuxAddr hs]
  refine ⟨fun off hoff => ⟨?_, fun hw => disc_of_regAt (regAt_of_iomuxOff hw hoff)⟩, fun hnone => ?_⟩
  · rw [iomuxAddrResult_some hoff, okValue, iomuxAddrOf]
  · rw [iomuxAddrResult_none hnone, errResult]

end Sys2Proof.Machine
end

section
/-! SUPPORT. GpioController (R119 to R126): the step at each label of `INIT`, `WRITE` and `READ`, with the state it
leaves, and each operation run whole. -/

namespace Sys2Proof.Machine

/-! ## Argument values (R93, R94) -/

theorem arg_eq_zero_or_one {arg : BitVec 4} (h : arg.toNat < 2) : arg = 0 ∨ arg = 1 := by
  revert arg
  decide

theorem pinMode_of_lt {arg : BitVec 4} (h : arg.toNat < 2) : ∃ m, pinMode arg = some m := by
  rcases arg_eq_zero_or_one h with rfl | rfl
  · exact ⟨.input, rfl⟩
  · exact ⟨.output, rfl⟩

theorem pinState_of_lt {arg : BitVec 4} (h : arg.toNat < 2) : ∃ st, pinState arg = some st := by
  rcases arg_eq_zero_or_one h with rfl | rfl
  · exact ⟨.low, rfl⟩
  · exact ⟨.high, rfl⟩

theorem pinState_of_le {arg : BitVec 4} (h : 2 ≤ arg.toNat) : pinState arg = none := by
  revert arg
  decide

/-! ## The end of an operation -/

theorem idle_ended (s : State) (r : Result) : (ended s r).Idle := idle_finish s

theorem SameContext.goOn {s t : State} (h : SameContext s t) (i : Instr) (k : Nat) : SameContext s (t.goOn i k) :=
  h.setTop _ rfl

theorem SameContext.ended {s t : State} (h : SameContext s t) (r : Result) : SameContext s (ended t r) := h.setTop _ rfl

theorem MuxOnly.ended {p : Pin} {s t : State} (h : MuxOnly p s t) (r : Result) : MuxOnly p s (ended t r) :=
  h.finish.logEvent _

/-- A step that goes on, at its label (R39). -/
theorem exec_goes {i : Instr} {k : Nat} {s s' : State} {f : StepFn} (hi : i ≠ .hret) (hs : s.At i k)
    (hf : (stepsOf s.cfg i)[k]? = some f) (hg : f s = .go s') : exec i s = .next (s'.goOn i (k + 1)) := by
  rw [exec_at hi hs hf, hg, settle]

/-- A step that returns a result, at its label (R20, R39). -/
theorem exec_ends {i : Instr} {k : Nat} {s s' : State} {f : StepFn} {r : Result} (hi : i ≠ .hret) (hs : s.At i k)
    (hf : (stepsOf s.cfg i)[k]? = some f) (hr : f s = .ret (some r) s') : exec i s = .next (ended s' r) := by
  rw [exec_at hi hs hf, hr, settle, Machine.ended]

theorem endWith_eq {r : Option Result} {f : StepFn} {s s' : State} (h : f s = .go s') : endWith r f s = .ret r s' := by
  rw [endWith, h]

/-- A check that passes leaves the frame at the step after it, and changes nothing else (R119). -/
theorem exec_passes {i : Instr} {s : State} {f : StepFn} (hi : i ≠ .hret) (hs : s.Idle)
    (hf : (stepsOf s.cfg i)[0]? = some f) (hg : f s = .go s) : exec i s = .next (s.goOn i 1) := by
  rw [exec_idle hi hs hf, hg, settle]

/-! ## Runs -/

theorem Runs.one {i : Instr} {s t : State} (h : exec i s = .next t) : Runs i 1 s t := ⟨t, h, rfl⟩

theorem Runs.append {i : Instr} {m n : Nat} {s t u : State} (h : Runs i m s t) (h' : Runs i n t u) :
    Runs i (m + n) s u := by
  induction m generalizing s with
  | zero =>
    obtain rfl : s = t := h
    rwa [Nat.zero_add]
  | succ m ih =>
    obtain ⟨s', hs, hr⟩ := h
    rw [Nat.succ_add]
    exact Runs.step hs (ih hr)

/-! ## A read-modify-write of a pin's IO-MUX register, inside any sequence -/

section
variable {i : Instr} {k : Nat} {s : State} {p : Pin} {f : Word → Word}

/-- Its first step, at label `k` (R75). -/
theorem exec_muxLoad (hi : i ≠ .hret) (hw : s.cfg.wellFormed = true) (hp : muxValid s.cfg p = true) (hs : s.At i k)
    (hf : (stepsOf s.cfg i)[k]? = some (loadStep (muxAddr s.cfg p) State.setT)) :
    exec i s = .next ((afterMuxLoad s p).goOn i (k + 1)) :=
  exec_goes hi hs hf (muxLoad_eq hw hp)

/-- Its second step, at label `k` (R76). -/
theorem exec_muxStore (hi : i ≠ .hret) (hw : s.cfg.wellFormed = true) (hp : muxValid s.cfg p = true) (hs : s.At i k)
    (hf : (stepsOf s.cfg i)[k]? = some fun s' => storeStep (muxAddr s.cfg p) (f s'.top.t) s') :
    exec i s = .next ((afterMuxStore s p (f s.top.t)).goOn i (k + 1)) :=
  exec_goes hi hs hf (muxStore_eq hw hp _)

/-- Its second step, where that is the operation's last and returns a result. -/
theorem exec_muxStore_ends {r : Result} (hi : i ≠ .hret) (hw : s.cfg.wellFormed = true) (hp : muxValid s.cfg p = true)
    (hs : s.At i k)
    (hf : (stepsOf s.cfg i)[k]? = some (endWith (some r) fun s' => storeStep (muxAddr s.cfg p) (f s'.top.t) s')) :
    exec i s = .next (ended (afterMuxStore s p (f s.top.t)) r) :=
  exec_ends hi hs hf (endWith_eq (muxStore_eq hw hp _))

/-- Both steps, from label `k` (R109, R110). -/
theorem runs_rmw {c : Config} (hi : i ≠ .hret) (hc : s.cfg = c) (hw : c.wellFormed = true) (hp : muxValid c p = true)
    (hs : s.At i k) (hload : (stepsOf c i)[k]? = some (loadStep (muxAddr c p) State.setT))
    (hstore : (stepsOf c i)[k + 1]? = some fun s' => storeStep (muxAddr c p) (f s'.top.t) s') :
    Runs i 2 s ((afterRmw s p i (k + 1) f).goOn i (k + 2)) := by
  subst hc
  have hc : ((afterMuxLoad s p).goOn i (k + 1)).cfg = s.cfg := by simp
  have hwrite := exec_muxStore hi (hc ▸ hw) (hc ▸ hp) (at_goOn _ i (k + 1)) (by rw [hc]; exact hstore)
  exact Runs.step (exec_muxLoad hi hw hp hs hload) (Runs.one (by simpa [afterRmw] using hwrite))

/-- Both steps, where the second is the operation's last and returns a result. -/
theorem runs_rmw_ends {c : Config} {r : Result} (hi : i ≠ .hret) (hc : s.cfg = c) (hw : c.wellFormed = true)
    (hp : muxValid c p = true) (hs : s.At i k)
    (hload : (stepsOf c i)[k]? = some (loadStep (muxAddr c p) State.setT))
    (hstore : (stepsOf c i)[k + 1]? = some (endWith (some r) fun s' => storeStep (muxAddr c p) (f s'.top.t) s')) :
    Runs i 2 s (ended (afterRmw s p i (k + 1) f) r) := by
  subst hc
  have hc : ((afterMuxLoad s p).goOn i (k + 1)).cfg = s.cfg := by simp
  have hwrite := exec_muxStore_ends hi (hc ▸ hw) (hc ▸ hp) (at_goOn _ i (k + 1)) (by rw [hc]; exact hstore)
  exact Runs.step (exec_muxLoad hi hw hp hs hload) (Runs.one (by simpa [afterRmw] using hwrite))

/-- The function-select field after the GPIO bits are set, whatever was drawn (R120 steps `i2` and `i3`). -/
theorem muxAt_afterRmw_gMask {c : Config} (hc : s.cfg = c) (hw : c.wellFormed = true) :
    (afterRmw s p i k (setMask (gMask c))).muxAt p = { s.muxAt p with func := (s.muxAt p).func ||| c.funGpio } := by
  subst hc
  rw [afterRmw_muxAt, muxFields_set_gMask (layoutOk_of_wellFormed hw), muxFields_muxRead hw]

/-- The function-select field after the other bits are cleared (R120 steps `i4` and `i5`). -/
theorem muxAt_afterRmw_ngMask {c : Config} (hc : s.cfg = c) (hw : c.wellFormed = true) :
    (afterRmw s p i k (clearMask (ngMask c))).muxAt p = { s.muxAt p with func := (s.muxAt p).func &&& c.funGpio } := by
  subst hc
  rw [afterRmw_muxAt, muxFields_clear_ngMask (layoutOk_of_wellFormed hw), muxFields_muxRead hw]
end

/-! ## INIT (R120) -/

/-- The state after step `i1`: the pin's bit of `ENABLE` as the mode asks, by one write of its mask to the set or to the
clear port (R120). -/
def afterEnable (s : State) (p : Pin) (arg : BitVec 4) : State :=
  { s with enable := putBit s.enable p.toNat (decide (arg = 1)) }.logEvent
    (.txn s.who .write (gpioAddr s.cfg (if arg = 1 then 0x24 else 0x28)) (pinMask p))

theorem initCheck_go {s : State} {p : Pin} {arg : BitVec 4} (hv : gpioValid s.cfg p = true)
    (hp : muxValid s.cfg p = true) (ha : arg.toNat < 2) : initCheck p arg s = .go s := by
  obtain ⟨m, hm⟩ := pinMode_of_lt ha
  simp [initCheck, hv, hp, hm]

theorem enableStep_eq {s : State} {p : Pin} {arg : BitVec 4} (ha : arg.toNat < 2) :
    enableStep s.cfg p (pinMode arg) s = .go (afterEnable s p arg) := by
  rcases arg_eq_zero_or_one ha with rfl | rfl
  · exact storeStep_eq (memWrite_of_writeReg (regAt_enableClear s.cfg) rfl)
  · exact storeStep_eq (memWrite_of_writeReg (regAt_enableSet s.cfg) rfl)

theorem exec_init_enable {s : State} {p : Pin} {arg : BitVec 4} (ha : arg.toNat < 2) (hs : s.At (.init p arg) 1) :
    exec (.init p arg) s = .next ((afterEnable s p arg).goOn (.init p arg) 2) :=
  exec_goes (by simp) hs rfl (enableStep_eq ha)

/-- Settles O22: the check, the write of the pin's mask, and the two read-modify-writes of the pin's register. -/
theorem initStepByStep : Obligations.InitStepByStep := by
  rintro s p arg i rfl hw hv hp ha
  have hi : Instr.init p arg ≠ .hret := by simp
  refine ⟨fun hs => exec_passes hi hs rfl (initCheck_go hv hp ha), ?_, ?_, fun hs => exec_muxLoad hi hw hp hs rfl,
    fun hs => exec_muxStore (f := setMask (gMask s.cfg)) hi hw hp hs rfl, fun hs => exec_muxLoad hi hw hp hs rfl,
    fun hs => exec_muxStore_ends (f := clearMask (ngMask s.cfg)) hi hw hp hs rfl⟩
  · rintro hs rfl
    exact exec_init_enable ha hs
  · rintro hs rfl
    exact exec_init_enable ha hs

/-! ### INIT, run whole (R121) -/

/-- The state after `i3`, from the state before `i0`. -/
def afterInitSet (s : State) (p : Pin) (arg : BitVec 4) : State :=
  afterRmw ((afterEnable (s.goOn (.init p arg) 1) p arg).goOn (.init p arg) 2) p (.init p arg) 3 (setMask (gMask s.cfg))

/-- The state after `i5`, before the result is returned. -/
def afterInit (s : State) (p : Pin) (arg : BitVec 4) : State :=
  afterRmw ((afterInitSet s p arg).goOn (.init p arg) 4) p (.init p arg) 5 (clearMask (ngMask s.cfg))

@[simp] theorem afterEnable_cfg (s : State) (p : Pin) (arg : BitVec 4) : (afterEnable s p arg).cfg = s.cfg := rfl

@[simp] theorem afterInitSet_cfg (s : State) (p : Pin) (arg : BitVec 4) : (afterInitSet s p arg).cfg = s.cfg := by
  simp [afterInitSet]

theorem runs_init {s : State} {p : Pin} {arg : BitVec 4} (hw : s.cfg.wellFormed = true) (hp : muxValid s.cfg p = true)
    (ha : arg.toNat < 2) : Runs (.init p arg) 5 (s.goOn (.init p arg) 1) (ended (afterInit s p arg) okResult) := by
  have hi : Instr.init p arg ≠ .hret := by simp
  have hset : Runs (.init p arg) 2 ((afterEnable (s.goOn (.init p arg) 1) p arg).goOn (.init p arg) 2)
      ((afterInitSet s p arg).goOn (.init p arg) 4) :=
    runs_rmw (c := s.cfg) hi (by simp) hw hp (at_goOn _ _ _) rfl rfl
  have hclear : Runs (.init p arg) 2 ((afterInitSet s p arg).goOn (.init p arg) 4)
      (ended (afterInit s p arg) okResult) :=
    runs_rmw_ends (c := s.cfg) hi (by simp) hw hp (at_goOn _ _ _) rfl rfl
  exact Runs.step (exec_init_enable ha (at_goOn _ _ _)) (hset.append hclear)

/-- Besides the pin's bit of `ENABLE`, only the pin's IO-MUX register is written (R121). -/
theorem muxOnly_afterInit (s : State) (p : Pin) (arg : BitVec 4) :
    MuxOnly p { s with enable := putBit s.enable p.toNat (decide (arg = 1)) } (afterInit s p arg) :=
  have henable : MuxOnly p { s with enable := putBit s.enable p.toNat (decide (arg = 1)) }
      (afterEnable (s.goOn (.init p arg) 1) p arg) := ((MuxOnly.refl p _).goOn (.init p arg) 1).logEvent _
  (((henable.goOn _ 2).rmw _ 3 _).goOn _ 4).rmw _ 5 _

theorem muxAt_goOn (s : State) (i : Instr) (k : Nat) (q : Pin) : (s.goOn i k).muxAt q = s.muxAt q := muxAt_congr rfl q

theorem muxAt_ended (s : State) (r : Result) (q : Pin) : (ended s r).muxAt q = s.muxAt q := muxAt_congr rfl q

/-- Its function-select field selects GPIO, and its other fields are as they were (R121). -/
theorem muxAt_afterInit {s : State} (hw : s.cfg.wellFormed = true) (p : Pin) (arg : BitVec 4) :
    (afterInit s p arg).muxAt p = { s.muxAt p with func := s.cfg.funGpio } := by
  have henable : (afterEnable (s.goOn (.init p arg) 1) p arg).muxAt p = s.muxAt p := muxAt_congr rfl p
  have hset : (afterInitSet s p arg).muxAt p = { s.muxAt p with func := (s.muxAt p).func ||| s.cfg.funGpio } := by
    rw [afterInitSet, muxAt_afterRmw_gMask (by simp) hw, muxAt_goOn, henable]
  rw [afterInit, muxAt_afterRmw_ngMask (by simp) hw, muxAt_goOn, hset, or_and_funGpio]

/-- The transactions of `INIT` (R106). -/
theorem log_afterInit (s : State) (p : Pin) (arg : BitVec 4) :
    ∃ es, (afterInit s p arg).log = s.log ++ es ∧
      es.map txnOf = some (.write, s.cfg.bG + if arg = 1 then 0x24 else 0x28) :: twoRmws (muxAddr s.cfg p) := by
  simp only [afterInit, afterInitSet, afterEnable, afterRmw_log, afterRmw_cfg, goOn_log, goOn_cfg, logEvent_log,
    logEvent_cfg, List.append_assoc]
  exact ⟨_, rfl, rfl⟩

/-- Settles O23: the frame is `MuxOnly`'s, over the state with the pin's bit of `ENABLE` written. -/
theorem initPostcondition : Obligations.InitPostcondition := by
  intro s p arg hw hv hp ha hs
  have only := (muxOnly_afterInit s p arg).ended okResult
  obtain ⟨hout, henable, hinp⟩ := only.gpio
  obtain ⟨es, hlog, hes⟩ := log_afterInit s p arg
  have hwho : (afterInit s p arg).who = s.who := (muxOnly_afterInit s p arg).context.1
  have hmux : (ended (afterInit s p arg) okResult).muxAt p = { s.muxAt p with func := s.cfg.funGpio } := by
    rw [muxAt_ended, muxAt_afterInit hw]
  refine ⟨_, ended (afterInit s p arg) okResult, exec_passes (by simp) hs rfl (initCheck_go hv hp ha),
    runs_init hw hp ha, idle_ended _ _, fun b hb => ?_, hmux, only.mux, hout, hinp, only.registry, only.world,
    only.context, es, ?_, hes⟩
  · rw [henable, getLsbD_putBit]
    simp [hb]
  · rw [ended, logEvent_log, finish_log, hlog, hwho]
    rfl

/-! ## WRITE (R122) -/

/-- The state after the transaction of `w1`: the pin's bit of `OUT` at the level, by one write of its mask to the set or
to the clear port (R122). -/
def afterOut (s : State) (p : Pin) (arg : BitVec 4) : State :=
  { s with out := putBit s.out p.toNat (decide (arg = 1)) }.logEvent
    (.txn s.who .write (gpioAddr s.cfg (if arg = 1 then 0x08 else 0x0C)) (pinMask p))

section
variable {s : State} {p : Pin} {arg : BitVec 4}

theorem writeCheck_invalidPin (hv : gpioValid s.cfg p = false) :
    writeCheck p arg s = .ret (some (errResult .invalidPin)) s := by
  simp [writeCheck, hv]

theorem writeCheck_invalidMode (hv : gpioValid s.cfg p = true) (ha : 2 ≤ arg.toNat) :
    writeCheck p arg s = .ret (some (errResult .invalidMode)) s := by
  simp [writeCheck, hv, pinState_of_le ha]

theorem writeCheck_go (hv : gpioValid s.cfg p = true) (ha : arg.toNat < 2) : writeCheck p arg s = .go s := by
  obtain ⟨st, hst⟩ := pinState_of_lt ha
  simp [writeCheck, hv, hst]

theorem exec_write_out (ha : arg.toNat < 2) (hs : s.At (.write p arg) 1) :
    exec (.write p arg) s = .next (ended (afterOut s p arg) okResult) := by
  refine exec_ends (by simp) hs rfl (endWith_eq ?_)
  rcases arg_eq_zero_or_one ha with rfl | rfl
  · exact storeStep_eq (memWrite_of_writeReg (regAt_outClear s.cfg) rfl)
  · exact storeStep_eq (memWrite_of_writeReg (regAt_outSet s.cfg) rfl)

theorem getLsbD_out_afterOut (s : State) (p : Pin) (arg : BitVec 4) {b : Nat} (hb : b < 32) :
    (afterOut s p arg).out.getLsbD b = if b = p.toNat then decide (arg = 1) else s.out.getLsbD b := by
  rw [afterOut, logEvent_out, getLsbD_putBit]
  simp [hb]
end

/-- The state after `w1` and the return, from the state before `w0` (R122). -/
def afterWrite (s : State) (p : Pin) (arg : BitVec 4) : State :=
  ended (afterOut (s.goOn (.write p arg) 1) p arg) okResult

theorem runs_write {s : State} {p : Pin} {arg : BitVec 4} (hv : gpioValid s.cfg p = true) (ha : arg.toNat < 2)
    (hs : s.Idle) : Runs (.write p arg) 2 s (afterWrite s p arg) :=
  Runs.step (exec_passes (by simp) hs rfl (writeCheck_go hv ha)) (Runs.one (exec_write_out ha (at_goOn _ _ _)))

theorem sameContext_afterWrite (s : State) (p : Pin) (arg : BitVec 4) : SameContext s (afterWrite s p arg) :=
  (((SameContext.refl s).goOn (.write p arg) 1).trans (SameContext.of_eq rfl rfl)).ended okResult

/-- Settles O24: the three answers of the check, and the one write. -/
theorem writeSetsTheLevel : Obligations.WriteSetsTheLevel := by
  refine ⟨fun p arg => decodeEncodeRoundTrip (.write p arg), fun s p arg => ?_⟩
  have hi : Instr.write p arg ≠ .hret := by simp
  refine ⟨fun hs hv => exec_answers hi hs rfl (writeCheck_invalidPin hv),
    fun hs hv ha => exec_answers hi hs rfl (writeCheck_invalidMode hv ha),
    fun hs hv ha => exec_passes hi hs rfl (writeCheck_go hv ha), ?_, ?_⟩
  · rintro hs rfl
    exact exec_write_out (by decide) hs
  · rintro hs rfl
    exact exec_write_out (by decide) hs

/-- Settles O25: the write is of one bit of `OUT`, and the end of the operation changes the running frame and
`LOG` alone. -/
theorem writeTouchesOnlyItsBit : Obligations.WriteTouchesOnlyItsBit := fun s p arg _ ha hs =>
  ⟨_, exec_write_out ha hs, fun _ hb => getLsbD_out_afterOut s p arg hb, rfl, rfl, rfl, ⟨rfl, rfl, rfl, rfl⟩,
    ⟨rfl, rfl, rfl, rfl⟩, (SameContext.of_eq (t := afterOut s p arg) rfl rfl).ended okResult⟩

/-! ## READ (R124) -/

/-- The word `r2` reads: `OUT` for an output pin, `IN` for an input pin (R124, R125). -/
def levelWord (s : State) (output : Bool) : Word := if output then s.out else s.inp

/-- The state after `r1` (R124). -/
def afterReadEnable (s : State) : State :=
  (s.logEvent (.txn s.who .read (gpioAddr s.cfg 0x20) s.enable)).setE s.enable

/-- The state after `r2` and the return (R124). -/
def afterReadLevel (s : State) (p : Pin) (output : Bool) : State :=
  ended ((s.logEvent (.txn s.who .read (gpioAddr s.cfg (if output then 0x04 else 0x3C)) (levelWord s output))).setV
    (levelWord s output)) (okValue (levelCode (levelWord s output) p))

section
variable {s : State} {p : Pin}

theorem readCheck_go (hv : gpioValid s.cfg p = true) : readCheck p s = .go s := by simp [readCheck, hv]

theorem exec_read_enable (hs : s.At (.read p) 1) :
    exec (.read p) s = .next ((afterReadEnable s).goOn (.read p) 2) :=
  exec_goes (by simp) hs rfl (loadStep_eq (memRead_of_readReg (regAt_enable s.cfg) rfl))

theorem memRead_level (s : State) (output : Bool) :
    memRead (gpioAddr s.cfg (if output then 0x04 else 0x3C)) s = .ok (levelWord s output,
      s.logEvent (.txn s.who .read (gpioAddr s.cfg (if output then 0x04 else 0x3C)) (levelWord s output))) := by
  cases output
  · exact memRead_of_readReg (regAt_inp s.cfg) rfl
  · exact memRead_of_readReg (regAt_out s.cfg) rfl

theorem exec_read_level (hs : s.At (.read p) 2) :
    exec (.read p) s = .next (afterReadLevel s p (s.top.e.getLsbD p.toNat)) :=
  exec_ends (by simp) hs rfl (by rw [readLevel, memRead_level])
end

/-- Settles O26: each read is of the register at its address. -/
theorem readStepByStep : Obligations.ReadStepByStep := fun _ _ hv =>
  ⟨fun hs => exec_passes (by simp) hs rfl (readCheck_go hv), fun hs => exec_read_enable hs,
    fun hs he => (exec_read_level hs).trans (by rw [he]; rfl),
    fun hs he => (exec_read_level hs).trans (by rw [he]; rfl)⟩

theorem MuxOnly.setE {p : Pin} {s t : State} (h : MuxOnly p s t) (w : Word) : MuxOnly p s (t.setE w) := h.setTop _ rfl

theorem MuxOnly.setV {p : Pin} {s t : State} (h : MuxOnly p s t) (w : Word) : MuxOnly p s (t.setV w) := h.setTop _ rfl

/-- The state after `r2` and the return, from the state before `r0` (R124). -/
def afterRead (s : State) (p : Pin) : State :=
  afterReadLevel ((afterReadEnable (s.goOn (.read p) 1)).goOn (.read p) 2) p (s.enable.getLsbD p.toNat)

/-- The two reads and the return, which choose the register by the pin's bit of `ENABLE` (R124, R125). -/
theorem runs_read (s : State) (p : Pin) : Runs (.read p) 2 (s.goOn (.read p) 1) (afterRead s p) := by
  refine Runs.step (exec_read_enable (at_goOn _ _ _)) (Runs.one ?_)
  rw [exec_read_level (at_goOn _ _ _)]
  simp [afterRead, afterReadEnable]

/-- `READ` changes the running frame and `LOG` alone (R124). -/
theorem muxOnly_afterRead (s : State) (p : Pin) : MuxOnly p s (afterRead s p) :=
  ((((((MuxOnly.refl p s).goOn (.read p) 1).logEvent _).setE _).goOn (.read p) 2).logEvent _).setV _ |>.ended _

theorem afterRead_mux (s : State) (p : Pin) : (afterRead s p).mux = s.mux := by
  simp [afterRead, afterReadLevel, afterReadEnable, ended]

/-- The events of `READ` (R106, R124). -/
theorem log_afterRead (s : State) (p : Pin) {output : Bool} (h : s.enable.getLsbD p.toNat = output) :
    (afterRead s p).log = s.log ++ [.txn s.who .read (gpioAddr s.cfg 0x20) s.enable,
      .txn s.who .read (gpioAddr s.cfg (if output then 0x04 else 0x3C)) (levelWord s output),
      .result s.who (okValue (levelCode (levelWord s output) p))] := by
  simp [afterRead, afterReadLevel, afterReadEnable, ended, levelWord, h]

/-- Settles O27: by the pin's bit of `ENABLE`, which chooses the second read. -/
theorem readReturnsDrivenOrSensedLevel : Obligations.ReadReturnsDrivenOrSensedLevel := by
  intro s p hv hs
  have only := muxOnly_afterRead s p
  refine ⟨_, afterRead s p, exec_passes (by simp) hs rfl (readCheck_go hv), runs_read s p, idle_ended _ _, only.gpio,
    afterRead_mux s p, only.registry, only.world, only.context, ?_⟩
  cases h : s.enable.getLsbD p.toNat
  · exact log_afterRead s p h
  · exact log_afterRead s p h

/-! ## INIT, WRITE and READ (R126) -/

/-- The level written, as the result of a read of the bit says it (R94). -/
theorem levelCode_afterWrite (s : State) {p : Pin} {arg : BitVec 4} (hb : p.toNat < 32) (ha : arg.toNat < 2) :
    levelCode (afterWrite s p arg).out p = arg.setWidth 32 := by
  have hout : (afterWrite s p arg).out.getLsbD p.toNat = decide (arg = 1) :=
    (getLsbD_out_afterOut _ p arg hb).trans (if_pos rfl)
  rw [levelCode, hout]
  rcases arg_eq_zero_or_one ha with rfl | rfl <;> rfl

/-- Settles O28: `INIT` makes the pin an output, `WRITE` sets its bit of `OUT` and leaves `ENABLE`, and `READ`
returns it. -/
theorem outputRoundTrip : Obligations.OutputRoundTrip := by
  intro s p st hw hv hp hst hs
  have hb : p.toNat < 32 := toNat_lt_of_gpioValid hv
  obtain ⟨s₀, s₁, hcheck, hinit, hidle, henable, -, -, -, -, -, ⟨hcfg, -⟩, ⟨hwho, -⟩, -⟩ :=
    initPostcondition s p 1 hw hv hp (by decide) hs
  have hv₁ : gpioValid s₁.cfg p = true := hcfg ▸ hv
  have houtput : (afterWrite s₁ p st).enable.getLsbD p.toNat = true := (henable _ hb).trans (if_pos rfl)
  have hwho₂ : (afterWrite s₁ p st).who = s.who := (sameContext_afterWrite s₁ p st).1.trans hwho
  have hread := exec_passes (i := .read p) (by simp) (idle_ended _ _ : (afterWrite s₁ p st).Idle) rfl (readCheck_go hv₁)
  refine ⟨s₁, afterWrite s₁ p st, afterRead (afterWrite s₁ p st) p, Runs.step hcheck hinit, runs_write hv₁ hst hidle,
    Runs.step hread (runs_read _ p), ?_⟩
  rw [log_afterRead _ p houtput, hwho₂, List.getLast?_append]
  simp [levelWord, levelCode_afterWrite s₁ hb hst, okValue]

end Sys2Proof.Machine
end

section
/-! SUPPORT. IoMuxController (R127 to R133): the step at each label of the two pull operations, and either run whole. One
argument serves both, over the mask it sets and the mask it clears. -/

namespace Sys2Proof.Machine

/-! ## The end of an operation with no result -/

/-- A step that ends the request and returns nothing, at its label (R20, R39). -/
theorem exec_finishes {i : Instr} {k : Nat} {s s' : State} {f : StepFn} (hi : i ≠ .hret) (hs : s.At i k)
    (hf : (stepsOf s.cfg i)[k]? = some f) (hr : f s = .ret none s') : exec i s = .next s'.finish := by
  rw [exec_at hi hs hf, hr, settle]

/-! ## A read-modify-write whose write ends the operation with no result -/

section
variable {i : Instr} {k : Nat} {s : State} {p : Pin} {f : Word → Word}

/-- Its second step (R76). -/
theorem exec_muxStore_finishes (hi : i ≠ .hret) (hw : s.cfg.wellFormed = true) (hp : muxValid s.cfg p = true)
    (hs : s.At i k)
    (hf : (stepsOf s.cfg i)[k]? = some (endWith none fun s' => storeStep (muxAddr s.cfg p) (f s'.top.t) s')) :
    exec i s = .next (afterMuxStore s p (f s.top.t)).finish :=
  exec_finishes hi hs hf (endWith_eq (muxStore_eq hw hp _))

/-- Both steps, from label `k` (R109, R110). -/
theorem runs_rmw_finishes {c : Config} (hi : i ≠ .hret) (hc : s.cfg = c) (hw : c.wellFormed = true)
    (hp : muxValid c p = true) (hs : s.At i k)
    (hload : (stepsOf c i)[k]? = some (loadStep (muxAddr c p) State.setT))
    (hstore : (stepsOf c i)[k + 1]? = some (endWith none fun s' => storeStep (muxAddr c p) (f s'.top.t) s')) :
    Runs i 2 s (afterRmw s p i (k + 1) f).finish := by
  subst hc
  have hc : ((afterMuxLoad s p).goOn i (k + 1)).cfg = s.cfg := by simp
  have hwrite := exec_muxStore_finishes hi (hc ▸ hw) (hc ▸ hp) (at_goOn _ i (k + 1)) (by rw [hc]; exact hstore)
  exact Runs.step (exec_muxLoad hi hw hp hs hload) (Runs.one (by simpa [afterRmw] using hwrite))

/-- Where `f` acts on the fields of every word as `g`, the register after the read-modify-write is `g` of the register
before, whatever was drawn (R75, R76). -/
theorem muxAt_afterRmw {c : Config} {g : MuxReg → MuxReg} (hc : s.cfg = c) (hw : c.wellFormed = true)
    (hf : ∀ w, muxFields c.muxf (f w) = g (muxFields c.muxf w)) : (afterRmw s p i k f).muxAt p = g (s.muxAt p) := by
  subst hc
  rw [afterRmw_muxAt, hf, muxFields_muxRead hw]
end

/-! ## The pull operations, step by step (R128, R129) -/

/-- `i` is the pull operation of `p` that sets `target` and clears `opposing` (R127). -/
structure IsPull (c : Config) (i : Instr) (p : Pin) (target opposing : Word) : Prop where
  ne_hret : i ≠ .hret
  steps : stepsOf c i = pullCheck p :: lastEnds none (pullSteps c p target opposing)

theorem isPull_enablePullup (c : Config) (p : Pin) : IsPull c (.enablePullup p) p (puMask c) (pdMask c) :=
  ⟨by simp, rfl⟩

theorem isPull_enablePulldown (c : Config) (p : Pin) : IsPull c (.enablePulldown p) p (pdMask c) (puMask c) :=
  ⟨by simp, rfl⟩

section
variable {c : Config} {i : Instr} {p : Pin} {target opposing : Word} (h : IsPull c i p target opposing)
include h

/-- Steps `u0` and `d0`. -/
theorem IsPull.check : (stepsOf c i)[0]? = some (pullCheck p) := by rw [h.steps]; rfl

/-- Steps `u1` and `d1`. -/
theorem IsPull.load : (stepsOf c i)[1]? = some (loadStep (muxAddr c p) State.setT) := by rw [h.steps]; rfl

/-- Steps `u2` and `d2`. -/
theorem IsPull.set :
    (stepsOf c i)[2]? = some fun s => storeStep (muxAddr c p) (setMask target s.top.t) s := by rw [h.steps]; rfl

/-- Steps `u3` and `d3`. -/
theorem IsPull.reload : (stepsOf c i)[3]? = some (loadStep (muxAddr c p) State.setT) := by rw [h.steps]; rfl

/-- Steps `u4` and `d4`. -/
theorem IsPull.clear :
    (stepsOf c i)[4]? = some (endWith none fun s => storeStep (muxAddr c p) (clearMask opposing s.top.t) s) := by
  rw [h.steps]; rfl
end

theorem pullCheck_go {s : State} {p : Pin} (hp : muxValid s.cfg p = true) : pullCheck p s = .go s := by
  simp [pullCheck, hp]

theorem pullCheck_fault {s : State} {p : Pin} (hp : muxValid s.cfg p = false) :
    pullCheck p s = .fault (.uncheckedPin p) := by
  simp [pullCheck, hp]

section
variable {s : State} {i : Instr} {p : Pin} {target opposing : Word}

/-- A pin with no IO-MUX register stops the operation before any transaction (R131). -/
theorem IsPull.exec_fault (h : IsPull s.cfg i p target opposing) (hs : s.Idle) (hp : muxValid s.cfg p = false) :
    exec i s = .fault (.uncheckedPin p) := by
  rw [exec_idle h.ne_hret hs h.check, pullCheck_fault hp, settle]

theorem IsPull.exec_check (h : IsPull s.cfg i p target opposing) (hs : s.Idle) (hp : muxValid s.cfg p = true) :
    exec i s = .next (s.goOn i 1) :=
  exec_passes h.ne_hret hs h.check (pullCheck_go hp)
end

/-- Settles O29: both operations have the one sequence, over their two masks. -/
theorem pullStepByStep : Obligations.PullStepByStep := by
  refine ⟨fun p => ⟨decodeEncodeRoundTrip (.enablePullup p), decodeEncodeRoundTrip (.enablePulldown p)⟩,
    fun s p hw x hx => ?_⟩
  have h : IsPull s.cfg x.1 p x.2.1 x.2.2 := by
    rcases List.mem_pair.1 hx with rfl | rfl
    · exact isPull_enablePullup s.cfg p
    · exact isPull_enablePulldown s.cfg p
  have hi := h.ne_hret
  exact ⟨h.exec_fault, fun hp => ⟨fun hs => h.exec_check hs hp, fun hs => exec_muxLoad hi hw hp hs h.load,
    fun hs => exec_muxStore (f := setMask x.2.1) hi hw hp hs h.set, fun hs => exec_muxLoad hi hw hp hs h.reload,
    fun hs => exec_muxStore_finishes (f := clearMask x.2.2) hi hw hp hs h.clear⟩⟩

/-! ## A pull operation, run whole (R127, R133) -/

/-- The state after the target bit is set, from the state before the check. -/
def afterPullSet (s : State) (i : Instr) (p : Pin) (target : Word) : State :=
  afterRmw (s.goOn i 1) p i 2 (setMask target)

/-- The state after the opposing bit is cleared, before the request is over. -/
def afterPull (s : State) (i : Instr) (p : Pin) (target opposing : Word) : State :=
  afterRmw ((afterPullSet s i p target).goOn i 3) p i 4 (clearMask opposing)

@[simp] theorem afterPullSet_cfg (s : State) (i : Instr) (p : Pin) (target : Word) :
    (afterPullSet s i p target).cfg = s.cfg := by
  simp [afterPullSet]

/-- The four steps after the check. -/
theorem IsPull.runs {s : State} {i : Instr} {p : Pin} {target opposing : Word} (h : IsPull s.cfg i p target opposing)
    (hw : s.cfg.wellFormed = true) (hp : muxValid s.cfg p = true) :
    Runs i 4 (s.goOn i 1) (afterPull s i p target opposing).finish :=
  have hset : Runs i 2 (s.goOn i 1) ((afterPullSet s i p target).goOn i 3) :=
    runs_rmw h.ne_hret (by simp) hw hp (at_goOn _ _ _) h.load h.set
  have hclear : Runs i 2 ((afterPullSet s i p target).goOn i 3) (afterPull s i p target opposing).finish :=
    runs_rmw_finishes h.ne_hret (by simp) hw hp (at_goOn _ _ _) h.reload h.clear
  hset.append hclear

/-- Only the pin's IO-MUX register is written (R127). -/
theorem muxOnly_afterPull (s : State) (i : Instr) (p : Pin) (target opposing : Word) :
    MuxOnly p s (afterPull s i p target opposing) :=
  ((((MuxOnly.refl p s).goOn i 1).rmw i 2 _).goOn i 3).rmw i 4 _

theorem muxAt_finish (s : State) (q : Pin) : s.finish.muxAt q = s.muxAt q := muxAt_congr rfl q

/-- The register is what the two masks make of its fields, one after the other. -/
theorem muxAt_afterPull {s : State} {target opposing : Word} {set clear : MuxReg → MuxReg}
    (hw : s.cfg.wellFormed = true)
    (hset : ∀ w, muxFields s.cfg.muxf (setMask target w) = set (muxFields s.cfg.muxf w))
    (hclear : ∀ w, muxFields s.cfg.muxf (clearMask opposing w) = clear (muxFields s.cfg.muxf w))
    (i : Instr) (p : Pin) : (afterPull s i p target opposing).muxAt p = clear (set (s.muxAt p)) := by
  rw [afterPull, muxAt_afterRmw (by simp) hw hclear, muxAt_goOn, afterPullSet, muxAt_afterRmw (by simp) hw hset,
    muxAt_goOn]

/-- The transactions of a pull operation (R106). -/
theorem log_afterPull (s : State) (i : Instr) (p : Pin) (target opposing : Word) :
    ∃ es, (afterPull s i p target opposing).log = s.log ++ es ∧ es.map txnOf = twoRmws (muxAddr s.cfg p) := by
  simp only [afterPull, afterPullSet, afterRmw_log, afterRmw_cfg, goOn_log, goOn_cfg, List.append_assoc]
  exact ⟨_, rfl, rfl⟩

/-- A pull operation, run without preemption: the register is what its two masks make of it, and of the rest of the state
only the running frame, `LOG` and the draws change. -/
theorem IsPull.postcondition {s : State} {i : Instr} {p : Pin} {target opposing : Word} {set clear : MuxReg → MuxReg}
    (h : IsPull s.cfg i p target opposing) (hw : s.cfg.wellFormed = true) (hp : muxValid s.cfg p = true) (hs : s.Idle)
    (hset : ∀ w, muxFields s.cfg.muxf (setMask target w) = set (muxFields s.cfg.muxf w))
    (hclear : ∀ w, muxFields s.cfg.muxf (clearMask opposing w) = clear (muxFields s.cfg.muxf w)) :
    ∃ s₁ t, exec i s = .next s₁ ∧ Runs i 4 s₁ t ∧ t.Idle ∧ t.muxAt p = clear (set (s.muxAt p)) ∧ SameMuxBut p s t ∧
      SameGpio s t ∧ SameRegistry s t ∧ SameWorld s t ∧ SameContext s t ∧
      ∃ es, t.log = s.log ++ es ∧ es.map txnOf = twoRmws (muxAddr s.cfg p) := by
  have only := (muxOnly_afterPull s i p target opposing).finish
  have hmux : (afterPull s i p target opposing).finish.muxAt p = clear (set (s.muxAt p)) := by
    rw [muxAt_finish, muxAt_afterPull hw hset hclear]
  exact ⟨_, _, h.exec_check hs hp, h.runs hw hp, idle_finish _, hmux, only.mux, only.gpio, only.registry, only.world,
    only.context, log_afterPull s i p target opposing⟩

/-- Settles O30: each operation sets the one pull's field and clears the other's, and its masks touch no other field. -/
theorem pullsAreExclusiveAfterwards : Obligations.PullsAreExclusiveAfterwards := fun s p hw hp hs =>
  have hl : LayoutOk s.cfg.muxf := layoutOk_of_wellFormed hw
  ⟨(isPull_enablePullup s.cfg p).postcondition (set := fun m => { m with pu := true })
      (clear := fun m => { m with pd := false }) hw hp hs (muxFields_set_puMask hl) (muxFields_clear_pdMask hl),
    (isPull_enablePulldown s.cfg p).postcondition (set := fun m => { m with pd := true })
      (clear := fun m => { m with pu := false }) hw hp hs (muxFields_set_pdMask hl) (muxFields_clear_puMask hl)⟩

end Sys2Proof.Machine
end


section
/-! SUPPORT. InterruptBinding (R135 to R146): the step at each label of `CONFIG_INTERRUPTION`, its failures, the
operation run whole, and the operations that answer in their first step. -/

namespace Sys2Proof.Machine

/-! ## What a change of one binding leaves alone -/

/-- Only the binding and the pending bit of `p`, the service flag, the running frame's temporaries and request in
progress, `LOG` and the answers and draws used differ. -/
structure BindingOnly (p : Pin) (s t : State) : Prop where
  gpio : SameGpio s t
  mux : SameMux s t
  irqEn : t.irqEn = s.irqEn
  bindings : SameBindingsBut p s t
  cfg : t.cfg = s.cfg
  ext : t.ext = s.ext
  sched : t.inputs.sched = s.inputs.sched
  context : SameContext s t

section
variable {p : Pin} {s t : State}

theorem BindingOnly.refl (p : Pin) (s : State) : BindingOnly p s s :=
  ⟨⟨rfl, rfl, rfl⟩, rfl, rfl, fun _ _ => ⟨rfl, rfl⟩, rfl, rfl, rfl, SameContext.refl s⟩

theorem BindingOnly.setBind (h : BindingOnly p s t) (b : Binding) : BindingOnly p s (t.setBind p b) :=
  have bindings : SameBindingsBut p s (t.setBind p b) := fun q hq =>
    ⟨by rw [bindAt_setBind, if_neg fun e => hq e.1, (h.bindings q hq).1], (h.bindings q hq).2⟩
  ⟨h.gpio, h.mux, h.irqEn, bindings, h.cfg, h.ext, h.sched, h.context⟩

theorem BindingOnly.setPend (h : BindingOnly p s t) (b : Bool) : BindingOnly p s (t.setPend p b) :=
  have bindings : SameBindingsBut p s (t.setPend p b) := fun q hq =>
    ⟨(h.bindings q hq).1, by rw [pendAt_setPend, if_neg fun e => hq e.1, (h.bindings q hq).2]⟩
  ⟨h.gpio, h.mux, h.irqEn, bindings, h.cfg, h.ext, h.sched, h.context⟩

theorem BindingOnly.setTop (h : BindingOnly p s t) (f : Frame) (hf : f.prog = t.top.prog) :
    BindingOnly p s (t.setTop f) :=
  ⟨h.gpio, h.mux, h.irqEn, h.bindings, h.cfg, h.ext, h.sched, h.context.setTop f hf⟩

theorem BindingOnly.goOn (h : BindingOnly p s t) (i : Instr) (k : Nat) : BindingOnly p s (t.goOn i k) := h.setTop _ rfl

theorem BindingOnly.ended (h : BindingOnly p s t) (r : Result) : BindingOnly p s (ended t r) :=
  have f := h.setTop { t.top with cur := none } rfl
  ⟨f.gpio, f.mux, f.irqEn, f.bindings, f.cfg, f.ext, f.sched, f.context⟩

theorem BindingOnly.serviceAndInputs (h : BindingOnly p s t) (b : Bool) {x : Inputs}
    (hx : x.sched = t.inputs.sched) : BindingOnly p s { t with svc := b, inputs := x } :=
  ⟨h.gpio, h.mux, h.irqEn, h.bindings, h.cfg, h.ext, hx.trans h.sched, h.context⟩
end

/-! ## The registry after an attachment, and after a return (R20, R136) -/

theorem bindAt_attachHandler (s : State) {p : Pin} (hlt : p.toNat < 32) (hid : Hid) :
    (attachHandler p hid s).bindAt p = { s.bindAt p with state := .bound, handler := some hid } := by
  rw [attachHandler, bindAt_congr (setPend_bind _ _ _), bindAt_setBind, if_pos ⟨rfl, hlt⟩]

theorem bindAt_ended (s : State) (r : Result) (q : Pin) : (ended s r).bindAt q = s.bindAt q := bindAt_congr rfl q

theorem pendAt_ended (s : State) (r : Result) (q : Pin) : (ended s r).pendAt q = s.pendAt q := pendAt_congr rfl q

theorem ended_svc (s : State) (r : Result) : (ended s r).svc = s.svc := rfl

/-! ## The answers of IntCtl (R15) -/

/-- Asking `IntCtl` changes the inputs alone. -/
theorem askIntCtl_eq (s : State) : (askIntCtl s).2 = { s with inputs := (askIntCtl s).2.inputs } := by
  unfold askIntCtl
  split <;> rfl

theorem askIntCtl_of_cons {s : State} {b : Bool} {bs : List Bool} (h : s.inputs.answers = b :: bs) :
    askIntCtl s = (b, { s with inputs := { s.inputs with answers := bs } }) := by
  rw [askIntCtl, h]

/-! ## Argument values (R95) -/

/-- The two values of `arg` that are an edge type. -/
theorem edgeType_of_arg {arg : BitVec 4} (h : arg = 1 ∨ arg = 2) :
    edgeType arg = some (if arg = 1 then .rising else .falling) := by
  rcases h with rfl | rfl <;> rfl

theorem edgeType_eq_none {arg : BitVec 4} (h₁ : arg ≠ 1) (h₂ : arg ≠ 2) : edgeType arg = none := by
  rw [edgeType, if_neg h₁, if_neg h₂]

/-! ## The steps of CONFIG_INTERRUPTION (R136) -/

section
variable {s : State} {p : Pin} {arg : BitVec 4} {hid : Hid}

theorem configCheck_pass (hv : gpioValid s.cfg p = true) (hp : muxValid s.cfg p = true)
    (hb : (s.bindAt p).state = .unbound) : configCheck p s = .go (s.setBindState p .configuring) := by
  simp [configCheck, hv, hp, hb]

/-- Step `c0` of a pin that is taken or not valid (R138). -/
theorem configCheck_reject
    (h : (s.bindAt p).state ≠ .unbound ∨ gpioValid s.cfg p = false ∨ muxValid s.cfg p = false) :
    configCheck p s = .ret (some (errResult .configurationFailure)) s := by
  rcases h with h | h | h <;> simp [configCheck, h]

theorem configEdge_program {e : EdgeType} (he : edgeType arg = some e) :
    configEdge p arg s = .go (s.setBind p { s.bindAt p with edge := some e }) := by
  simp [configEdge, he]

theorem configEdge_refuse (he : edgeType arg = none) : configEdge p arg s = configFails p s := by
  simp [configEdge, he]

theorem configService_installed (h : s.svc = true) : configService p s = .go s := by
  simp [configService, h]

theorem configService_grant (h : s.svc = false) (ha : (askIntCtl s).1 = true) :
    configService p s = .go (askIntCtl s).2.installService := by
  simp [configService, h, ha]

theorem configService_refuse (h : s.svc = false) (ha : (askIntCtl s).1 = false) :
    configService p s = configFails p (askIntCtl s).2 := by
  simp [configService, h, ha]

theorem configAttach_grant (ha : (askIntCtl s).1 = true) :
    configAttach p hid s = .ret (some okResult) (attachHandler p hid (askIntCtl s).2) := by
  simp [configAttach, ha]

theorem configAttach_refuse (ha : (askIntCtl s).1 = false) :
    configAttach p hid s = configFails p (askIntCtl s).2 := by
  simp [configAttach, ha]

/-! Each at its label. -/

theorem exec_config_check (hs : s.Idle) (hv : gpioValid s.cfg p = true) (hp : muxValid s.cfg p = true)
    (hb : (s.bindAt p).state = .unbound) : exec (.configInterruption p arg hid) s =
      .next ((s.setBindState p .configuring).goOn (.configInterruption p arg hid) 1) := by
  rw [exec_idle (by simp) hs rfl, configCheck_pass hv hp hb, settle]

/-- Step `c1` is step `i1` of `INIT pin, Input`. -/
theorem exec_config_enable (hs : s.At (.configInterruption p arg hid) 1) : exec (.configInterruption p arg hid) s =
    .next ((afterEnable s p 0).goOn (.configInterruption p arg hid) 2) :=
  exec_goes (by simp) hs rfl (enableStep_eq (arg := 0) (by decide))

theorem exec_config_edge {e : EdgeType} (hs : s.At (.configInterruption p arg hid) 10) (he : edgeType arg = some e) :
    exec (.configInterruption p arg hid) s =
      .next ((s.setBind p { s.bindAt p with edge := some e }).goOn (.configInterruption p arg hid) 11) :=
  exec_goes (by simp) hs rfl (configEdge_program he)

theorem exec_config_installed (hs : s.At (.configInterruption p arg hid) 11) (h : s.svc = true) :
    exec (.configInterruption p arg hid) s = .next (s.goOn (.configInterruption p arg hid) 12) :=
  exec_goes (by simp) hs rfl (configService_installed h)

theorem exec_config_install (hs : s.At (.configInterruption p arg hid) 11) (h : s.svc = false)
    (ha : (askIntCtl s).1 = true) : exec (.configInterruption p arg hid) s =
      .next ((askIntCtl s).2.installService.goOn (.configInterruption p arg hid) 12) :=
  exec_goes (by simp) hs rfl (configService_grant h ha)

theorem exec_config_attach (hs : s.At (.configInterruption p arg hid) 12) (ha : (askIntCtl s).1 = true) :
    exec (.configInterruption p arg hid) s = .next (ended (attachHandler p hid (askIntCtl s).2) okResult) :=
  exec_ends (by simp) hs rfl (configAttach_grant ha)
end

/-- Settles O31: the registry steps, step `i1` of `INIT`, and four read-modify-writes of the pin's register. -/
theorem configStepByStep : Obligations.ConfigStepByStep := by
  rintro s p arg hid i rfl hw hv hp
  have hi : Instr.configInterruption p arg hid ≠ .hret := by simp
  refine ⟨fun hs hb => exec_config_check hs hv hp hb, fun hs => exec_config_enable hs, ?loads,
    fun hs => exec_muxStore (f := setMask (gMask s.cfg)) hi hw hp hs rfl,
    fun hs => exec_muxStore (f := clearMask (ngMask s.cfg)) hi hw hp hs rfl,
    fun hs => exec_muxStore (f := setMask (puMask s.cfg)) hi hw hp hs rfl,
    fun hs => exec_muxStore (f := clearMask (pdMask s.cfg)) hi hw hp hs rfl, ?rising, ?falling,
    fun hs hsvc ha => exec_config_install hs hsvc ha, fun hs ha => ?attach⟩
  case loads => rintro k (rfl | rfl | rfl | rfl) hs <;> exact exec_muxLoad hi hw hp hs rfl
  case rising =>
    rintro hs rfl
    exact exec_config_edge hs rfl
  case falling =>
    rintro hs rfl
    exact exec_config_edge hs rfl
  case attach =>
    rw [exec_config_attach hs ha, attachHandler, bindAt_congr (askIntCtl_bind s)]
    rfl

/-! ## Failures (R137, R138) -/

/-- Settles O33: the check at `c0` answers at once. -/
theorem configRejects : Obligations.ConfigRejects :=
  ⟨rfl, fun _ _ _ _ hs h => exec_answers (by simp) hs rfl (configCheck_reject h)⟩

/-- The state a configuration of `p` that fails leaves, with the inputs `x` (R137). -/
def afterConfigFails (s : State) (p : Pin) (x : Inputs) : State :=
  ended ({ s with inputs := x }.setBindState p .unbound) (errResult .configurationFailure)

/-- A step of the configuration that fails, at its label, in the state it finds but for the inputs. -/
theorem exec_config_fails {s : State} {p : Pin} {arg : BitVec 4} {hid : Hid} {k : Nat} {f : StepFn} {x : Inputs}
    (hs : s.At (.configInterruption p arg hid) k) (hf : (configSteps s.cfg p arg hid)[k]? = some f)
    (hr : f s = configFails p { s with inputs := x }) :
    exec (.configInterruption p arg hid) s = .next (afterConfigFails s p x) :=
  exec_ends (by simp) hs hf hr

/-- The three causes of a failure after `c0`. -/
theorem exec_config_failure {s : State} {p : Pin} {arg : BitVec 4} {hid : Hid} {i : Instr}
    (hi : i = .configInterruption p arg hid)
    (h : (s.At i 10 ∧ arg ≠ 1 ∧ arg ≠ 2) ∨ (s.At i 11 ∧ s.svc = false ∧ (askIntCtl s).1 = false) ∨
      (s.At i 12 ∧ (askIntCtl s).1 = false)) :
    ∃ x, x.sched = s.inputs.sched ∧ exec i s = .next (afterConfigFails s p x) := by
  subst hi
  rcases h with ⟨hs, h₁, h₂⟩ | ⟨hs, hsvc, ha⟩ | ⟨hs, ha⟩
  · exact ⟨s.inputs, rfl, exec_config_fails hs rfl (configEdge_refuse (edgeType_eq_none h₁ h₂))⟩
  · have hfails := configService_refuse (p := p) hsvc ha
    rw [askIntCtl_eq] at hfails
    exact ⟨_, askIntCtl_sched s, exec_config_fails hs rfl hfails⟩
  · have hfails := configAttach_refuse (p := p) (hid := hid) ha
    rw [askIntCtl_eq] at hfails
    exact ⟨_, askIntCtl_sched s, exec_config_fails hs rfl hfails⟩

theorem bindingOnly_afterConfigFails (s : State) (p : Pin) {x : Inputs} (hx : x.sched = s.inputs.sched) :
    BindingOnly p s (afterConfigFails s p x) :=
  (((BindingOnly.refl p s).serviceAndInputs s.svc hx).setBind _).ended _

/-- Settles O32: whichever step fails, it undoes the state of the binding alone. -/
theorem configFailureLeavesUnbound : Obligations.ConfigFailureLeavesUnbound := by
  intro s p arg hid i hi hv hcause
  obtain ⟨x, hx, hexec⟩ := exec_config_failure hi hcause
  have only := bindingOnly_afterConfigFails s p hx
  have hbind : (afterConfigFails s p x).bindAt p = { s.bindAt p with state := .unbound } :=
    (bindAt_setBindState _ p p .unbound).trans (if_pos ⟨rfl, toNat_lt_of_gpioValid hv⟩)
  exact ⟨_, hexec, idle_ended _ _, hbind, rfl, only.gpio, only.mux, rfl, only.irqEn, rfl, only.bindings, only.cfg,
    only.ext, only.context⟩

/-! ## The service (R145) -/

/-- Settles O35: the flag is tested before `IntCtl` is asked, and every step of every operation keeps it set. -/
theorem serviceInstallIsIdempotent : Obligations.ServiceInstallIsIdempotent := by
  refine ⟨fun s p arg hid hs hsvc => exec_config_installed hs hsvc, fun i s t h hsvc => ?_⟩
  rcases exec_cases h with ⟨-, x, xs, -, rfl⟩ | ⟨-, s', hk, rfl | rfl | ⟨r, rfl⟩⟩
  · exact hsvc
  all_goals exact hk.svc hsvc

/-! ## Two read-modify-writes of a pin's IO-MUX register, inside a sequence (R106) -/

/-- The state after both, the first at label `k` of `i`. -/
def afterTwoRmws (s : State) (p : Pin) (i : Instr) (k : Nat) (f g : Word → Word) : State :=
  afterRmw ((afterRmw s p i (k + 1) f).goOn i (k + 2)) p i (k + 3) g

theorem runs_twoRmws {s : State} {p : Pin} {i : Instr} {k : Nat} {f g : Word → Word} {c : Config} (hi : i ≠ .hret)
    (hc : s.cfg = c) (hw : c.wellFormed = true) (hp : muxValid c p = true) (hs : s.At i k)
    (hload : (stepsOf c i)[k]? = some (loadStep (muxAddr c p) State.setT))
    (hstore : (stepsOf c i)[k + 1]? = some fun s' => storeStep (muxAddr c p) (f s'.top.t) s')
    (hreload : (stepsOf c i)[k + 2]? = some (loadStep (muxAddr c p) State.setT))
    (hrestore : (stepsOf c i)[k + 3]? = some fun s' => storeStep (muxAddr c p) (g s'.top.t) s') :
    Runs i 4 s ((afterTwoRmws s p i k f g).goOn i (k + 4)) :=
  (runs_rmw hi hc hw hp hs hload hstore).append
    (runs_rmw hi (by simpa using hc) hw hp (at_goOn _ _ _) hreload hrestore)

theorem MuxOnly.twoRmws {p : Pin} {s t : State} (h : MuxOnly p s t) (i : Instr) (k : Nat) (f g : Word → Word) :
    MuxOnly p s (afterTwoRmws t p i k f g) := ((h.rmw i _ f).goOn i _).rmw i _ g

@[simp] theorem afterTwoRmws_cfg (s : State) (p : Pin) (i : Instr) (k : Nat) (f g : Word → Word) :
    (afterTwoRmws s p i k f g).cfg = s.cfg := by simp [afterTwoRmws]

/-- The register after both, where each acts on the fields of every word. -/
theorem muxAt_afterTwoRmws {s : State} {p : Pin} {i : Instr} {k : Nat} {f g : Word → Word} {f' g' : MuxReg → MuxReg}
    {c : Config} (hc : s.cfg = c) (hw : c.wellFormed = true)
    (hf : ∀ w, muxFields c.muxf (f w) = f' (muxFields c.muxf w))
    (hg : ∀ w, muxFields c.muxf (g w) = g' (muxFields c.muxf w)) :
    (afterTwoRmws s p i k f g).muxAt p = g' (f' (s.muxAt p)) := by
  rw [afterTwoRmws, muxAt_afterRmw (by simpa using hc) hw hg, muxAt_goOn, muxAt_afterRmw hc hw hf]

theorem log_afterTwoRmws (s : State) (p : Pin) (i : Instr) (k : Nat) (f g : Word → Word) :
    ∃ es, (afterTwoRmws s p i k f g).log = s.log ++ es ∧ es.map txnOf = twoRmws (muxAddr s.cfg p) := by
  simp only [afterTwoRmws, afterRmw_log, afterRmw_cfg, goOn_log, goOn_cfg, List.append_assoc]
  exact ⟨_, rfl, rfl⟩

/-! ## CONFIG_INTERRUPTION, run whole (R136) -/

/-- The state after `c5`, from the state before `c1`: an input, routed to GPIO. -/
def afterConfigRoute (s : State) (p : Pin) (i : Instr) : State :=
  afterTwoRmws ((afterEnable s p 0).goOn i 2) p i 2 (setMask (gMask s.cfg)) (clearMask (ngMask s.cfg))

/-- The state after `c9`: the pull-up on. -/
def afterConfigPad (s : State) (p : Pin) (i : Instr) : State :=
  afterTwoRmws ((afterConfigRoute s p i).goOn i 6) p i 6 (setMask (puMask s.cfg)) (clearMask (pdMask s.cfg))

@[simp] theorem afterConfigRoute_cfg (s : State) (p : Pin) (i : Instr) : (afterConfigRoute s p i).cfg = s.cfg := by
  simp [afterConfigRoute]

/-- Steps `c1` to `c9`. -/
theorem runs_configPad {s : State} {p : Pin} {arg : BitVec 4} {hid : Hid} {i : Instr}
    (hi : i = .configInterruption p arg hid) (hw : s.cfg.wellFormed = true) (hp : muxValid s.cfg p = true)
    (hs : s.At i 1) : Runs i 9 s ((afterConfigPad s p i).goOn i 10) := by
  subst hi
  have hne : Instr.configInterruption p arg hid ≠ .hret := by simp
  have hroute := runs_twoRmws (c := s.cfg) hne (s := (afterEnable s p 0).goOn (.configInterruption p arg hid) 2)
    (f := setMask (gMask s.cfg)) (g := clearMask (ngMask s.cfg)) (by simp) hw hp (at_goOn _ _ _) rfl rfl rfl rfl
  have hpull := runs_twoRmws (c := s.cfg) hne
    (s := (afterConfigRoute s p (.configInterruption p arg hid)).goOn (.configInterruption p arg hid) 6)
    (f := setMask (puMask s.cfg)) (g := clearMask (pdMask s.cfg)) (by simp) hw hp (at_goOn _ _ _) rfl rfl rfl rfl
  exact Runs.step (exec_config_enable hs) (hroute.append hpull)

/-- Besides the pin's bit of `ENABLE`, steps `c1` to `c9` write the pin's IO-MUX register alone. -/
theorem muxOnly_afterConfigPad (s : State) (p : Pin) (i : Instr) :
    MuxOnly p { s with enable := putBit s.enable p.toNat false } (afterConfigPad s p i) :=
  have henable : MuxOnly p { s with enable := putBit s.enable p.toNat false } (afterEnable s p 0) :=
    (MuxOnly.refl p _).logEvent _
  (((henable.goOn i 2).twoRmws i 2 _ _).goOn i 6).twoRmws i 6 _ _

/-- The register after `c9`. -/
theorem muxAt_afterConfigPad {s : State} (hw : s.cfg.wellFormed = true) (p : Pin) (i : Instr) :
    (afterConfigPad s p i).muxAt p = { s.muxAt p with func := s.cfg.funGpio, pu := true, pd := false } := by
  have hl : LayoutOk s.cfg.muxf := layoutOk_of_wellFormed hw
  have henable : (afterEnable s p 0).muxAt p = s.muxAt p := muxAt_congr rfl p
  have hroute : (afterConfigRoute s p i).muxAt p = { s.muxAt p with func := s.cfg.funGpio } := by
    rw [afterConfigRoute, muxAt_afterTwoRmws (f' := fun m => { m with func := m.func ||| s.cfg.funGpio })
      (g' := fun m => { m with func := m.func &&& s.cfg.funGpio }) (c := s.cfg) (by simp) hw
      (muxFields_set_gMask hl) (muxFields_clear_ngMask hl), muxAt_goOn, henable, or_and_funGpio]
  rw [afterConfigPad, muxAt_afterTwoRmws (f' := fun m => { m with pu := true })
    (g' := fun m => { m with pd := false }) (c := s.cfg) (by simp) hw (muxFields_set_puMask hl)
    (muxFields_clear_pdMask hl), muxAt_goOn, hroute]

/-- The nine transactions (R106). -/
theorem log_afterConfigPad (s : State) (p : Pin) (i : Instr) :
    ∃ es, (afterConfigPad s p i).log = s.log ++ es ∧ es.map txnOf =
      some (.write, s.cfg.bG + 0x28) :: (twoRmws (muxAddr s.cfg p) ++ twoRmws (muxAddr s.cfg p)) := by
  obtain ⟨es₁, h₁, he₁⟩ := log_afterTwoRmws ((afterEnable s p 0).goOn i 2) p i 2 (setMask (gMask s.cfg))
    (clearMask (ngMask s.cfg))
  obtain ⟨es₂, h₂, he₂⟩ := log_afterTwoRmws ((afterConfigRoute s p i).goOn i 6) p i 6 (setMask (puMask s.cfg))
    (clearMask (pdMask s.cfg))
  refine ⟨.txn s.who .write (gpioAddr s.cfg 0x28) (pinMask p) :: (es₁ ++ es₂), ?_, ?_⟩
  · rw [afterConfigPad, h₂, goOn_log, afterConfigRoute, h₁]
    simp [afterEnable]
  · simp [txnOf, he₁, he₂, gpioAddr]

/-- The state after `c11`, from the state before `c10`, with the inputs `x`: the edge type programmed and the service
installed. -/
def afterConfigService (s : State) (p : Pin) (i : Instr) (e : EdgeType) (x : Inputs) : State :=
  { (s.setBind p { s.bindAt p with edge := some e }).goOn i 11 with svc := true, inputs := x }.goOn i 12

/-- The state after `c12`, before the result is returned, with the inputs `y`: the handler attached. -/
def afterConfigAttach (s : State) (p : Pin) (i : Instr) (e : EdgeType) (hid : Hid) (x y : Inputs) : State :=
  attachHandler p hid { afterConfigService s p i e x with inputs := y }

/-- Step `c11` where `IntCtl` answers `true`, whether it is asked or not. -/
theorem exec_config_service {s : State} {p : Pin} {arg : BitVec 4} {hid : Hid} {bs : List Bool}
    (hs : s.At (.configInterruption p arg hid) 11) (ha : s.inputs.answers = true :: true :: bs) :
    ∃ x cs, x.sched = s.inputs.sched ∧ x.answers = true :: cs ∧ exec (.configInterruption p arg hid) s =
      .next ({ s with svc := true, inputs := x }.goOn (.configInterruption p arg hid) 12) := by
  cases hsvc : s.svc with
  | true =>
    refine ⟨s.inputs, _, rfl, ha, ?_⟩
    rw [exec_config_installed hs hsvc, ← hsvc]
  | false =>
    have hask := askIntCtl_of_cons ha
    refine ⟨{ s.inputs with answers := true :: bs }, bs, rfl, rfl, ?_⟩
    rw [exec_config_install hs hsvc (by rw [hask]), hask]
    rfl

/-- Steps `c10` to `c12` where `IntCtl` answers `true`. -/
theorem runs_configBind {s : State} {p : Pin} {arg : BitVec 4} {hid : Hid} {e : EdgeType} {i : Instr} {bs : List Bool}
    (hi : i = .configInterruption p arg hid) (he : edgeType arg = some e) (hs : s.At i 10)
    (ha : s.inputs.answers = true :: true :: bs) :
    ∃ x y, x.sched = s.inputs.sched ∧ y.sched = x.sched ∧
      Runs i 3 s (ended (afterConfigAttach s p i e hid x y) okResult) := by
  subst hi
  obtain ⟨x, cs, hx, hcs, hservice⟩ := exec_config_service
    (at_goOn (s.setBind p { s.bindAt p with edge := some e }) (.configInterruption p arg hid) 11) ha
  have hask := askIntCtl_of_cons (s := afterConfigService s p (.configInterruption p arg hid) e x) hcs
  have hattach := exec_config_attach (s := afterConfigService s p (.configInterruption p arg hid) e x) (at_goOn _ _ _)
    (by rw [hask])
  rw [hask] at hattach
  exact ⟨x, { x with answers := cs }, hx, rfl,
    Runs.step (exec_config_edge hs he) (Runs.step hservice (Runs.one hattach))⟩

section
variable {s : State} {p : Pin} {i : Instr} {e : EdgeType} {hid : Hid} {x y : Inputs}

theorem bindingOnly_afterConfigAttach (hx : x.sched = s.inputs.sched) (hy : y.sched = x.sched) :
    BindingOnly p s (afterConfigAttach s p i e hid x y) :=
  have hservice : BindingOnly p s (afterConfigService s p i e x) :=
    ((((BindingOnly.refl p s).setBind _).goOn i 11).serviceAndInputs true hx).goOn i 12
  ((hservice.serviceAndInputs true hy).setBind _).setPend _

theorem afterConfigAttach_svc : (afterConfigAttach s p i e hid x y).svc = true := rfl

theorem afterConfigAttach_log : (afterConfigAttach s p i e hid x y).log = s.log := rfl

theorem bindAt_afterConfigService (hlt : p.toNat < 32) :
    (afterConfigService s p i e x).bindAt p = { s.bindAt p with edge := some e } :=
  (bindAt_setBind s p p { s.bindAt p with edge := some e }).trans (if_pos ⟨rfl, hlt⟩)

/-- The three fields of the binding: the edge of `c10`, the state and the handler of `c12`. -/
theorem bindAt_afterConfigAttach (hlt : p.toNat < 32) : (afterConfigAttach s p i e hid x y).bindAt p =
    { state := .bound, edge := some e, handler := some hid } := by
  have hinputs : State.bindAt { afterConfigService s p i e x with inputs := y } p =
      (afterConfigService s p i e x).bindAt p := bindAt_congr rfl p
  rw [afterConfigAttach, bindAt_attachHandler _ hlt, hinputs, bindAt_afterConfigService hlt]

theorem pendAt_afterConfigAttach (hlt : p.toNat < 32) : (afterConfigAttach s p i e hid x y).pendAt p = false := by
  rw [afterConfigAttach, attachHandler, pendAt_setPend, if_pos ⟨rfl, hlt⟩]
end

/-- Steps `c1` to `c9`: what they write, and what they leave. -/
theorem configPad_postcondition {s : State} {p : Pin} {arg : BitVec 4} {hid : Hid} {i : Instr}
    (hi : i = .configInterruption p arg hid) (hw : s.cfg.wellFormed = true) (hp : muxValid s.cfg p = true)
    (hs : s.At i 1) :
    ∃ u, Runs i 9 s u ∧ u.At i 10 ∧ MuxOnly p { s with enable := putBit s.enable p.toNat false } u ∧
      u.muxAt p = { s.muxAt p with func := s.cfg.funGpio, pu := true, pd := false } ∧
      ∃ es, u.log = s.log ++ es ∧ es.map txnOf =
        some (.write, s.cfg.bG + 0x28) :: (twoRmws (muxAddr s.cfg p) ++ twoRmws (muxAddr s.cfg p)) :=
  ⟨_, runs_configPad hi hw hp hs, at_goOn _ _ _, (muxOnly_afterConfigPad s p i).goOn i 10,
    (muxAt_goOn _ _ _ _).trans (muxAt_afterConfigPad hw p i), log_afterConfigPad s p i⟩

/-- Steps `c10` to `c12`, `IntCtl` answering `true`: what they write, and what they leave. -/
theorem configBind_postcondition {s : State} {p : Pin} {arg : BitVec 4} {hid : Hid} {e : EdgeType} {i : Instr}
    {bs : List Bool} (hi : i = .configInterruption p arg hid) (he : edgeType arg = some e) (hlt : p.toNat < 32)
    (hs : s.At i 10) (ha : s.inputs.answers = true :: true :: bs) :
    ∃ t, Runs i 3 s t ∧ t.Idle ∧ BindingOnly p s t ∧
      t.bindAt p = { state := .bound, edge := some e, handler := some hid } ∧ t.pendAt p = false ∧ t.svc = true ∧
      t.log = s.log ++ [.result s.who okResult] := by
  obtain ⟨x, y, hx, hy, hrun⟩ := runs_configBind hi he hs ha
  have only := bindingOnly_afterConfigAttach (p := p) (i := i) (e := e) (hid := hid) hx hy
  refine ⟨_, hrun, idle_ended _ _, only.ended okResult, (bindAt_ended _ _ _).trans (bindAt_afterConfigAttach hlt),
    (pendAt_ended _ _ _).trans (pendAt_afterConfigAttach hlt), (ended_svc _ _).trans afterConfigAttach_svc, ?_⟩
  rw [ended, logEvent_log, finish_log, afterConfigAttach_log, only.context.1]

/-- Settles O34: `c0` takes the pin, `c1` to `c9` write the registers of its pad, and `c10` to `c12` its binding. -/
theorem configBindsThePin : Obligations.ConfigBindsThePin := by
  intro s p arg hid rest hw hv hp harg hs hb ha
  have hcheck := exec_config_check (arg := arg) (hid := hid) hs hv hp hb
  have taken : BindingOnly p s ((s.setBindState p .configuring).goOn (.configInterruption p arg hid) 1) :=
    ((BindingOnly.refl p s).setBind _).goOn _ 1
  obtain ⟨u, hpad, hat, pad, hmux, es, hlog, hes⟩ := configPad_postcondition rfl
    (s := (s.setBindState p .configuring).goOn (.configInterruption p arg hid) 1) hw hp (at_goOn _ _ _)
  obtain ⟨hout, henable, hinp⟩ := pad.gpio
  obtain ⟨hbind, hpend, -, hirqEn⟩ := pad.registry
  obtain ⟨hcfg, hext, hsched, hanswers⟩ := pad.world
  obtain ⟨t, hrun, hidle, bound, hbound, hclear, hsvc, hresult⟩ := configBind_postcondition rfl
    (edgeType_of_arg harg) (toNat_lt_of_gpioValid hv) hat (hanswers.trans ha)
  obtain ⟨houtT, henableT, hinpT⟩ := bound.gpio
  have context : SameContext s u := taken.context.trans pad.context
  refine ⟨_, t, hcheck, hpad.append hrun, hidle, hbound, hclear, hsvc, bound.irqEn.trans hirqEn, ?bindings, ?enable,
    houtT.trans hout, hinpT.trans hinp, ?mux, ?others, bound.cfg.trans hcfg, bound.ext.trans hext,
    bound.sched.trans hsched, context.trans bound.context, es, ?log, hes⟩
  case bindings =>
    intro q hq
    obtain ⟨hbindT, hpendT⟩ := bound.bindings q hq
    obtain ⟨hbind₁, hpend₁⟩ := taken.bindings q hq
    exact ⟨hbindT.trans ((bindAt_congr hbind q).trans hbind₁), hpendT.trans ((pendAt_congr hpend q).trans hpend₁)⟩
  case enable =>
    intro b hb
    rw [henableT, henable, getLsbD_putBit]
    by_cases h : b = p.toNat
    · subst h
      simp [hb]
    · simp [h]
  case mux => exact (muxAt_congr bound.mux p).trans hmux
  case others => exact fun q hq => (muxAt_congr bound.mux q).trans (pad.mux q hq)
  case log =>
    rw [hresult, hlog, context.1]
    rfl

/-! ## Dispatches and samples (R161, R165) -/

/-- When a dispatch is enabled, and whose handler it invokes (R165). -/
theorem dispatchable_eq_some_iff {s : State} {p : Pin} {hid : Hid} : dispatchable s p = some hid ↔
    s.pendAt p = true ∧ (s.bindAt p).state = .bound ∧ s.irqEn = true ∧ nestingAllowed s = true ∧
      (s.bindAt p).handler = some hid := by
  simp [dispatchable, and_assoc]

theorem dispatchable_eq_none_of_not_bound {s : State} {p : Pin} (hb : (s.bindAt p).state ≠ .bound) :
    dispatchable s p = none :=
  Option.eq_none_iff_forall_ne_some.2 fun _ h =>
    have ⟨_, hbound, _⟩ := dispatchable_eq_some_iff.1 h
    hb hbound

theorem dispatchable_eq_none_of_not_pending {s : State} {p : Pin} (hp : s.pendAt p = false) :
    dispatchable s p = none :=
  Option.eq_none_iff_forall_ne_some.2 fun _ h =>
    have ⟨hpending, _⟩ := dispatchable_eq_some_iff.1 h
    Bool.false_ne_true (hp.symm.trans hpending)

theorem offerDispatch_of_some {s : State} {p : Pin} {hid : Hid} (h : dispatchable s p = some hid) :
    offerDispatch p s = takeInterrupt p hid s := by
  rw [offerDispatch, h]

/-- The invocation takes the pending edge (R165). -/
theorem dispatchable_takeInterrupt (s : State) {p : Pin} (hlt : p.toNat < 32) (hid : Hid) :
    dispatchable (takeInterrupt p hid s) p = none :=
  dispatchable_eq_none_of_not_pending ((pendAt_congr (takeInterrupt_pend s p hid) p).trans
    ((pendAt_setPend s p p false).trans (if_pos ⟨rfl, hlt⟩)))

/-- A sample that latches no edge leaves the registry alone (R161). -/
theorem padLevel_of_not_detected {s : State} {p : Pin} {lvl : Bool}
    (h : edgeDetected (s.bindAt p) (s.inp.getLsbD p.toNat) lvl = false) :
    padLevel p lvl s = ({ s with inp := putBit s.inp p.toNat lvl } : State).logEvent (.padLevel p lvl) := by
  rw [padLevel, latchEdge, if_neg]
  exact ne_true_of_eq_false h

/-- A sample that latches an edge sets the pin's pending bit and no other part of the registry (R161). -/
theorem padLevel_of_detected {s : State} {p : Pin} {lvl : Bool}
    (h : edgeDetected (s.bindAt p) (s.inp.getLsbD p.toNat) lvl = true) :
    padLevel p lvl s =
      (({ s with inp := putBit s.inp p.toNat lvl } : State).setPend p true).logEvent (.padLevel p lvl) := by
  rw [padLevel, latchEdge, if_pos]
  exact h

theorem edgeDetected_of_not_bound {b : Binding} (hb : b.state ≠ .bound) (old new : Bool) :
    edgeDetected b old new = false := by
  simp [edgeDetected, hb]

theorem padLevel_log (p : Pin) (lvl : Bool) (s : State) : (padLevel p lvl s).log = s.log ++ [.padLevel p lvl] := by
  obtain ⟨s', rfl | ⟨rfl, -⟩, h⟩ := padLevel_cases p lvl s <;> rw [h] <;> rfl

/-! ## Operations over in one step (R139 to R144) -/

/-- An operation whose first step returns a result and leaves the running frame as it finds it. -/
theorem exec_returns {i : Instr} {s s' : State} {f : StepFn} {r : Result} (hi : i ≠ .hret) (hs : s.Idle)
    (hf : (stepsOf s.cfg i)[0]? = some f) (hr : f s = .ret (some r) s') (htop : s'.top = s.top) :
    exec i s = .next (s'.logEvent (.result s'.who r)) := by
  have hidle : s'.top.cur = none := by rw [htop, hs]
  rw [exec_idle hi hs hf, hr, settle, finish_of_idle hidle]

/-- The like with no result. -/
theorem exec_returnsNothing {i : Instr} {s s' : State} {f : StepFn} (hi : i ≠ .hret) (hs : s.Idle)
    (hf : (stepsOf s.cfg i)[0]? = some f) (hr : f s = .ret none s') (htop : s'.top = s.top) : exec i s = .next s' := by
  have hidle : s'.top.cur = none := by rw [htop, hs]
  rw [exec_idle hi hs hf, hr, settle, finish_of_idle hidle]

/-! ### EXCLUDE_INTERRUPTION (R139 to R141) -/

theorem detachHandler_bound {s : State} {p : Pin} (hb : (s.bindAt p).state = .bound) : detachHandler p s =
    (s.setBind p { state := .unbound, edge := (s.bindAt p).edge, handler := none }).setPend p false := if_pos hb

theorem detachHandler_not_bound {s : State} {p : Pin} (hb : (s.bindAt p).state ≠ .bound) : detachHandler p s = s :=
  if_neg hb

theorem excludeStep_eq {s : State} {p : Pin} (hv : gpioValid s.cfg p = true) :
    excludeStep p s = .ret (some okResult) (detachHandler p s) := if_pos hv

/-- Settles O36: the two cases of the detachment, neither of which touches the running frame. -/
theorem excludeDetaches : Obligations.ExcludeDetaches := by
  intro s p hv hs
  have hstep := excludeStep_eq hv
  constructor <;> intro hb
  · rw [detachHandler_bound hb] at hstep
    exact exec_returns (by simp) hs rfl hstep rfl
  · rw [detachHandler_not_bound hb] at hstep
    exact exec_answers (by simp) hs rfl hstep

/-- Settles O37: detached or never bound, the pin is not bound; and both a dispatch and a latch need it bound. -/
theorem excludeTakesEffectAtOnce : Obligations.ExcludeTakesEffectAtOnce := by
  refine ⟨fun s p hv hs => ?_, fun u p hb => ⟨dispatchable_eq_none_of_not_bound hb, fun lvl => ?_⟩⟩
  · obtain ⟨hdetach, hkeep⟩ := excludeDetaches s p hv hs
    by_cases hb : (s.bindAt p).state = .bound
    · refine ⟨_, hdetach hb, ?_, rfl⟩
      have hbind : ((s.setBind p { state := .unbound, edge := (s.bindAt p).edge, handler := none }).bindAt p).state =
          .unbound := by
        rw [bindAt_setBind, if_pos ⟨rfl, toNat_lt_of_gpioValid hv⟩]
      exact fun h => by cases hbind.symm.trans h
    · exact ⟨_, hkeep hb, hb, rfl⟩
  · rw [padLevel_of_not_detected (edgeDetected_of_not_bound hb _ lvl)]
    exact ⟨rfl, rfl⟩

/-! ### Context control (R142 to R144) -/

/-- Settles O38: each writes the flag alone. -/
theorem irqFlagOperations : Obligations.IrqFlagOperations := fun _ hs =>
  ⟨exec_returnsNothing (by simp) hs rfl rfl rfl, exec_returnsNothing (by simp) hs rfl rfl rfl⟩

theorem returnFromHandler_of_cons {s : State} {h : HandlerFrame} {hs : List HandlerFrame} (hh : s.handlers = h :: hs) :
    returnFromHandler s = .next ({ s with handlers := hs }.logEvent (.ret h.hid h.pin)) := by
  rw [returnFromHandler, hh]

theorem returnFromHandler_of_nil {s : State} (hh : s.handlers = []) : returnFromHandler s = .refused .noHandler := by
  rw [returnFromHandler, hh]

/-- Settles O39: the return has one case per shape of the stack. -/
theorem hretReturns : Obligations.HretReturns := fun _ =>
  ⟨fun _ _ hh => returnFromHandler_of_cons hh, fun hh => returnFromHandler_of_nil hh⟩

/-! ## A bound pin's edges (R146) -/

/-- A falling edge of a pin bound to it, sampled where nothing else holds the dispatch back, enables it (R161, R165). -/
theorem dispatchable_padLevel_falling {s : State} {p : Pin} {hid : Hid} (hlt : p.toNat < 32)
    (hb : s.bindAt p = { state := .bound, edge := some .falling, handler := some hid }) (hirq : s.irqEn = true)
    (hn : nestingAllowed s = true) (hlvl : s.inp.getLsbD p.toNat = true) :
    dispatchable (padLevel p false s) p = some hid := by
  rw [padLevel_of_detected (by rw [hb, hlvl]; rfl), dispatchable_eq_some_iff]
  refine ⟨(pendAt_setPend _ p p true).trans (if_pos ⟨rfl, hlt⟩), ?_, hirq, hn, ?_⟩
  · exact congrArg Binding.state hb
  · exact congrArg Binding.handler hb

/-- Settles O46: the falling edge is latched, its invocation takes it, and a rising edge is not the pin's. -/
theorem fallingEdgeInvokesOnce : Obligations.FallingEdgeInvokesOnce := by
  intro s p hid hlt hb hpend hirq hn
  refine ⟨fun hlvl => ?_, fun hlvl => ?_⟩
  · have henabled := dispatchable_padLevel_falling hlt hb hirq hn hlvl
    rw [offerDispatch_of_some henabled]
    refine ⟨henabled, ?_, dispatchable_takeInterrupt _ hlt hid⟩
    rw [takeInterrupt_log, padLevel_log, List.append_assoc, List.singleton_append]
  · rw [padLevel_of_not_detected (by rw [hb, hlvl]; rfl)]
    exact dispatchable_eq_none_of_not_pending hpend

end Sys2Proof.Machine
end

section
/-! SUPPORT. The errors of 60_exceptions.md section 1: the checks that fail, which results an operation can return, and that
a request past its check is never stopped (R148, R149, R153). -/

namespace Sys2Proof.Machine

/-! ## Checks that fail (R119, R148, R149) -/

theorem pinMode_of_le {arg : BitVec 4} (h : 2 ≤ arg.toNat) : pinMode arg = none := by
  revert arg
  decide

section
variable {s : State} {p : Pin} {arg : BitVec 4}

theorem initCheck_invalidPin (h : gpioValid s.cfg p = false ∨ muxValid s.cfg p = false) :
    initCheck p arg s = .ret (some (errResult .invalidPin)) s := by
  rcases h with h | h <;> simp [initCheck, h]

theorem initCheck_invalidMode (hv : gpioValid s.cfg p = true) (hp : muxValid s.cfg p = true) (ha : 2 ≤ arg.toNat) :
    initCheck p arg s = .ret (some (errResult .invalidMode)) s := by
  simp [initCheck, hv, hp, pinMode_of_le ha]

theorem readCheck_invalidPin (hv : gpioValid s.cfg p = false) :
    readCheck p s = .ret (some (errResult .invalidPin)) s := by
  simp [readCheck, hv]

theorem excludeStep_invalidPin (hv : gpioValid s.cfg p = false) :
    excludeStep p s = .ret (some (errResult .invalidPin)) s := by
  simp [excludeStep, hv]
end

/-- Settles O20: the mode check of each operation answers in its first step. -/
theorem invalidModeErrors : Obligations.InvalidModeErrors :=
  ⟨rfl, fun _ _ _ ha hs =>
    ⟨fun hv hp => exec_answers (by simp) hs rfl (initCheck_invalidMode hv hp ha),
      fun hv => exec_answers (by simp) hs rfl (writeCheck_invalidMode hv ha)⟩⟩

/-! ## The results a sequence can return -/

/-- A step of a sequence whose last step ends the operation: as it was, or ended. -/
theorem mem_lastEnds {r : Option Result} {f : StepFn} : ∀ {fs : List StepFn}, f ∈ lastEnds r fs →
    f ∈ fs ∨ ∃ g ∈ fs, f = endWith r g
  | [], h => .inl h
  | [g], h => .inr ⟨g, List.mem_singleton_self g, List.mem_singleton.1 h⟩
  | g :: _ :: _, h => by
    rcases List.mem_cons.1 h with rfl | h
    · exact .inl List.mem_cons_self
    · rcases mem_lastEnds h with h | ⟨g', hg, rfl⟩
      · exact .inl (List.mem_cons_of_mem _ h)
      · exact .inr ⟨g', List.mem_cons_of_mem _ hg, rfl⟩

/-- A transaction goes on or faults. -/
theorem Transfers.ne_ret {f : StepFn} (h : Transfers f) (s s' : State) (r : Option Result) : f s ≠ .ret r s' := by
  intro hr
  rcases h s with ⟨u, hu, -⟩ | ⟨x, hx⟩
  · cases hu.symm.trans hr
  · cases hx.symm.trans hr

/-- Every result the step returns has a code other than `c`. -/
def NeverReturns (c : Code) (f : StepFn) : Prop := ∀ s s' r, f s = .ret (some r) s' → r.code ≠ c

section
variable {c : Code}

theorem Transfers.neverReturns {f : StepFn} (h : Transfers f) : NeverReturns c f := fun s _ _ hr =>
  absurd hr (h.ne_ret s _ _)

/-- A transaction that ends its operation with no result. -/
theorem Transfers.neverReturns_endWith {f : StepFn} (h : Transfers f) : NeverReturns c (endWith none f) := by
  intro s s' r hr
  rcases h s with ⟨u, hu, -⟩ | ⟨x, hx⟩
  · cases (endWith_eq hu).symm.trans hr
  · rw [endWith, hx] at hr
    cases hr

theorem pullCheck_neverReturns (p : Pin) : NeverReturns c (pullCheck p) := fun s s' r hr => by
  unfold pullCheck at hr
  split at hr <;> cases hr

/-- The pull operations return no result (R128, R129). -/
theorem IsPull.neverReturns {cfg : Config} {i : Instr} {p : Pin} {target opposing : Word}
    (h : IsPull cfg i p target opposing) : ∀ f ∈ stepsOf cfg i, NeverReturns c f := by
  rw [h.steps]
  refine List.forall_mem_cons.2 ⟨pullCheck_neverReturns p, fun f hf => ?_⟩
  rcases mem_lastEnds hf with hf | ⟨g, hg, rfl⟩
  · exact (Transfers.twoRmws _ _ _ f hf).neverReturns
  · exact (Transfers.twoRmws _ _ _ g hg).neverReturns_endWith

theorem configFails_code {p : Pin} {s s' : State} {r : Result} (h : configFails p s = .ret (some r) s') :
    r.code = .configurationFailure := by
  cases h
  rfl

/-- `CONFIG_INTERRUPTION` returns `Ok` or `ConfigurationFailure` (R136, R150). -/
theorem configSteps_code {cfg : Config} {p : Pin} {arg : BitVec 4} {hid : Hid} {f : StepFn}
    (hf : f ∈ configSteps cfg p arg hid) {s s' : State} {r : Result} (hr : f s = .ret (some r) s') :
    r.code = .ok ∨ r.code = .configurationFailure := by
  obtain ⟨k, hk⟩ := List.getElem?_of_mem hf
  rcases configSteps_cases hk with ⟨-, rfl⟩ | ⟨-, -, ht⟩ | ⟨-, rfl⟩ | ⟨-, rfl⟩ | ⟨-, rfl⟩
  · unfold configCheck at hr
    split at hr <;> cases hr
    exact .inr rfl
  · exact absurd hr (ht.ne_ret s s' _)
  · exact .inr (configFails_code (configEdge_ret hr))
  · exact .inr (configFails_code (configService_ret hr))
  · unfold configAttach at hr
    split at hr
    · cases hr
      exact .inl rfl
    · exact .inr (configFails_code hr)

theorem configSteps_neverReturns_invalidPin (cfg : Config) (p : Pin) (arg : BitVec 4) (hid : Hid) :
    ∀ f ∈ configSteps cfg p arg hid, NeverReturns .invalidPin f := fun _ hf _ _ _ hr he => by
  rcases configSteps_code hf hr with h | h <;> cases h.symm.trans he
end

/-! ## The results a step logs (R20, R42) -/

/-- A step function logs no result. -/
theorem StepKeeps.log_noResult {s s' : State} (h : StepKeeps s s') :
    ∃ es, s'.log = s.log ++ es ∧ ∀ who r, .result who r ∉ es := by
  rcases h.log with hl | ⟨d, a, w, hl⟩
  · exact ⟨[], by rw [hl, List.append_nil], by simp⟩
  · exact ⟨[.txn s.who d a w], hl, by simp⟩

/-- An operation logs no result its step functions do not return. -/
theorem exec_logs_noResult {c : Code} {i : Instr} {s t : State} (hi : i ≠ .hret)
    (hn : ∀ f ∈ stepsOf s.cfg i, NeverReturns c f) (h : exec i s = .next t) :
    ∃ es, t.log = s.log ++ es ∧ ∀ who v, .result who { code := c, value := v } ∉ es := by
  rw [exec_eq hi] at h
  obtain ⟨f, hf, hr⟩ := runSteps_cases h
  have hm := List.mem_of_getElem? hf
  have keeps : ∀ s', (f s).Leaves s' → StepKeeps s s' := allKeep_stepsOf _ _ f hm s
  rcases hr with ⟨s', hs, rfl⟩ | ⟨s', hs, rfl⟩ | ⟨s', r, hs, rfl⟩ <;>
    obtain ⟨es, hlog, hes⟩ := (keeps s' (by rw [hs]; rfl)).log_noResult
  · exact ⟨es, hlog, fun who v => hes who _⟩
  · exact ⟨es, hlog, fun who v => hes who _⟩
  · refine ⟨es ++ [.result s'.who r], ?_, fun who v hmem => ?_⟩
    · rw [logEvent_log, finish_log, hlog, List.append_assoc]
    · rcases List.mem_append.1 hmem with hmem | hmem
      · exact hes who _ hmem
      · obtain ⟨-, rfl⟩ := Event.result.inj (List.mem_singleton.1 hmem)
        exact hn f hm s s' _ hs rfl

/-- Settles O21: each check answers in its first step, and no step of the other three operations returns the code. -/
theorem invalidPinErrors : Obligations.InvalidPinErrors := by
  refine ⟨rfl, fun s p arg hs hv => ?gpio, fun s p arg hs hp => ?mux, fun s t p arg hid => ?never⟩
  case gpio =>
    simp only [List.forall_mem_cons, List.not_mem_nil, false_imp_iff, implies_true, and_true]
    refine ⟨?_, exec_answers (by simp) hs rfl (writeCheck_invalidPin hv),
      exec_answers (by simp) hs rfl (readCheck_invalidPin hv),
      exec_answers (by simp) hs rfl (excludeStep_invalidPin hv),
      exec_answers (by simp) hs rfl (initCheck_invalidPin (.inl hv))⟩
    rw [exec_gpioBit hs, gpioBitResult_invalid (by simp [hv]), errResult]
  case mux =>
    simp only [List.forall_mem_cons, List.not_mem_nil, false_imp_iff, implies_true, and_true]
    refine ⟨?_, exec_answers (by simp) hs rfl (initCheck_invalidPin (.inr hp))⟩
    rw [exec_iomuxAddr hs, iomuxAddrResult_none (by simpa [muxValid] using hp), errResult]
  case never =>
    simp only [List.forall_mem_cons, List.not_mem_nil, false_imp_iff, implies_true, and_true]
    exact ⟨exec_logs_noResult (by simp) (isPull_enablePullup s.cfg p).neverReturns,
      exec_logs_noResult (by simp) (isPull_enablePulldown s.cfg p).neverReturns,
      exec_logs_noResult (by simp) (configSteps_neverReturns_invalidPin s.cfg p arg hid)⟩

/-! ## Steps that are never stopped (R153) -/

/-- Under the parameters `c` the step neither faults nor is refused. -/
def NeverStops (c : Config) (f : StepFn) : Prop := ∀ s, s.cfg = c → ∃ s', (f s).Leaves s'

section
variable {c : Config} {a : Word}

theorem NeverStops.load (keep : State → Word → State) (h : disc c a = some .direct ∨ disc c a = some .readOnly) :
    NeverStops c (loadStep a keep) := by
  rintro s rfl
  obtain ⟨x, hx⟩ := memRead_ok h
  exact ⟨_, by rw [loadStep_eq hx]; rfl⟩

theorem NeverStops.storeOf (g : State → Word)
    (h : disc c a = some .direct ∨ disc c a = some .setOnly ∨ disc c a = some .clearOnly) :
    NeverStops c (fun s => storeStep a (g s) s) := by
  rintro s rfl
  obtain ⟨s', hs'⟩ := memWrite_ok (g s) h
  exact ⟨s', by simp only [storeStep_eq hs']; rfl⟩

theorem NeverStops.endWith {r : Option Result} {f : StepFn} (h : NeverStops c f) : NeverStops c (endWith r f) := by
  intro s hs
  obtain ⟨s', hs'⟩ := h s hs
  refine ⟨s', ?_⟩
  unfold Machine.endWith
  cases hf : f s <;> rw [hf] at hs' <;> exact hs'

theorem NeverStops.lastEnds {r : Option Result} {fs : List StepFn} (h : ∀ f ∈ fs, NeverStops c f) :
    ∀ f ∈ lastEnds r fs, NeverStops c f := by
  intro f hf
  rcases mem_lastEnds hf with hf | ⟨g, hg, rfl⟩
  · exact h f hf
  · exact (h g hg).endWith

theorem NeverStops.rmw (g : Word → Word) (h : disc c a = some .direct) : ∀ f ∈ rmw a g, NeverStops c f :=
  List.forall_mem_cons.2 ⟨NeverStops.load _ (.inl h), List.forall_mem_singleton.2 (NeverStops.storeOf _ (.inl h))⟩

theorem NeverStops.twoRmws (g g' : Word → Word) (h : disc c a = some .direct) :
    ∀ f ∈ Machine.rmw a g ++ Machine.rmw a g', NeverStops c f :=
  List.forall_mem_append.2 ⟨NeverStops.rmw g h, NeverStops.rmw g' h⟩

theorem NeverStops.enableStep (c : Config) (p : Pin) (mode : Option PinMode) : NeverStops c (enableStep c p mode) := by
  refine NeverStops.storeOf _ (.inr ?_)
  split
  · exact .inl (disc_of_regAt (regAt_enableSet c))
  · exact .inr (disc_of_regAt (regAt_enableClear c))

theorem NeverStops.outStep (c : Config) (p : Pin) (st : Option PinState) :
    NeverStops c (storeStep (gpioAddr c (if st = some .high then 0x08 else 0x0C)) (pinMask p)) := by
  refine NeverStops.storeOf _ (.inr ?_)
  split
  · exact .inl (disc_of_regAt (regAt_outSet c))
  · exact .inr (disc_of_regAt (regAt_outClear c))

theorem NeverStops.readLevel (c : Config) (p : Pin) : NeverStops c (readLevel p) := by
  intro s _
  exact ⟨_, by rw [Machine.readLevel, memRead_level]; rfl⟩

theorem NeverStops.configEdge (c : Config) (p : Pin) (arg : BitVec 4) : NeverStops c (configEdge p arg) := by
  intro s _
  unfold Machine.configEdge
  split <;> exact ⟨_, rfl⟩

theorem NeverStops.configService (c : Config) (p : Pin) : NeverStops c (configService p) := by
  intro s _
  unfold Machine.configService
  repeat' split
  all_goals exact ⟨_, rfl⟩

theorem NeverStops.configAttach (c : Config) (p : Pin) (hid : Hid) : NeverStops c (configAttach p hid) := by
  intro s _
  unfold Machine.configAttach
  split <;> exact ⟨_, rfl⟩

/-- Once the check has passed, every step of a sequence after the first is a legal transaction or a step of the registry
(R119, R131, R136). -/
theorem neverStops_tail (hw : c.wellFormed = true) {i : Instr} (hc : checkPasses c i = true)
    (hlen : 1 < stepCount c i) : ∀ f ∈ (stepsOf c i).tail, NeverStops c f := by
  cases i
  case setBits a m =>
    have hd : disc c a = some .direct := by by_contra h; simp [stepCount, h] at hlen
    rw [stepsOf, setBitsSteps_direct hd]
    exact fun f hf => NeverStops.lastEnds (NeverStops.rmw _ hd) f (List.mem_of_mem_tail hf)
  case clearBits a m =>
    have hd : disc c a = some .direct := by by_contra h; simp [stepCount, h] at hlen
    rw [stepsOf, clearBitsSteps_direct hd]
    exact fun f hf => NeverStops.lastEnds (NeverStops.rmw _ hd) f (List.mem_of_mem_tail hf)
  case init p arg =>
    simp only [checkPasses, Bool.and_eq_true] at hc
    exact NeverStops.lastEnds (List.forall_mem_cons.2 ⟨NeverStops.enableStep c p _,
      NeverStops.twoRmws _ _ (disc_muxAddr hw hc.1.2)⟩)
  case write p arg => exact List.forall_mem_singleton.2 (NeverStops.outStep c p _).endWith
  case read p =>
    exact List.forall_mem_cons.2 ⟨NeverStops.load _ (.inl (disc_of_regAt (regAt_enable c))),
      List.forall_mem_singleton.2 (NeverStops.readLevel c p)⟩
  case enablePullup p | enablePulldown p => exact NeverStops.lastEnds (NeverStops.twoRmws _ _ (disc_muxAddr hw hc))
  case configInterruption p arg hid =>
    simp only [checkPasses, Bool.and_eq_true] at hc
    have hd := disc_muxAddr hw hc.2
    refine List.forall_mem_cons.2 ⟨NeverStops.enableStep c p _, List.forall_mem_append.2 ⟨List.forall_mem_append.2
      ⟨NeverStops.twoRmws _ _ hd, NeverStops.twoRmws _ _ hd⟩, ?_⟩⟩
    simp only [List.forall_mem_cons, List.not_mem_nil, false_imp_iff, implies_true, and_true]
    exact ⟨NeverStops.configEdge c p arg, NeverStops.configService c p, NeverStops.configAttach c p hid⟩
  all_goals exact absurd hlen (by simp [stepCount])
end

/-- A step that is not stopped answers the next state. -/
theorem settle_next {e : StepEnd} {s' : State} (h : e.Leaves s') (i : Instr) (k : Nat) :
    ∃ t, settle i k e = .next t := by
  cases e with
  | go s => exact ⟨_, rfl⟩
  | ret r s => cases r <;> exact ⟨_, rfl⟩
  | fault f => exact h.elim
  | refuse r => exact h.elim

/-- Settles O60: the invariant puts the request past its check and before its end, where no step is stopped. -/
theorem requestOnceBegunNeverStops : Obligations.RequestOnceBegunNeverStops := by
  intro s i k h hs
  obtain ⟨hpos, hlt, hcheck, -⟩ : 0 < k ∧ k < stepCount s.cfg i ∧ checkPasses s.cfg i = true ∧ _ :=
    h.top_ok _ hs
  have hlen : 1 < stepCount s.cfg i := by omega
  have hi : i ≠ .hret := by
    rintro rfl
    exact absurd hlen (lt_irrefl 1)
  have hk : k < (stepsOf s.cfg i).length := length_stepsOf s.cfg hi ▸ hlt
  obtain ⟨s', hs'⟩ := neverStops_tail h.config hcheck hlen _ (List.getElem_mem_tail _ hpos.ne' hk) s rfl
  rw [exec_at hi hs (List.getElem?_eq_getElem hk)]
  exact settle_next hs' i k

end Sys2Proof.Machine
end

section
/-! SUPPORT. Events and dispatch (R157 to R169): what a listed event does, the levels a pad may be sampled at, and that
an invocation and its return leave the frames below as they were. -/

namespace Sys2Proof.Machine

/-! ## The listed choice -/

theorem popChoice_of_cons {s : State} {ch : Choice} {rest : List Choice} (h : s.inputs.sched = ch :: rest) :
    s.popChoice = { s with inputs := { s.inputs with sched := rest } } := by
  rw [State.popChoice, h, List.tail_cons]

/-- A step with a choice listed is that choice's. -/
theorem step_listed {s : State} {ch : Choice} {rest : List Choice} (h : s.inputs.sched = ch :: rest) :
    step s = takeChoice ch { s with inputs := { s.inputs with sched := rest } } := by
  rw [step, nextStep, h, popChoice_of_cons h]

theorem hasPad_iff {c : Config} {p : Pin} : hasPad c p = true ↔ p.toNat ≤ min c.pinMax 31 := by
  simp [hasPad, lastPadPin]

/-! ## PAD_DRIVE (R160) -/

/-- Settles O40: the event is taken exactly on a pin with a pad, and writes that pin's entry of `EXT`. -/
theorem padDriveSetsExt : Obligations.PadDriveSetsExt := by
  intro s p d rest hs
  rw [step_listed hs, takeChoice, offerPadDrive]
  refine ⟨fun hp => ⟨_, congrArg _ (if_pos (hasPad_iff.2 hp)), fun q => ?_, rfl, ⟨rfl, rfl, rfl⟩, rfl,
    ⟨rfl, rfl, rfl, rfl⟩, rfl, rfl, rfl, rfl⟩, fun hp => congrArg _ (if_neg (mt hasPad_iff.1 hp))⟩
  have hlt : p.toNat < 32 := by omega
  exact (extAt_setExt s p q d).trans (by simp only [hlt, and_true])

/-! ## PAD_LEVEL (R159, R161, R162) -/

/-- The edge match of R159, spelt out. -/
theorem edgeDetected_iff {b : Binding} {old new : Bool} : edgeDetected b old new = true ↔
    b.state = .bound ∧ ((b.edge = some .rising ∧ old = false ∧ new = true) ∨
      (b.edge = some .falling ∧ old = true ∧ new = false)) := by
  obtain ⟨x, e, hd⟩ := b
  rcases e with _ | _ | _ <;> simp [edgeDetected, edgeMatches]

theorem edgeDetected_same (b : Binding) (lvl : Bool) : edgeDetected b lvl lvl = false := by
  rw [← Bool.not_eq_true, edgeDetected_iff]
  cases lvl <;> simp

/-- A word with a bit put to the value it has. -/
theorem putBit_same {w : Word} {b : Nat} {lvl : Bool} (h : w.getLsbD b = lvl) : putBit w b lvl = w := by
  refine BitVec.eq_of_getLsbD_eq fun i _ => ?_
  rw [getLsbD_putBit]
  split
  · rename_i hi
    rw [hi.1, h]
  · rfl

/-- Settles O42: the level is no edge, and `IN` has it already. -/
theorem padLevelAtTheSameLevel : Obligations.PadLevelAtTheSameLevel := by
  intro s p lvl _ hlvl
  rw [padLevel_of_not_detected (by rw [hlvl, edgeDetected_same]), putBit_same hlvl]

/-- A sample changes `IN`, `PEND` and `LOG` alone (R161). -/
theorem padLevel_eq (p : Pin) (lvl : Bool) (s : State) : padLevel p lvl s =
    { s with inp := putBit s.inp p.toNat lvl, pend := (padLevel p lvl s).pend, log := s.log ++ [.padLevel p lvl] } := by
  obtain ⟨s', rfl | ⟨rfl, -⟩, h⟩ := padLevel_cases p lvl s <;> rw [h] <;> rfl

/-- The pending bits after a sample: an edge detected sets the pin's, which stays set if it was (R161, R164). -/
theorem pendAt_padLevel (s : State) {p : Pin} (hp : p.toNat < 32) (q : Pin) (lvl : Bool) : (padLevel p lvl s).pendAt q =
    if q = p then s.pendAt p || edgeDetected (s.bindAt p) (s.inp.getLsbD p.toNat) lvl else s.pendAt q := by
  have hsame : ∀ w x, State.pendAt (State.logEvent { s with inp := w } x) q = s.pendAt q := fun _ _ => rfl
  cases hd : edgeDetected (s.bindAt p) (s.inp.getLsbD p.toNat) lvl
  · rw [padLevel_of_not_detected hd, hsame, Bool.or_false]
    split
    · rename_i hq
      rw [hq]
    · rfl
  · rw [padLevel_of_detected hd, Bool.or_true]
    exact (pendAt_setPend _ p q true).trans (by simp only [hp, and_true]; rfl)

/-- When a sample is admissible (R161). -/
theorem admissible_iff {s : State} {p : Pin} {lvl : Bool} : (hasPad s.cfg p && sensed s p lvl) = true ↔
    p.toNat ≤ min s.cfg.pinMax 31 ∧ sensed s p lvl = true := by
  rw [Bool.and_eq_true, hasPad_iff]

/-- Settles O41: the event is taken exactly if admissible, and then it is the sample's effect on `IN` and `PEND`. -/
theorem padLevelSamplesAndLatches : Obligations.PadLevelSamplesAndLatches := by
  intro s p lvl rest hs
  rw [step_listed hs, takeChoice, offerPadLevel]
  refine ⟨fun hadm => ?_, fun hadm => congrArg _ (if_neg (mt admissible_iff.1 hadm))⟩
  have hpend := fun q =>
    pendAt_padLevel { s with inputs := { s.inputs with sched := rest } } (p := p) (by omega) q lvl
  refine ⟨_, (congrArg _ (if_pos (admissible_iff.2 hadm))).trans (congrArg _ (padLevel_eq p lvl _)), fun b hb => ?level, ?latch,
    fun q hq => (hpend q).trans (if_neg hq), rfl, rfl, rfl, rfl, rfl, rfl, rfl, rfl, rfl, rfl, rfl, rfl⟩
  case level => exact (getLsbD_putBit _ _ _ _).trans (by simp only [hb, and_true])
  case latch =>
    rw [← edgeDetected_iff, ← Bool.or_eq_true]
    exact iff_of_eq (congrArg (· = true) ((hpend p).trans (if_pos rfl)))

/-! ## The levels a pad may be sampled at (R163) -/

section
variable {s : State} {p : Pin}

/-- An output-enabled pin may be sampled at either level. -/
theorem sensed_of_output (h : s.enable.getLsbD p.toNat = true) (lvl : Bool) : sensed s p lvl = true := if_pos h

variable (h : s.enable.getLsbD p.toNat = false)
include h

theorem sensed_of_high (hx : s.extAt p = .h) (lvl : Bool) : sensed s p lvl = lvl := by
  simp [sensed, h, hx]

theorem sensed_of_low (hx : s.extAt p = .l) (lvl : Bool) : sensed s p lvl = !lvl := by
  simp [sensed, h, hx]

/-- An undriven pad with no pulls floats. -/
theorem sensed_of_floating (hx : s.extAt p = .z) (hp : muxValid s.cfg p = false ∨ hasPull s.cfg p = false)
    (lvl : Bool) : sensed s p lvl = true := by
  rcases hp with hp | hp <;> simp [sensed, h, hx, hp]

/-! An undriven pad with pulls. -/

variable (hx : s.extAt p = .z) (hp : muxValid s.cfg p = true) (hpull : hasPull s.cfg p = true)
include hx hp hpull

theorem sensed_of_pullUp (hc : pullConfig (s.muxAt p) = .pullUp) (lvl : Bool) : sensed s p lvl = lvl := by
  simp [sensed, h, hx, hp, hpull, hc]

theorem sensed_of_pullDown (hc : pullConfig (s.muxAt p) = .pullDown) (lvl : Bool) : sensed s p lvl = !lvl := by
  simp [sensed, h, hx, hp, hpull, hc]

theorem sensed_of_pullsEqual (hc : pullConfig (s.muxAt p) = .none ∨ pullConfig (s.muxAt p) = .both) (lvl : Bool) :
    sensed s p lvl = true := by
  rcases hc with hc | hc <;> simp [sensed, h, hx, hp, hpull, hc]
end

theorem pullConfig_of_eq {m : MuxReg} (h : m.pu = m.pd) : pullConfig m = .none ∨ pullConfig m = .both := by
  rw [pullConfig, h]
  cases m.pd
  · exact .inl rfl
  · exact .inr rfl

/-- Settles O43: a case of the table each. -/
theorem senseTable : Obligations.SenseTable := fun _ _ =>
  ⟨sensed_of_output, fun h => ⟨sensed_of_high h, sensed_of_low h, fun hx hp hpull =>
    ⟨fun hu hd => sensed_of_pullUp h hx hp hpull (by rw [pullConfig, hu, hd]),
      fun hu hd => sensed_of_pullDown h hx hp hpull (by rw [pullConfig, hu, hd]),
      fun heq => sensed_of_pullsEqual h hx hp hpull (pullConfig_of_eq heq)⟩,
    sensed_of_floating h⟩⟩

/-! ## DISPATCH (R165, R166) -/

theorem nestingAllowed_iff {s : State} :
    nestingAllowed s = true ↔ ∀ n, s.cfg.maxNest = some n → s.handlers.length < n := by
  unfold nestingAllowed
  cases s.cfg.maxNest <;> simp

theorem offerDispatch_of_none {s : State} {p : Pin} (h : dispatchable s p = none) : offerDispatch p s = s := by
  rw [offerDispatch, h]

/-- When the dispatch of a pin with a handler is enabled (R165). -/
theorem dispatchable_eq_handler_iff {s : State} {p : Pin} {hid : Hid} (hh : (s.bindAt p).handler = some hid) :
    dispatchable s p = some hid ↔ s.pendAt p = true ∧ (s.bindAt p).state = .bound ∧ s.irqEn = true ∧
      ∀ n, s.cfg.maxNest = some n → s.handlers.length < n := by
  rw [dispatchable_eq_some_iff, nestingAllowed_iff]
  simp only [hh, and_true]

/-- It is enabled for that handler or for none. -/
theorem dispatchable_eq_none_of_ne_handler {s : State} {p : Pin} {hid : Hid} (hh : (s.bindAt p).handler = some hid)
    (h : dispatchable s p ≠ some hid) : dispatchable s p = none := by
  refine Option.eq_none_iff_forall_ne_some.2 fun x hx => h ?_
  obtain ⟨-, -, -, -, hx'⟩ := dispatchable_eq_some_iff.1 hx
  rwa [← hh, hx']

/-- Settles O44: the dispatch is taken exactly if enabled, and its effect is the invocation's. -/
theorem dispatchInvokesTheHandler : Obligations.DispatchInvokesTheHandler := by
  intro s p hid rest hs hh hlt
  rw [step_listed hs, takeChoice, ← dispatchable_eq_handler_iff hh]
  refine ⟨fun hd => ?enabled, fun hd => ?disabled⟩
  case enabled =>
    have hpend := fun q => pendAt_setPend s p q false
    exact ⟨_, congrArg _ (offerDispatch_of_some hd), (hpend p).trans (if_pos ⟨rfl, hlt⟩),
      fun q hq => (hpend q).trans (if_neg fun h => hq h.1), rfl, rfl, rfl, ⟨rfl, rfl, rfl⟩, rfl, rfl, rfl, rfl, rfl, rfl,
      rfl⟩
  case disabled => exact congrArg _ (offerDispatch_of_none (dispatchable_eq_none_of_ne_handler hh hd))

/-! ## A handler, from its invocation to its return (R166, R169) -/

/-- The handler `hid`, invoked on `p` in state `s`, still stands in `u`: its frame, and any above it, are stacked on the
frames of `s`. -/
structure StandsOver (s : State) (p : Pin) (hid : Hid) (u : State) : Prop where
  main : u.main = s.main
  stack : ∃ ys f, u.handlers = ys ++ { hid := hid, pin := p, frame := f } :: s.handlers
  log : ∃ es, u.log = s.log ++ .invoke hid p :: es

/-- The handler has returned in `t`: the frames are those of `s`, and the return is the last event logged. -/
structure ReturnedTo (s : State) (p : Pin) (hid : Hid) (t : State) : Prop where
  main : t.main = s.main
  handlers : t.handlers = s.handlers
  log : ∃ es, t.log = s.log ++ .invoke hid p :: es ++ [.ret hid p]

theorem standsOver_takeInterrupt (s : State) (p : Pin) (hid : Hid) : StandsOver s p hid (takeInterrupt p hid s) :=
  ⟨rfl, ⟨[], _, rfl⟩, ⟨[], rfl⟩⟩

section
variable {s u t : State} {p : Pin} {hid : Hid}

theorem StandsOver.lt_length (h : StandsOver s p hid u) : s.handlers.length < u.handlers.length := by
  obtain ⟨ys, f, hst⟩ := h.stack
  rw [hst, List.length_append, List.length_cons]
  omega

/-- A step of any agent leaves the handler standing, or is its return: what a step can change of the stack is its top
frame, and a handler above this one returns to the frame below it. -/
theorem StandsOver.step (h : StandsOver s p hid u) (ht : step u = .next t) :
    StandsOver s p hid t ∨ ReturnedTo s p hid t := by
  obtain ⟨hmain, ⟨ys, f, hst⟩, es, hlog⟩ := h
  obtain ⟨x, xs, hx⟩ : ∃ x xs, u.handlers = x :: xs := by
    rw [hst]
    cases ys <;> exact ⟨_, _, rfl⟩
  obtain ⟨hmain', ⟨es', hlog'⟩, hframes⟩ := step_handlers ht hx
  have main := hmain'.trans hmain
  have log : ∃ es, t.log = s.log ++ .invoke hid p :: es := ⟨es ++ es', by rw [hlog', hlog]; simp⟩
  rw [hx] at hst
  rcases List.cons_eq_append_iff.1 hst with ⟨rfl, hst⟩ | ⟨ys, rfl, rfl⟩
  · cases hst
    rcases hframes with ⟨g, hg⟩ | ⟨y, g, hg⟩ | ⟨hg, hret⟩
    · exact .inl ⟨main, ⟨[], g, hg⟩, log⟩
    · exact .inl ⟨main, ⟨[y], g, hg⟩, log⟩
    · exact .inr ⟨main, hg, es, by rw [hret, hlog]⟩
  · rcases hframes with ⟨g, hg⟩ | ⟨y, g, hg⟩ | ⟨hg, -⟩
    · exact .inl ⟨main, ⟨{ x with frame := g } :: ys, f, hg⟩, log⟩
    · exact .inl ⟨main, ⟨y :: { x with frame := g } :: ys, f, hg⟩, log⟩
    · exact .inl ⟨main, ⟨ys, f, hg⟩, log⟩

theorem ReturnedTo.top (h : ReturnedTo s p hid t) : t.top = s.top := by
  rw [State.top, State.top, h.main, h.handlers]

/-- While its frame stays on the stack, the handler stands. -/
theorem StandsOver.stepsAbove {n : Nat} {u : State} (h : StandsOver s p hid u)
    (hr : StepsAbove s.handlers.length n u t) : StandsOver s p hid t := by
  induction n generalizing u with
  | zero => exact (show u = t from hr) ▸ h
  | succ n ih =>
    obtain ⟨u', hstep, hlt, hr⟩ := hr
    rcases h.step hstep with h' | h'
    · exact ih h' hr
    · exact absurd hlt (by rw [h'.handlers]; exact lt_irrefl _)
end

/-- Settles O45: the handler stands over the frames of `s` until the step that returns from it. -/
theorem preemptedFrameResumesIntact : Obligations.PreemptedFrameResumesIntact := by
  refine ⟨fun s p hid n u t hr hstep hlen => ?_, fun s p hid =>
    ⟨_, returnFromHandler_of_cons (takeInterrupt_handlers s p hid), rfl, rfl, rfl, rfl, ?_⟩⟩
  · rcases ((standsOver_takeInterrupt s p hid).stepsAbove hr).step hstep with h | h
    · exact absurd hlen (not_le_of_gt h.lt_length)
    · exact ⟨h.main, h.handlers, h.top, h.log⟩
  · exact List.append_assoc _ _ _

end Sys2Proof.Machine
end

section
/-! SUPPORT. Hazards (R184 to R187), the critical section that is their remedy (R192), and the end of a run (R194). -/

namespace Sys2Proof.Machine

/-! ## The end of a run (R194) -/

theorem mainIdle_of_runOver {s : State} (h : RunOver s) : mainIdle s = true := by
  obtain ⟨hhandlers, hcur, hprog, -⟩ := h
  simp [mainIdle, hhandlers, hcur, hprog]

/-- With no dispatch enabled none is taken (R195). -/
theorem dispatchSome_of_none {s : State} (h : ∀ p, dispatchable s p = none) : dispatchSome s = s := by
  rcases dispatchSome_cases s with hsame | ⟨p, hid, _, hd, -⟩
  · exact hsame
  · rw [h p] at hd
    cases hd

/-- Settles O51: the main frame has nothing to do, and no dispatch is there to be taken. -/
theorem runOverStaysOver : Obligations.RunOverStaysOver := by
  intro s h hsched
  have hidle := mainIdle_of_runOver h
  obtain ⟨-, -, -, hnone⟩ := h
  simp only [step, nextStep, hsched, hidle, if_true, dispatchSome_of_none hnone]

/-! ## The write of a read-modify-write (R184 to R186) -/

/-- The write step of a masked update of a direct register writes by that register's rule what is made of `t` (R109,
R110, R113). -/
theorem exec_rmw_writeReg {i : Instr} {s s' : State} {a : Word} {r : Reg} {f : Word → Word} (hi : i ≠ .hret)
    (hr : regAt s.cfg a = some r) (hsteps : stepsOf s.cfg i = lastEnds none (rmw a f))
    (hw : writeReg r (f s.top.t) s = some s') (hs : s.At i 1) :
    exec i s = .next (s'.logEvent (.txn s.who .write a (f s.top.t))).finish :=
  exec_rmw_store hi hsteps hs (memWrite_of_writeReg hr hw)

/-- Step `k` of `i` is the write of a read-modify-write of `MUX[p]` with `f`, the operation's last step or not. -/
def WritesBack (c : Config) (i : Instr) (k : Nat) (p : Pin) (f : Word → Word) : Prop :=
  (stepsOf c i)[k]? = some (fun s => storeStep (muxAddr c p) (f s.top.t) s) ∨
    ∃ r, (stepsOf c i)[k]? = some (endWith r fun s => storeStep (muxAddr c p) (f s.top.t) s)

/-- Such a step leaves in `MUX[p]` the fields of `f` of the frame's `t`, whatever the register holds (R76, R113). -/
theorem WritesBack.muxAt {s : State} {i : Instr} {k : Nat} {p : Pin} {f : Word → Word} {m : MuxReg}
    (h : WritesBack s.cfg i k p f) (hw : s.cfg.wellFormed = true) (hp : muxValid s.cfg p = true)
    (hm : muxFields s.cfg.muxf (f s.top.t) = m) (hs : s.At i k) : ∃ t, exec i s = .next t ∧ t.muxAt p = m := by
  have hi : i ≠ .hret := by
    rintro rfl
    simp [WritesBack, stepsOf] at h
  have hmux : (afterMuxStore s p (f s.top.t)).muxAt p = m := by rw [muxAt_afterMuxStore, if_pos rfl, hm]
  rcases h with h | ⟨_ | r, h⟩
  · exact ⟨_, exec_muxStore hi hw hp hs h, hmux⟩
  · exact ⟨_, exec_muxStore_finishes hi hw hp hs h, hmux⟩
  · exact ⟨_, exec_muxStore_ends hi hw hp hs h, hmux⟩

section
variable (c : Config) (p : Pin) (arg : BitVec 4) (hid : Hid)

/-- The second steps of `SET_BITS` and `CLEAR_BITS` on `MUX[p]` (R109, R110). -/
theorem writesBack_masked (mask : Word) (hd : disc c (muxAddr c p) = some .direct) :
    WritesBack c (.setBits (muxAddr c p) mask) 1 p (setMask mask) ∧
      WritesBack c (.clearBits (muxAddr c p) mask) 1 p (clearMask mask) := by
  refine ⟨.inr ⟨none, ?_⟩, .inr ⟨none, ?_⟩⟩
  · rw [stepsOf, setBitsSteps_direct hd]
    rfl
  · rw [stepsOf, clearBitsSteps_direct hd]
    rfl

/-- Steps `i3` and `i5` (R120). -/
theorem writesBack_init : WritesBack c (.init p arg) 3 p (setMask (gMask c)) ∧
    WritesBack c (.init p arg) 5 p (clearMask (ngMask c)) := ⟨.inl rfl, .inr ⟨_, rfl⟩⟩

/-- Steps `c3` and `c5` (R136). -/
theorem writesBack_config_route : WritesBack c (.configInterruption p arg hid) 3 p (setMask (gMask c)) ∧
    WritesBack c (.configInterruption p arg hid) 5 p (clearMask (ngMask c)) := ⟨.inl rfl, .inl rfl⟩

/-- Steps `c7` and `c9` (R136). -/
theorem writesBack_config_pull : WritesBack c (.configInterruption p arg hid) 7 p (setMask (puMask c)) ∧
    WritesBack c (.configInterruption p arg hid) 9 p (clearMask (pdMask c)) := ⟨.inl rfl, .inl rfl⟩
end

/-- Steps `u2` and `u4`, `d2` and `d4` (R128, R129). -/
theorem IsPull.writesBack {c : Config} {i : Instr} {p : Pin} {target opposing : Word} (h : IsPull c i p target opposing) :
    WritesBack c i 2 p (setMask target) ∧ WritesBack c i 4 p (clearMask opposing) := ⟨.inl h.set, .inr ⟨_, h.clear⟩⟩

/-- Settles O17: `OUT` and `ENABLE` by their write rules; on `MUX[p]` each write step is that of a read-modify-write, with
the masks' effect on the fields. -/
theorem staleTemporaryIsWrittenBack : Obligations.StaleTemporaryIsWrittenBack := by
  refine ⟨fun s mask => ?gpio, fun s p mask arg hid hw hp => ?mux⟩
  case gpio =>
    have out := regAt_out s.cfg
    have enable := regAt_enable s.cfg
    exact ⟨
      fun hs => ⟨_, exec_rmw_writeReg (by simp) out (setBitsSteps_direct (disc_of_regAt out)) rfl hs, rfl⟩,
      fun hs => ⟨_, exec_rmw_writeReg (by simp) out (clearBitsSteps_direct (disc_of_regAt out)) rfl hs, rfl⟩,
      fun hs => ⟨_, exec_rmw_writeReg (by simp) enable (setBitsSteps_direct (disc_of_regAt enable)) rfl hs, rfl⟩,
      fun hs => ⟨_, exec_rmw_writeReg (by simp) enable (clearBitsSteps_direct (disc_of_regAt enable)) rfl hs, rfl⟩⟩
  case mux =>
    have hl := layoutOk_of_wellFormed hw
    obtain ⟨set1, clear1⟩ := writesBack_masked s.cfg p mask (disc_muxAddr hw hp)
    obtain ⟨up2, up4⟩ := (isPull_enablePullup s.cfg p).writesBack
    obtain ⟨down2, down4⟩ := (isPull_enablePulldown s.cfg p).writesBack
    obtain ⟨i3, i5⟩ := writesBack_init s.cfg p arg
    obtain ⟨c3, c5⟩ := writesBack_config_route s.cfg p arg hid
    obtain ⟨c7, c9⟩ := writesBack_config_pull s.cfg p arg hid
    simp only [List.forall_mem_cons, List.not_mem_nil, false_imp_iff, implies_true, and_true]
    exact ⟨set1.muxAt hw hp rfl, clear1.muxAt hw hp rfl,
      up2.muxAt hw hp (muxFields_set_puMask hl _), up4.muxAt hw hp (muxFields_clear_pdMask hl _),
      down2.muxAt hw hp (muxFields_set_pdMask hl _), down4.muxAt hw hp (muxFields_clear_puMask hl _),
      i3.muxAt hw hp rfl, i5.muxAt hw hp rfl, c3.muxAt hw hp rfl, c5.muxAt hw hp rfl,
      c7.muxAt hw hp (muxFields_set_puMask hl _), c9.muxAt hw hp (muxFields_clear_pdMask hl _)⟩

/-! ## The critical section (R192) -/

theorem dispatchable_of_irqDisabled {s : State} (h : s.irqEn = false) (p : Pin) : dispatchable s p = none := by
  simp [dispatchable, h]

/-- No handler is invoked on the way from `s` to `t`: no frame is added, and what is appended to `LOG` is no `Invoke`. -/
structure NoInvocation (s t : State) : Prop where
  handlers : t.handlers.length ≤ s.handlers.length
  log : ∃ es, t.log = s.log ++ es ∧ ∀ hid p, .invoke hid p ∉ es

theorem NoInvocation.log_drop {s t : State} (h : NoInvocation s t) (hid : Hid) (p : Pin) :
    .invoke hid p ∉ t.log.drop s.log.length := by
  obtain ⟨es, hlog, hes⟩ := h.log
  rw [hlog, List.drop_left]
  exact hes hid p

/-- A step function invokes no handler, nor does what is logged after it, if that is no `Invoke`. -/
theorem StepKeeps.noInvocation {s s' t : State} (hk : StepKeeps s s') (hlen : t.handlers.length = s'.handlers.length)
    {es : List Event} (hlog : t.log = s'.log ++ es) (hes : ∀ hid p, .invoke hid p ∉ es) : NoInvocation s t where
  handlers := le_of_eq (hlen.trans hk.length_handlers)
  log := by
    rcases hk.log with hl | ⟨d, a, w, hl⟩
    · exact ⟨es, by rw [hlog, hl], hes⟩
    · exact ⟨.txn s.who d a w :: es, by rw [hlog, hl, List.append_assoc, List.singleton_append], by simpa using hes⟩

/-- Every operation's step returns from a handler or changes the running frame, and logs a transaction, a return or a
result. -/
theorem noInvocation_of_exec {i : Instr} {s t : State} (h : exec i s = .next t) : NoInvocation s t := by
  rcases exec_cases h with ⟨-, x, xs, hx, rfl⟩ | ⟨-, s', hk, rfl | rfl | ⟨r, rfl⟩⟩
  · exact ⟨by simp [hx], [.ret x.hid x.pin], rfl, by simp⟩
  · exact hk.noInvocation (by simp) (List.append_nil _).symm (by simp)
  · exact hk.noInvocation (by simp) (List.append_nil _).symm (by simp)
  · exact hk.noInvocation (by simp) rfl (by simp)

/-- The step of the running frame starts from its stack and its `LOG`. -/
theorem NoInvocation.of_fetched {s t : State} {rest : List Request} (h : NoInvocation (s.fetched rest) t) :
    NoInvocation s t := ⟨by simpa using h.handlers, h.log⟩

/-- While no dispatch is enabled no step invokes a handler (R165). -/
theorem noInvocation_of_step {s t : State} (hnone : ∀ p, dispatchable s p = none) (h : step s = .next t) :
    NoInvocation s t := by
  have keeps := StepKeeps.refl s
  rcases step_cases h with ⟨i, rest, -, he⟩ | rfl | ⟨p, d, cs, -, -, rfl⟩ | ⟨p, lvl, cs, -, -, -, rfl⟩ |
    ⟨p, hid, x, hd, -⟩ | ⟨rest, -, ht⟩
  · exact (noInvocation_of_exec he).of_fetched
  · exact keeps.noInvocation rfl (List.append_nil _).symm (by simp)
  · exact keeps.noInvocation (es := [.padDrive p d]) rfl rfl (by simp)
  · rw [padLevel_eq]
    exact keeps.noInvocation (es := [.padLevel p lvl]) rfl rfl (by simp)
  · exact absurd ((hnone p).symm.trans hd) (by simp)
  · exact NoInvocation.of_fetched (ht.keeps.noInvocation rfl (List.append_nil _).symm (by simp))

theorem Fetches.stepping {s : State} {i : Instr} {rest : List Request} (h : Fetches s i rest) : s.Stepping i := by
  rcases h with ⟨k, hk, -⟩ | ⟨hc, r, hr, hd⟩
  · exact .inl ⟨k, hk⟩
  · exact .inr ⟨hc, r, rest, hr, hd⟩

/-- A step past an operation's first continues the request in progress (R39). -/
theorem Fetches.at_label {s : State} {i : Instr} {rest : List Request} {k : Nat} (h : Fetches s i rest)
    (hk : (s.fetched rest).labelOf i = k) (hpos : 0 < k) : s.At i k := by
  rcases h with ⟨j, hj, -⟩ | ⟨hc, -⟩
  · rw [labelOf_at (by rw [fetched_top]; exact hj)] at hk
    exact hk ▸ hj
  · rw [labelOf_idle (by rw [fetched_top]; exact hc)] at hk
    omega

theorem pendAt_padLevel_of_pending {s : State} {q : Pin} (hq : s.pendAt q = true) (p : Pin) (lvl : Bool) :
    (padLevel p lvl s).pendAt q = true := by
  obtain ⟨s', rfl | ⟨rfl, -⟩, h⟩ := padLevel_cases p lvl s <;> rw [h]
  · exact hq
  · refine (pendAt_setPend s p q true).trans ?_
    split
    · rfl
    · exact hq

/-- While no dispatch is enabled only the two steps that discard an edge clear a pending bit (R136, R139, R171). -/
theorem pending_of_step {s t : State} {q : Pin} (hnone : ∀ p, dispatchable s p = none) (h : step s = .next t)
    (hq : s.pendAt q = true) : t.pendAt q = true ∨ s.Stepping (.excludeInterruption q) ∨
      ∃ arg hid, s.At (.configInterruption q arg hid) 12 := by
  rcases step_cases h with ⟨i, rest, hf, he⟩ | rfl | ⟨p, d, cs, -, -, rfl⟩ | ⟨p, lvl, cs, -, -, -, rfl⟩ |
    ⟨p, hid, x, hd, -⟩ | ⟨rest, -, ht⟩
  · rcases exec_pend he hq with hp | rfl | ⟨arg, hid, rfl, hk⟩
    · exact .inl hp
    · exact .inr (.inl hf.stepping)
    · exact .inr (.inr ⟨arg, hid, hf.at_label hk (by decide)⟩)
  · exact .inl hq
  · exact .inl hq
  · exact .inl (pendAt_padLevel_of_pending (s := s.popChoice) hq p lvl)
  · exact absurd ((hnone p).symm.trans hd) (by simp)
  · exact .inl ((pendAt_congr ht.busOnly.pend q).trans hq)

/-- Settles O47: with `IRQ_EN = 0` no dispatch is enabled, and no other agent's step invokes a handler or takes an edge;
`IRQ_ENABLE` gives the one condition that was missing. -/
theorem criticalSectionDefers : Obligations.CriticalSectionDefers := by
  refine ⟨fun s hirq => ?inside, fun s hs hn => ?after⟩
  case inside =>
    have hnone := dispatchable_of_irqDisabled hirq
    refine ⟨hnone, fun t ht => ?_⟩
    have quiet := noInvocation_of_step hnone ht
    exact ⟨quiet.handlers, quiet.log_drop, fun p hp => pending_of_step hnone ht hp⟩
  case after =>
    exact ⟨_, (irqFlagOperations s hs).2, fun p hid hp hb hh => dispatchable_eq_some_iff.2 ⟨hp, hb, rfl, hn, hh⟩⟩

end Sys2Proof.Machine
end

section
/-! SUPPORT. The worked encodings (30_encoding.md section 7): each printed word is the encoding of the operation it stands
for, so by the round trip it decodes to that operation. -/

namespace Sys2Proof

theorem decode_of_encode_eq {i : Instr} {r : Request} (h : encode i = r) : decode r = .instr i :=
  h ▸ decodeEncodeRoundTrip i

/-- Settles O3: `encode` computes each printed word. -/
theorem workedEncodingsDecode : Obligations.WorkedEncodingsDecode := by
  unfold Obligations.WorkedEncodingsDecode
  and_intros <;> exact decode_of_encode_eq (by decide)

end Sys2Proof
end
